-- ==== Sys2Proof/Word.lean ====
section
/-! DEFINITION. The PVE's word and byte types (spec 00_scope.md R6: "A word is 32 bits"; 20_memory.md R77: byte lanes). -/

namespace Sys2Proof

/-- One byte lane of the host bus (R77). -/
abbrev Byte := BitVec 8

/-- A register, an array word or a command word: 32 bits (R6, R32, R100). -/
abbrev Word := BitVec 32

end Sys2Proof
end

