-- ==== Sys2Proof/Syntax.lean ====
section
/-! DEFINITION. The PVE's command set `PVE-CMD rev 1` (R2, R103): one constructor per row of spec/opcode_table.json. -/

namespace Sys2Proof

/-- The transform direction of a `DIR` field (R101). -/
inductive Dir
  | forward
  | inverse
  deriving DecidableEq, Repr

/-- The 20 commands of R103, with their operands as the numbers their fields hold (R101: unsigned, zero-extended). -/
inductive Instr
  /-- `NOP` (R222). -/
  | nop
  /-- `MARK TAG` (R223). -/
  | mark (tag : Nat)
  /-- `CONFIGURE` (R225). -/
  | configure
  /-- `PROCESS LEN` (R234). -/
  | process (len : Nat)
  /-- `CYCLE` (R231). -/
  | cycle
  /-- `CYCLE_BEGIN` (R228). -/
  | cycleBegin
  /-- `CYCLE_END` (R158). -/
  | cycleEnd
  /-- `PUSH I` (R142). -/
  | push (i : Nat)
  /-- `POP I` (R145). -/
  | pop (i : Nat)
  /-- `LOADFRAME CH` (R152). -/
  | loadframe (ch : Nat)
  /-- `OLA CH` (R156). -/
  | ola (ch : Nat)
  /-- `PV_BIN CH, K` (R166). -/
  | pvBin (ch : Nat) (k : Nat)
  /-- `PV_ALL CH` (R170). -/
  | pvAll (ch : Nat)
  /-- `BITREV` (R181). -/
  | bitrev
  /-- `BFLY.F S, P` and `BFLY.I S, P` (R183). -/
  | bfly (dir : Dir) (stage : Nat) (p : Nat)
  /-- `FFT_STAGE.F S` and `FFT_STAGE.I S` (R185). -/
  | fftStage (dir : Dir) (stage : Nat)
  /-- `FFT.F` and `FFT.I` (R186). -/
  | fft (dir : Dir)
  /-- `HERMIT` (R188). -/
  | hermit
  /-- `WINDOW` (R201). -/
  | window
  /-- `RESAMPLE` (R203). -/
  | resample
  deriving DecidableEq, Repr

end Sys2Proof
end

