-- ==== Sys2Proof/WellFormed.lean ====
section
/-! DEFINITION. Which instructions a command word can express: every operand fits its field (R101). Whether an operand
lies in the ACTIVE configuration is no question of form: the command itself checks it (R105). -/

namespace Sys2Proof

/-- `CH` is a 4-bit field (R101). -/
def fitsChannel (ch : Nat) : Bool := decide (ch < 16)

/-- `S` is a 4-bit field (R101). -/
def fitsStage (st : Nat) : Bool := decide (st < 16)

/-- `LO` is a 16-bit field (R101). -/
def fitsLo (v : Nat) : Bool := decide (v < 65536)

/-- Every operand of the instruction fits the field of its format (R102). -/
def Instr.wellFormed : Instr → Bool
  | .nop => true
  | .mark tag => fitsLo tag
  | .configure => true
  | .process len => fitsLo len
  | .cycle => true
  | .cycleBegin => true
  | .cycleEnd => true
  | .push i => fitsLo i
  | .pop i => fitsLo i
  | .loadframe ch => fitsChannel ch
  | .ola ch => fitsChannel ch
  | .pvBin ch k => fitsChannel ch && fitsLo k
  | .pvAll ch => fitsChannel ch
  | .bitrev => true
  | .bfly _ st p => fitsStage st && fitsLo p
  | .fftStage _ st => fitsStage st
  | .fft _ => true
  | .hermit => true
  | .window => true
  | .resample => true

end Sys2Proof
end

