-- ==== Sys2Proof/Decode.lean ====
section
/-! DEFINITION. Command words to instructions and back (spec 30_encoding.md R100 to R106). `decode` is total on every
32-bit word and rejects by name; `encode` is written from the same tables. -/

namespace Sys2Proof

/-- The formats of R102. -/
inductive Format
  | n
  | l
  | c
  | ck
  | b
  | s
  | d
  deriving DecidableEq, Repr

/-- Why a word is no command (R104). -/
inductive DecodeError
  /-- `OPC` is not in the opcode map (R106). -/
  | illegalOpcode
  /-- A reserved bit of the command's format is 1 (R106). -/
  | reservedField
  deriving DecidableEq, Repr

/-- `RESV`: the reserved mask of a format, the last column of R102. -/
def reservedMask : Format → Word
  | .n => 0x00FFFFFF#32
  | .l => 0x00FF0000#32
  | .c => 0x000FFFFF#32
  | .ck => 0x000F0000#32
  | .b => 0x00700000#32
  | .s => 0x0070FFFF#32
  | .d => 0x007FFFFF#32

/-- `OPC` = w[31:24] (R101). -/
def fieldOpc (w : Word) : BitVec 8 := w.extractLsb' 24 8

/-- `CH` = w[23:20] (R101). -/
def fieldCh (w : Word) : Nat := (w.extractLsb' 20 4).toNat

/-- `DIR` = w[23]: 0 = forward, 1 = inverse (R101). It is the top bit of the four bits w[23:20]. -/
def fieldDir (w : Word) : Dir := if (w.extractLsb' 20 4).getLsbD 3 then .inverse else .forward

/-- `S` = w[19:16] (R101). -/
def fieldStage (w : Word) : Nat := (w.extractLsb' 16 4).toNat

/-- `LO` = w[15:0] (R101). -/
def fieldLo (w : Word) : Nat := (w.extractLsb' 0 16).toNat

/-- The opcode map of R103, read from the opcode to the command with its operands. -/
def instrOf (opc : BitVec 8) (dir : Dir) (ch st lo : Nat) : Option Instr :=
  match opc with
  | 0x00#8 => some .nop
  | 0x01#8 => some (.mark lo)
  | 0x02#8 => some .configure
  | 0x03#8 => some (.process lo)
  | 0x04#8 => some .cycle
  | 0x05#8 => some .cycleBegin
  | 0x06#8 => some .cycleEnd
  | 0x10#8 => some (.push lo)
  | 0x11#8 => some (.pop lo)
  | 0x12#8 => some (.loadframe ch)
  | 0x13#8 => some (.ola ch)
  | 0x20#8 => some (.pvBin ch lo)
  | 0x21#8 => some (.pvAll ch)
  | 0x30#8 => some .bitrev
  | 0x31#8 => some (.bfly dir st lo)
  | 0x32#8 => some (.fftStage dir st)
  | 0x33#8 => some (.fft dir)
  | 0x34#8 => some .hermit
  | 0x40#8 => some .window
  | 0x41#8 => some .resample
  | _ => none

/-- The format column of R103. -/
def Instr.format : Instr → Format
  | .nop => .n
  | .mark _ => .l
  | .configure => .n
  | .process _ => .l
  | .cycle => .n
  | .cycleBegin => .n
  | .cycleEnd => .n
  | .push _ => .l
  | .pop _ => .l
  | .loadframe _ => .c
  | .ola _ => .c
  | .pvBin _ _ => .ck
  | .pvAll _ => .c
  | .bitrev => .n
  | .bfly _ _ _ => .b
  | .fftStage _ _ => .s
  | .fft _ => .d
  | .hermit => .n
  | .window => .n
  | .resample => .n

/-- Decoding, in the order of R104: the opcode first, then the reserved bits of its format. -/
def decode (w : Word) : Except DecodeError Instr :=
  match instrOf (fieldOpc w) (fieldDir w) (fieldCh w) (fieldStage w) (fieldLo w) with
  | none => .error .illegalOpcode
  | some i => if w &&& reservedMask i.format = 0#32 then .ok i else .error .reservedField

/-- The OPC column of R103. -/
def Instr.opcode : Instr → BitVec 8
  | .nop => 0x00#8
  | .mark _ => 0x01#8
  | .configure => 0x02#8
  | .process _ => 0x03#8
  | .cycle => 0x04#8
  | .cycleBegin => 0x05#8
  | .cycleEnd => 0x06#8
  | .push _ => 0x10#8
  | .pop _ => 0x11#8
  | .loadframe _ => 0x12#8
  | .ola _ => 0x13#8
  | .pvBin _ _ => 0x20#8
  | .pvAll _ => 0x21#8
  | .bitrev => 0x30#8
  | .bfly _ _ _ => 0x31#8
  | .fftStage _ _ => 0x32#8
  | .fft _ => 0x33#8
  | .hermit => 0x34#8
  | .window => 0x40#8
  | .resample => 0x41#8

/-- The bits w[23:20] of a format that holds `DIR` (R102: w[22:20] are 0). -/
def Dir.bits : Dir → BitVec 4
  | .forward => 0b0000#4
  | .inverse => 0b1000#4

/-- The bits w[23:20] of a command: `CH`, or `DIR` above three zero bits, or reserved zeros (R102). -/
def Instr.chBits : Instr → BitVec 4
  | .loadframe ch => BitVec.ofNat 4 ch
  | .ola ch => BitVec.ofNat 4 ch
  | .pvBin ch _ => BitVec.ofNat 4 ch
  | .pvAll ch => BitVec.ofNat 4 ch
  | .bfly dir _ _ => dir.bits
  | .fftStage dir _ => dir.bits
  | .fft dir => dir.bits
  | .nop | .mark _ | .configure | .process _ | .cycle | .cycleBegin | .cycleEnd | .push _ | .pop _ | .bitrev
  | .hermit | .window | .resample => 0#4

/-- The bits w[19:16] of a command: `S`, or reserved zeros (R102). -/
def Instr.stageBits : Instr → BitVec 4
  | .bfly _ st _ => BitVec.ofNat 4 st
  | .fftStage _ st => BitVec.ofNat 4 st
  | .nop | .mark _ | .configure | .process _ | .cycle | .cycleBegin | .cycleEnd | .push _ | .pop _ | .loadframe _
  | .ola _ | .pvBin _ _ | .pvAll _ | .bitrev | .fft _ | .hermit | .window | .resample => 0#4

/-- The bits w[15:0] of a command: `LO`, or reserved zeros (R102). -/
def Instr.loBits : Instr → BitVec 16
  | .mark tag => BitVec.ofNat 16 tag
  | .process len => BitVec.ofNat 16 len
  | .push i => BitVec.ofNat 16 i
  | .pop i => BitVec.ofNat 16 i
  | .pvBin _ k => BitVec.ofNat 16 k
  | .bfly _ _ p => BitVec.ofNat 16 p
  | .nop | .configure | .cycle | .cycleBegin | .cycleEnd | .loadframe _ | .ola _ | .pvAll _ | .bitrev
  | .fftStage _ _ | .fft _ | .hermit | .window | .resample => 0#16

/-- The command word of a well-formed instruction (R101 to R103). -/
def encode (i : Instr) : Word := i.opcode ++ (i.chBits ++ (i.stageBits ++ i.loBits))

/-- The instruction `decode` reads from a row of spec/opcode_table.json: `nbits` low bits of `w`, zeros above (every
command is exactly one 32-bit word, R100). -/
def decodeTableWord (nbits w : Nat) : Option Instr :=
  match decode (BitVec.ofNat 32 (w % 2 ^ nbits)) with
  | .ok i => some i
  | .error _ => none

end Sys2Proof
end

