-- ==== Sys2Proof/Config.lean ====
section
/-! DEFINITION. What one implementation of the PVE fixes (its build parameters, R4), and the values the spec leaves
free: the contents of the arrays after hardware reset (R67), and the two OPEN parameters (R4 `BASE`, R261 `IRQ_LINE`). -/

namespace Sys2Proof

/-- The build parameters of R4, with the two OPEN platform parameters `BASE` (D44) and `IRQ_LINE` (D45). -/
structure Build where
  /-- `LOG2NMAX`: log2 of the largest transform size. -/
  log2nmax : Nat
  /-- `CHMAX`: number of channels the arrays hold. -/
  chmax : Nat
  /-- `BMAX`: largest block length. -/
  bmax : Nat
  /-- `CMDQ_DEPTH`: capacity of the command FIFO in words. -/
  cmdqDepth : Nat
  /-- `BASE / 2^28`: which multiple of 2^28 `BASE` is. -/
  baseIndex : Nat
  /-- `IRQ_LINE`: the platform interrupt input that the PVE's output drives. -/
  irqLine : Nat
  deriving DecidableEq, Repr

/-- `NMAX = 2^LOG2NMAX` (R4). -/
def Build.nmax (b : Build) : Nat := 2 ^ b.log2nmax

/-- `BASE`: byte address of the block on the host bus, a multiple of 2^28 (R4, R70). -/
def Build.base (b : Build) : Nat := b.baseIndex * 2 ^ 28

/-- The legal ranges of R4. -/
abbrev Build.legal (b : Build) : Prop :=
  2 ≤ b.log2nmax ∧ b.log2nmax ≤ 15 ∧ 1 ≤ b.chmax ∧ b.chmax ≤ 16 ∧ 1 ≤ b.bmax ∧ b.bmax ≤ 65535 ∧
    1 ≤ b.cmdqDepth ∧ b.cmdqDepth ≤ 256

/-- FREE VALUE (OPEN parameter D44, log entry 2): which multiple of 2^28 the platform places the block at. -/
opaque Config.baseIndex : Nat

/-- FREE VALUE (OPEN parameter D45, log entry 2): the platform's interrupt input. -/
opaque Config.irqLine : Nat

/-- FREE VALUE (R67, I2, I3; log entry 3): the byte that the array word at window offset `off` holds after the
`draw`-th hardware reset, before anything writes it. -/
opaque Config.powerOnByte : Nat → Nat → Byte

/-- The reference build: the default column of R4. -/
def Build.reference : Build :=
  { log2nmax := 12, chmax := 2, bmax := 4096, cmdqDepth := 16,
    baseIndex := Config.baseIndex, irqLine := Config.irqLine }

end Sys2Proof
end

