-- ==== Sys2Proof/Machine/State.lean ====
section
/-! DEFINITION. The PVE's state as plain data (spec 10_state.md): every register of the map of R32, the arrays of R54 to
R62 as one memory over the window's byte offsets, the command FIFO (R63), the engine's progress (R64, R65), and two
fields of the model's own: the schedule of outside events and the values host reads returned (R80, R312). -/

namespace Sys2Proof.Machine

/-- The modes of R41: 0 = PitchShift, 1 = Robotize, 2 = Whisperize. There is no fourth. -/
inductive Mode
  | pitchShift
  | robotize
  | whisperize
  deriving DecidableEq, Repr

/-- The error codes of R250. -/
inductive ErrCode
  /-- 0: no error recorded since reset. -/
  | noError
  /-- 1 -/
  | illegalOpcode
  /-- 2 -/
  | reservedField
  /-- 3 -/
  | notConfigured
  /-- 4 -/
  | configInvalid
  /-- 5 -/
  | badChannel
  /-- 6 -/
  | badBin
  /-- 7 -/
  | badStage
  /-- 8 -/
  | badIndex
  /-- 9 -/
  | accUnderflow
  /-- 10 -/
  | inOverrun
  /-- 11 -/
  | fifoOverflow
  deriving DecidableEq, Repr

/-- An element of a writable array, or of WIN or OMEGA, by array and index (R55 to R62). `SCR[k]` is two words. -/
inductive Elem
  | win (n : Nat)
  | omega (k : Nat)
  | phprev (c k : Nat)
  | synph (c k : Nat)
  | mag (c k : Nat)
  | scrRe (k : Nat)
  | scrIm (k : Nat)
  | rs (i : Nat)
  | inring (c a : Nat)
  | outring (c a : Nat)
  | iobuf (c i : Nat)
  deriving DecidableEq, Repr

/-- The arrays' bytes by their offset in the window (R73, R77), sparsely: `cells` in one canonical form. -/
structure Memory where
  /-- The listed bytes: offsets strictly rising, none equal to what the unlisted byte is known to read as. -/
  cells : List Host.Cell
  /-- A reconfiguration has written every array but IOBUF since the last hardware reset (R67, R224). -/
  cleared : Bool
  /-- Which hardware reset left the unspecified contents (the model's own counter, log entry 3). -/
  powerOn : Nat
  deriving DecidableEq, Repr

/-- Where a transform stands: the next leaf of BITREV, then the butterflies of stages 1 to L (R186). -/
inductive FftAt
  | bitrev
  | bfly (stage p : Nat)
  deriving DecidableEq, Repr

/-- Where a cycle stands: the next leaf of R230's body. -/
inductive CycleAt
  | start
  | load (c : Nat)
  | forward (c : Nat) (at' : FftAt)
  | bin (c k : Nat)
  | hermit (c : Nat)
  | inverse (c : Nat) (at' : FftAt)
  | window (c : Nat)
  | resample (c : Nat)
  | ola (c : Nat)
  | finish
  deriving DecidableEq, Repr

/-- Where one sample of a PROCESS stands: PUSH, inside a cycle, or POP (R234). -/
inductive SampleAt
  | push
  | inCycle (at' : CycleAt)
  | pop
  deriving DecidableEq, Repr

/-- The progress of an executing command (R65): which leaf its next engine step runs. -/
inductive Progress
  | process (len i : Nat) (at' : SampleAt)
  | cycle (at' : CycleAt)
  | fft (dir : Dir) (at' : FftAt)
  | stage (dir : Dir) (st p : Nat)
  | pvAll (c k : Nat)
  deriving DecidableEq, Repr

/-- What the engine holds while BUSY: the executing command word and its progress (R65). -/
structure Running where
  word : Word
  progress : Progress
  deriving DecidableEq, Repr

/-- One event from outside the engine, or the engine's turn between two of them (R80, R301). -/
inductive HostEvent
  /-- The engine takes one engine step before the next outside event. -/
  | engine
  /-- A host read of `size` bytes at a bus byte address (R71). -/
  | read (addr size : Nat)
  /-- A host write of `size` bytes at a bus byte address (R71). -/
  | write (addr size : Nat) (v : Word)
  /-- The reset input is asserted (R301). -/
  | hardReset
  deriving DecidableEq, Repr

/-- The PVE's state. Registers carry the spec's names (10_state.md section 2). -/
structure State where
  /-- The build parameters: fixed for the machine, shown in PARAM0 and PARAM1 (R4, R34). -/
  build : Build
  /-- `CTRL.RECONF_REQ` and `STATUS.PENDING` (R35, R36). -/
  pending : Bool
  /-- `STATUS.CONFIGURED` (R36). -/
  configured : Bool
  /-- `STATUS.HALTED` (R36). -/
  halted : Bool
  /-- `STATUS.OVF` (R36). -/
  ovf : Bool
  /-- `ERR_CODE` (R37). -/
  errCode : ErrCode
  /-- `ERR_CMD` (R37). -/
  errCmd : Word
  /-- `IRQ_STATUS` bits 4 to 0: BUSERR, RECONF, ERR, MARK, DONE (R38). -/
  irqStatus : BitVec 5
  /-- `IRQ_ENABLE`, same layout (R38). -/
  irqEnable : BitVec 5
  /-- `SATFLAGS` bits 2 to 0: SAT_OLA, SAT_PV, SAT_FFT (R44). -/
  satFlags : BitVec 3
  /-- `CFG_LOG2N` (R45). -/
  cfgLog2n : BitVec 4
  /-- `CFG_CHANNELS` (R45). -/
  cfgChannels : BitVec 5
  /-- `CFG_SAMPLE_RATE` (R45). -/
  cfgSampleRate : Word
  /-- `MODE` (R41). -/
  mode : Mode
  /-- `PITCH_TARGET`, UQ4.28 (R40). -/
  pitchTarget : Word
  /-- `SMOOTH_SHIFT` (R42). -/
  smoothShift : BitVec 4
  /-- `PRNG_SEED` (R43). -/
  prngSeed : Word
  /-- `ACT_LOG2N` (R46). -/
  actLog2n : BitVec 4
  /-- `ACT_CHANNELS` (R46). -/
  actChannels : BitVec 5
  /-- `ACT_SAMPLE_RATE` (R46). -/
  actSampleRate : Word
  /-- `HA` (R47). -/
  ha : Word
  /-- `RING_CAP` (R47). -/
  ringCap : Word
  /-- `WSS_HI` and `WSS_LO` together (R47). -/
  wss : BitVec 64
  /-- `PITCH_CURRENT`, UQ4.28 (R48). -/
  pitchCurrent : Word
  /-- `CYC_MODE` (R49). -/
  cycMode : Mode
  /-- `CYC_RATIO`, UQ4.28 (R49). -/
  cycRatio : Word
  /-- `HS` (R49). -/
  hs : Word
  /-- `RLEN` (R49). -/
  rlen : Word
  /-- `NORM`, UQ2.30 (R49). -/
  norm : Word
  /-- `PRNG_STATE` (R50). -/
  prngState : Word
  /-- `IN_WR` = IW (R51). -/
  inWr : Word
  /-- `IN_RD` = IR (R51). -/
  inRd : Word
  /-- `IN_ACC` = ACC (R51). -/
  inAcc : Word
  /-- `OUT_WR` = OW (R51). -/
  outWr : Word
  /-- `OUT_RD` = OR (R51). -/
  outRd : Word
  /-- `CYCLE_COUNT` (R52). -/
  cycleCount : Word
  /-- `PUSH_COUNT` (R52). -/
  pushCount : Word
  /-- `POP_COUNT` (R52). -/
  popCount : Word
  /-- `CMD_COUNT` (R52). -/
  cmdCount : Word
  /-- `MARK_TAG` bits 15 to 0 (R53). -/
  markTag : BitVec 16
  /-- `BUSERR_ADDR` bits 27 to 0 (R68). -/
  buserrAddr : BitVec 28
  /-- The arrays of R55 to R62. The twiddle ROM of R54 is constant: `Numeric.lean` computes it. -/
  mem : Memory
  /-- `CMDQ`, head first (R63). -/
  cmdq : List Word
  /-- The executing command, `none` when not BUSY (R64, R65). -/
  running : Option Running
  /-- MODEL'S OWN (log entry 1): the outside events still to come, first first. -/
  inbox : List HostEvent
  /-- MODEL'S OWN (log entry 1): the values host reads returned, oldest first (R312). -/
  replies : List Word
  deriving DecidableEq, Repr

/-- How a step can stop. -/
inductive Fault
  /-- Raised by a host event whose address lies outside the window [BASE, BASE + 2^28) (R70): it is no access of this
  device, and the spec gives nothing to model. SAFE: the model stops where the device is not concerned. -/
  | hostOutsideWindow (addr : Nat)
  deriving DecidableEq, Repr

/-- Why an instruction has no meaning. -/
inductive Refusal
  /-- Raised by an arm of `exec` whose instruction has no meaning yet. SAFE. No arm raises it. -/
  | notModelled (mnemonic : String)
  deriving DecidableEq, Repr

/-- The arrays after the `draw`-th hardware reset: nothing is known of them (R67). -/
def Memory.afterPowerOn (draw : Nat) : Memory := { cells := [], cleared := false, powerOn := draw }

/-- The `reset` column of 10_state.md's register map, for a build (R66). -/
def State.resetOf (b : Build) : State :=
  { build := b
    pending := false, configured := false, halted := false, ovf := false
    errCode := .noError, errCmd := 0#32
    irqStatus := 0#5, irqEnable := 0#5, satFlags := 0#3
    cfgLog2n := BitVec.ofNat 4 (min 11 b.log2nmax), cfgChannels := 1#5, cfgSampleRate := 44100#32
    mode := .pitchShift, pitchTarget := 0x10000000#32, smoothShift := 2#4, prngSeed := 0x9E3779B9#32
    actLog2n := 0#4, actChannels := 0#5, actSampleRate := 0#32
    ha := 0#32, ringCap := 0#32, wss := 0#64
    pitchCurrent := 0x10000000#32, cycMode := .pitchShift, cycRatio := 0x10000000#32
    hs := 0#32, rlen := 0#32, norm := 0#32, prngState := 0x9E3779B9#32
    inWr := 0#32, inRd := 0#32, inAcc := 0#32, outWr := 0#32, outRd := 0#32
    cycleCount := 0#32, pushCount := 0#32, popCount := 0#32, cmdCount := 0#32
    markTag := 0#16, buserrAddr := 0#28
    mem := Memory.afterPowerOn 0
    cmdq := [], running := none, inbox := [], replies := [] }

/-- The machine right after hardware reset, in the reference build (R301, R66, R67). -/
def State.reset : State := State.resetOf Build.reference

end Sys2Proof.Machine
end

