-- ==== Sys2Proof/Machine/Flags.lean ====
section
/-! DEFINITION. Every flag computation of the spec: saturation and SATFLAGS (R8, R44), the interrupt bits and output
(R38, R260, R261), and the STATUS and CTRL views of the flags (R35, R36). -/

namespace Sys2Proof.Machine

/-- The largest and smallest value of a signed word (R8). -/
def satMax : Int := 2 ^ 31 - 1
def satMin : Int := -2 ^ 31

/-- The value `sat32` returns (R8). -/
def sat32 (x : Int) : Int := if satMax < x then satMax else if x < satMin then satMin else x

/-- `sat32` clips its argument, and so sets its SATFLAGS bit (R8). -/
def clips (x : Int) : Bool := decide (satMax < x) || decide (x < satMin)

/-- The bits of SATFLAGS (R44). -/
def satFft : BitVec 3 := 0b001#3
def satPv : BitVec 3 := 0b010#3
def satOla : BitVec 3 := 0b100#3

/-- Sets a SATFLAGS bit if any `sat32` of the step clipped. The bits are sticky (R44). -/
def State.flagSat (s : State) (bit : BitVec 3) (clipped : Bool) : State :=
  { s with satFlags := if clipped then s.satFlags ||| bit else s.satFlags }

/-- The bits of IRQ_STATUS and IRQ_ENABLE (R38, R260). -/
def irqDone : BitVec 5 := 0b00001#5
def irqMark : BitVec 5 := 0b00010#5
def irqErr : BitVec 5 := 0b00100#5
def irqReconf : BitVec 5 := 0b01000#5
def irqBuserr : BitVec 5 := 0b10000#5

/-- Sets a pending bit; setting a set bit has no further effect (R260). -/
def State.raiseIrq (s : State) (bit : BitVec 5) : State := { s with irqStatus := s.irqStatus ||| bit }

/-- The level of the interrupt output, driven onto the platform's `build.irqLine` (R261). -/
def State.irq (s : State) : Bool := decide (s.irqStatus &&& s.irqEnable ≠ 0#5)

/-- `STATUS.BUSY`: a command is executing (R36, R64). -/
def State.busy (s : State) : Bool := s.running.isSome

/-- The engine states of R64. -/
inductive EngineState
  | idle
  | busy
  | stopped
  deriving DecidableEq, Repr

/-- Which of the three states of R64 the engine is in. -/
def State.engineState (s : State) : EngineState :=
  if s.busy then .busy else if s.halted then .stopped else .idle

/-- `STATUS.FIFO_COUNT` (R36). -/
def State.fifoCount (s : State) : Nat := s.cmdq.length

/-- `STATUS.FIFO_FULL` (R36). -/
def State.fifoFull (s : State) : Bool := decide (s.fifoCount = s.build.cmdqDepth)

/-- `STATUS.RSTATE`: 1 = ReconfigPending, 0 = Idle; 2 is never read (R36). -/
def State.rstate (s : State) : BitVec 2 := if s.pending then 1#2 else 0#2

/-- The word `STATUS` reads as (R36), from bit 31 down. -/
def State.statusWord (s : State) : Word :=
  0#14 ++ (BitVec.ofBool s.fifoFull ++ (BitVec.ofNat 9 s.fifoCount ++ (0#1 ++ (BitVec.ofBool s.ovf ++ (s.rstate ++
    (BitVec.ofBool s.pending ++ (BitVec.ofBool s.configured ++ (BitVec.ofBool s.halted ++ BitVec.ofBool s.busy))))))))

/-- The word `CTRL` reads as: RECONF_REQ shows PENDING, every other bit reads 0 (R35). -/
def State.ctrlWord (s : State) : Word := 0#31 ++ BitVec.ofBool s.pending

/-- The byte of an error code (R250). -/
def ErrCode.code : ErrCode → BitVec 8
  | .noError => 0
  | .illegalOpcode => 1
  | .reservedField => 2
  | .notConfigured => 3
  | .configInvalid => 4
  | .badChannel => 5
  | .badBin => 6
  | .badStage => 7
  | .badIndex => 8
  | .accUnderflow => 9
  | .inOverrun => 10
  | .fifoOverflow => 11

/-- The encoding of a mode in MODE and CYC_MODE (R41). -/
def Mode.code : Mode → BitVec 2
  | .pitchShift => 0
  | .robotize => 1
  | .whisperize => 2

/-- The mode a two-bit value encodes; 3 encodes none (R41). -/
def Mode.ofCode (v : BitVec 2) : Option Mode :=
  if v = 0#2 then some .pitchShift else if v = 1#2 then some .robotize else if v = 2#2 then some .whisperize else none

end Sys2Proof.Machine
end

