-- ==== Sys2Proof/Machine/Numeric.lean ====
section
/-! DEFINITION. The numeric primitives of 00_scope.md R7 to R21 and the constant tables of R54 and R55, on mathematical
integers. The real functions are CORRECTLY ROUNDED (R9, D6, I24): a fixed-point approximation with `p` fraction bits
and a stated error bound is rounded at both ends of its error interval; where the two agree that value is the exact
`rnd`, and where they differ the precision is doubled (log entry 4). -/

namespace Sys2Proof.Machine

/-- `rshr(x, s)`: rounding shift, ties toward +infinity (R7). -/
def rshr (x : Int) (s : Nat) : Int := (x + 2 ^ (s - 1)) / 2 ^ s

/-- `wrap32(x)`: the integer in [-2^31, 2^31) congruent to `x` mod 2^32 (R8). On binary angles, `princArg` (R16). -/
def wrap32 (x : Int) : Int := Int.bmod x (2 ^ 32)

/-- Integer square root by digits: the largest `r + t`, `t < 2^b`, whose square is at most `n`. -/
def isqrtFrom (n : Nat) : Nat → Nat → Nat
  | 0, r => r
  | b + 1, r => if (r + 2 ^ b) * (r + 2 ^ b) ≤ n then isqrtFrom n b (r + 2 ^ b) else isqrtFrom n b r

/-- floor of the square root. -/
def isqrt (n : Nat) : Nat := isqrtFrom n (n.log2 / 2 + 1) 0

/-- `rsqrt(S)`: the integer nearest to the square root of `S` (R10). -/
def rsqrt (n : Nat) : Nat := if n - isqrt n * isqrt n > isqrt n then isqrt n + 1 else isqrt n

/-! Fixed-point approximations: a number `v` with `p` fraction bits is held as an integer near `2^p * v`. -/

/-- The alternating series of arctan(1/q): `t / d - (t / q^2) / (d + 2) + ...`, stopping where the term is 0. -/
def arctanInvSeries (q2 : Nat) : Nat → Nat → Nat → Int
  | 0, _, _ => 0
  | f + 1, d, t => if t = 0 then 0 else ((t / d : Nat) : Int) - arctanInvSeries q2 f (d + 2) (t / q2)

/-- pi = 16 arctan(1/5) - 4 arctan(1/239). -/
def piFix (p : Nat) : Int :=
  16 * arctanInvSeries 25 p 1 (2 ^ p / 5) - 4 * arctanInvSeries 57121 p 1 (2 ^ p / 239)

/-- The alternating power series of sine and cosine: from the term `t` of degree `n`, `x2` being the square of the
argument, stopping where the term is 0. -/
def trigSeries (p x2 : Nat) : Nat → Nat → Nat → Int
  | 0, _, _ => 0
  | f + 1, n, t =>
    if t = 0 then 0 else (t : Int) - trigSeries p x2 f (n + 2) (t * x2 / 2 ^ p / ((n + 1) * (n + 2)))

/-- Sine of a fixed-point argument in [0, pi/2]. -/
def sinFix (p x : Nat) : Int := trigSeries p (x * x / 2 ^ p) p 1 x

/-- Cosine of a fixed-point argument in [0, pi/2]. -/
def cosFix (p x : Nat) : Int := trigSeries p (x * x / 2 ^ p) p 0 (2 ^ p)

/-- The angle `pi * a / b` in fixed point. -/
def angleFix (p a b : Nat) : Nat := (piFix p).toNat * a / b

/-- Euler's series of the arctangent of `y / x`, `u = y^2`, `d = x^2 + y^2`: each term is the one before times
`(2n + 2) / (2n + 3) * u / d`. -/
def arctanSeries (u d : Nat) : Nat → Nat → Nat → Nat
  | 0, _, _ => 0
  | f + 1, n, t => if t = 0 then 0 else t + arctanSeries u d f (n + 1) (t * (2 * n + 2) * u / ((2 * n + 3) * d))

/-- The arctangent of `y / x`, `0 < y <= x`, in fixed point. -/
def arctanFix (p y x : Nat) : Nat :=
  arctanSeries (y * y) (x * x + y * y) (p + 8) 0 (2 ^ p * (x * y) / (x * x + y * y))

/-- `rnd` of the real number whose approximation at precision `p` is `approx p` (with `p` fraction bits) and differs
from it by at most `err p`: the first precision, doubling from `p`, at which both ends of the interval round alike. -/
def roundExact (approx : Nat → Int) (err : Nat → Nat) : Nat → Nat → Int
  | 0, p => rshr (approx p) p
  | f + 1, p =>
    if rshr (approx p - err p) p = rshr (approx p + err p) p then rshr (approx p - err p) p
    else roundExact approx err f (2 * p)

/-- How often the precision may double (from 128 bits to 2^39): the exact values are algebraic numbers whose distance
from a tie is above 2^-(2^37), so the last precision is never exhausted (log entry 4). -/
def roundFuel : Nat := 32

/-- `rnd(m * cos(pi/2 * r / 2^30))` for `0 <= r < 2^30`. -/
def roundCosQuarter (m r : Nat) : Int :=
  if r = 0 then m
  else roundExact (fun p => m * cosFix p (angleFix p r (2 ^ 31))) (fun p => m * 2 ^ (p / 4)) roundFuel 128

/-- `rnd(m * sin(pi/2 * r / 2^30))` for `0 <= r < 2^30`. -/
def roundSinQuarter (m r : Nat) : Int :=
  if r = 0 then 0
  else roundExact (fun p => m * sinFix p (angleFix p r (2 ^ 31))) (fun p => m * 2 ^ (p / 4)) roundFuel 128

/-- A binary angle as an unsigned fraction of 2^32 of a turn (R15). -/
def turn (theta : Int) : Nat := (theta % 2 ^ 32).toNat

/-- `mcos(m, theta) = rnd(m * cos(theta * 2pi / 2^32))` (R20). No argument is a tie, so `rnd` is odd here. -/
def mcos (m : Nat) (theta : Int) : Int :=
  let r := turn theta % 2 ^ 30
  match turn theta / 2 ^ 30 with
  | 0 => roundCosQuarter m r
  | 1 => -roundSinQuarter m r
  | 2 => -roundCosQuarter m r
  | _ => roundSinQuarter m r

/-- `msin(m, theta) = rnd(m * sin(theta * 2pi / 2^32))` (R20). -/
def msin (m : Nat) (theta : Int) : Int :=
  let r := turn theta % 2 ^ 30
  match turn theta / 2 ^ 30 with
  | 0 => roundSinQuarter m r
  | 1 => roundCosQuarter m r
  | 2 => -roundSinQuarter m r
  | _ => -roundCosQuarter m r

/-- `rnd(arctan(y / x) * 2^31 / pi)` for `0 < y < x`. -/
def roundArctanOctant (y x : Nat) : Int :=
  roundExact (fun p => (arctanFix p y x : Int) * 2 ^ 31 * 2 ^ p / piFix p) (fun p => 2 ^ 33 * 2 ^ (p / 4)) roundFuel 128

/-- `rnd(atan2(y, x) * 2^31 / pi)` in the first quadrant, from 0 to 2^30. The multiples of pi/4 are exact (R11). -/
def roundArctanQuadrant (y x : Nat) : Int :=
  if y = 0 then 0
  else if x = 0 then 2 ^ 30
  else if y = x then 2 ^ 29
  else if y < x then roundArctanOctant y x
  else 2 ^ 30 - roundArctanOctant x y

/-- `atan2b(y, x) = wrap32(rnd(atan2(y, x) * 2^31 / pi))`, and `atan2b(0, 0) = 0` (R11). -/
def atan2b (y x : Int) : Int :=
  let a := roundArctanQuadrant y.natAbs x.natAbs
  if 0 ≤ x then (if 0 ≤ y then a else -a)
  else wrap32 (if 0 ≤ y then 2 ^ 31 - a else a - 2 ^ 31)

/-- `TWR[j] = rnd(2^30 * cos(2 pi j / NMAX))` (R54), as the binary angle `j * 2^32 / NMAX`. -/
def twiddleRe (b : Build) (j : Nat) : Int := mcos (2 ^ 30) (j * 2 ^ (32 - b.log2nmax))

/-- `TWI[j] = rnd(-2^30 * sin(2 pi j / NMAX))` (R54). -/
def twiddleIm (b : Build) (j : Nat) : Int := msin (2 ^ 30) (-(j * 2 ^ (32 - b.log2nmax) : Nat))

/-- `WIN[n] = rnd(2^24 * sqrt((1 - cos(2 pi n / (N - 1))) / 2))` for `n < N` (R55): the root is `sin(pi n / (N - 1))`,
which is symmetric about the middle of the window. -/
def winCoeff (n i : Nat) : Nat :=
  (roundExact (fun p => 2 ^ 24 * sinFix p (angleFix p (min i (n - 1 - i)) (n - 1))) (fun p => 2 ^ 24 * 2 ^ (p / 4))
    roundFuel 128).toNat

/-- The sum of `f 0` to `f (n - 1)`. -/
def sumTo (f : Nat → Nat) : Nat → Nat
  | 0 => 0
  | n + 1 => sumTo f n + f n

/-- `WSS`: the sum of `WIN[n]^2` over `n < N` (R47). -/
def windowSumSquares (n : Nat) : Nat := sumTo (fun i => winCoeff n i * winCoeff n i) n

/-- `xorshift32` (R168). -/
def xorshift32 (x : Word) : Word :=
  let x1 := x ^^^ (x <<< 13)
  let x2 := x1 ^^^ (x1 >>> 17)
  x2 ^^^ (x2 <<< 5)

/-- The `width` low bits of `k` in reverse order (R181). -/
def reverseBits : Nat → Nat → Nat
  | 0, _ => 0
  | width + 1, k => k % 2 * 2 ^ width + reverseBits width (k / 2)

/-- `HS = (HA * CYC_RATIO + 2^27) >> 28` (R227). -/
def synthesisHop (hop ratio : Nat) : Nat := (hop * ratio + 2 ^ 27) / 2 ^ 28

/-- `RLEN = floor(N * 2^28 / CYC_RATIO)` (R227). -/
def resampledLength (n ratio : Nat) : Nat := n * 2 ^ 28 / ratio

/-- `NORM = floor((HS * 2^79 + WSS) / (2 * WSS))` (R227). -/
def normFactor (hs wss : Nat) : Nat := (hs * 2 ^ 79 + wss) / (2 * wss)

/-- The smoother of R226: the new `PITCH_CURRENT`. -/
def smoothRatio (target current shift : Nat) : Int :=
  let diff : Int := (target : Int) - current
  let step := diff / 2 ^ shift
  current + (if 0 < diff ∧ step = 0 then 1 else step)

end Sys2Proof.Machine
end

