-- ==== Sys2Proof/Machine/Ops.lean ====
section
/-! DEFINITION. The named operations over the arrays, the derived configuration and the command life cycle: element
access (R73 to R75, R77), the error procedure and the return from it (R252, R256), start and completion (R221), the
reconfiguration procedure (R224), and reset (R301, R302). -/

namespace Sys2Proof.Machine

/-! ### Bytes -/

/-- The listed byte at an offset. -/
def findCell : List Host.Cell → Nat → Option Byte
  | [], _ => none
  | (k, v) :: rest, a => if k = a then some v else findCell rest a

/-- Lists a byte, in offset order. -/
def putCell : List Host.Cell → Nat → Byte → List Host.Cell
  | [], a, b => [(a, b)]
  | (k, v) :: rest, a, b =>
    if a < k then (a, b) :: (k, v) :: rest
    else if a = k then (a, b) :: rest
    else (k, v) :: putCell rest a b

/-- Unlists an offset. -/
def dropCell : List Host.Cell → Nat → List Host.Cell
  | [], _ => []
  | (k, v) :: rest, a => if k = a then dropCell rest a else (k, v) :: dropCell rest a

/-- The regions a reconfiguration writes: WIN (2) to OUTRING (10), not IOBUF (11) (R73, R224). -/
def inReconfigured (a : Nat) : Bool := decide (0x02000000 ≤ a) && decide (a < 0x0B000000)

/-- What an unlisted byte is known to read as: 0 once a reconfiguration has written every array but IOBUF, and nothing
before (R67, R224). -/
def Memory.unlisted (m : Memory) (a : Nat) : Option Byte :=
  if m.cleared && inReconfigured a then some 0#8 else none

/-- Reads one byte. Where nothing is known the byte is free (R67, I2, I3). -/
def Memory.readByte (m : Memory) (a : Nat) : Byte :=
  match findCell m.cells a with
  | some b => b
  | none => (m.unlisted a).getD (Config.powerOnByte m.powerOn a)

/-- Writes one byte, keeping the canonical form. -/
def Memory.writeByte (m : Memory) (a : Nat) (b : Byte) : Memory :=
  { m with cells := if m.unlisted a = some b then dropCell m.cells a else putCell m.cells a b }

/-- The listed offsets rise strictly, from `lo` on. -/
def cellsRiseFrom : Nat → List Host.Cell → Bool
  | _, [] => true
  | lo, (a, _) :: rest => decide (lo ≤ a) && cellsRiseFrom (a + 1) rest

/-- The canonical form of the arrays' bytes. -/
def Memory.wf (m : Memory) : Bool :=
  cellsRiseFrom 0 m.cells && m.cells.all (fun c => decide (m.unlisted c.1 ≠ some c.2))

/-! ### Words and elements -/

/-- Reads the word at a byte offset, little-endian (R77). -/
def Memory.readWord (m : Memory) (a : Nat) : Word :=
  m.readByte (a + 3) ++ (m.readByte (a + 2) ++ (m.readByte (a + 1) ++ m.readByte a))

/-- Writes the word at a byte offset, little-endian (R77). -/
def Memory.writeWord (m : Memory) (a : Nat) (v : Word) : Memory :=
  (((m.writeByte a (v.extractLsb' 0 8)).writeByte (a + 1) (v.extractLsb' 8 8)).writeByte (a + 2)
    (v.extractLsb' 16 8)).writeByte (a + 3) (v.extractLsb' 24 8)

/-- The byte offset of an element in the window: region `r`, word `w`, at `r * 2^24 + 4 * w` (R73). -/
def Elem.offset : Elem → Nat
  | .win n => 0x02000000 + 4 * n
  | .omega k => 0x03000000 + 4 * k
  | .phprev c k => 0x04000000 + 4 * (c * 2 ^ 15 + k)
  | .synph c k => 0x05000000 + 4 * (c * 2 ^ 15 + k)
  | .mag c k => 0x06000000 + 4 * (c * 2 ^ 15 + k)
  | .scrRe k => 0x07000000 + 4 * (2 * k)
  | .scrIm k => 0x07000000 + 4 * (2 * k + 1)
  | .rs i => 0x08000000 + 4 * i
  | .inring c a => 0x09000000 + 4 * (c * 2 ^ 17 + a)
  | .outring c a => 0x0A000000 + 4 * (c * 2 ^ 17 + a)
  | .iobuf c i => 0x0B000000 + 4 * (c * 2 ^ 16 + i)

/-- The byte at offset `a` is one of the four of an element's word. -/
abbrev Elem.covers (e : Elem) (a : Nat) : Prop := e.offset ≤ a ∧ a < e.offset + 4

/-- An element's index lies inside the array's build dimensions (R73, column "populated when"). -/
def Elem.populated (b : Build) : Elem → Bool
  | .win n => decide (n < b.nmax)
  | .omega k => decide (k ≤ b.nmax / 2)
  | .phprev c k => decide (c < b.chmax) && decide (k ≤ b.nmax / 2)
  | .synph c k => decide (c < b.chmax) && decide (k ≤ b.nmax / 2)
  | .mag c k => decide (c < b.chmax) && decide (k ≤ b.nmax / 2)
  | .scrRe k => decide (k < b.nmax)
  | .scrIm k => decide (k < b.nmax)
  | .rs i => decide (i < 2 * b.nmax)
  | .inring c a => decide (c < b.chmax) && decide (a < 4 * b.nmax)
  | .outring c a => decide (c < b.chmax) && decide (a < 4 * b.nmax)
  | .iobuf c i => decide (c < b.chmax) && decide (i < b.bmax)

/-- The stored 32 bits of an element (R74). -/
def Memory.get (m : Memory) (e : Elem) : Word := m.readWord e.offset

/-- An element as the signed value the engine reads (R75). -/
def Memory.getInt (m : Memory) (e : Elem) : Int := (m.get e).toInt

/-- Stores the 32 bits of an element (R75). -/
def Memory.put (m : Memory) (e : Elem) (v : Word) : Memory := m.writeWord e.offset v

/-- Stores a signed value in its two's complement encoding (R12, R74). -/
def Memory.putInt (m : Memory) (e : Elem) (x : Int) : Memory := m.put e (BitVec.ofInt 32 x)

/-- `for i in 0..n-1: f i`, in increasing order (R6). -/
def forRange {σ : Type} : Nat → (Nat → σ → σ) → σ → σ
  | 0, _, s => s
  | n + 1, f, s => f n (forRange n f s)

/-- Replaces the arrays and nothing else. -/
def State.setMem (s : State) (m : Memory) : State := { s with mem := m }

/-! ### The active configuration (R5, R46) -/

/-- `N = 2^ACT_LOG2N`. -/
def State.n (s : State) : Nat := 2 ^ s.actLog2n.toNat

/-- `HA = N/4`. -/
def State.hop (s : State) : Nat := s.n / 4

/-- `C = 4N`. -/
def State.cap (s : State) : Nat := 4 * s.n

/-- `CH = ACT_CHANNELS`. -/
def State.ch (s : State) : Nat := s.actChannels.toNat

/-- `ACCMAX = 3N + HA` (R143). -/
def State.accMax (s : State) : Nat := 3 * s.n + s.hop

/-- The ring address `(cursor - 3*HA + i) mod C` of the frame (R150) and of the overlap-add region (R155). -/
def State.frameAddr (s : State) (cursor : Word) (i : Nat) : Nat :=
  (((cursor.toNat : Int) - 3 * (s.hop : Int) + (i : Int)) % (s.cap : Int)).toNat

/-- `(cursor + k) mod C` as the register value. -/
def State.advance (s : State) (cursor : Word) (k : Nat) : Word := BitVec.ofNat 32 ((cursor.toNat + k) % s.cap)

/-! ### Life cycle of a command -/

/-- The error procedure of R252, for the command word `w`: the engine's exception entry. Only the first error since the
last RESUME or reset is recorded; the command ends (BUSY clears). -/
def State.raiseError (s : State) (e : ErrCode) (w : Word) : State :=
  { s with
    errCode := if s.halted then s.errCode else e
    errCmd := if s.halted then s.errCmd else w
    halted := true
    irqStatus := s.irqStatus ||| irqErr
    running := none }

/-- RESUME, the return from an error: HALTED and OVF clear, the record stays (R256). -/
def State.resume (s : State) : State := { s with halted := false, ovf := false }

/-- Completion without error (R221): CMD_COUNT counts, BUSY clears, and DONE is raised if CMDQ is empty. -/
def State.complete (s : State) : State :=
  { s with
    cmdCount := s.cmdCount + 1#32
    running := none
    irqStatus := if s.cmdq.isEmpty then s.irqStatus ||| irqDone else s.irqStatus }

/-- The first step of a composite command ends with the command executing: BUSY, and the first leaf to come (R220). -/
def State.start (s : State) (w : Word) (p : Progress) : State := { s with running := some { word := w, progress := p } }

/-! ### Reconfiguration (R224) -/

/-- The validity test of R224. -/
def State.configValid (s : State) : Bool :=
  decide (2 ≤ s.cfgLog2n.toNat) && decide (s.cfgLog2n.toNat ≤ s.build.log2nmax) && decide (1 ≤ s.cfgChannels.toNat) &&
    decide (s.cfgChannels.toNat ≤ s.build.chmax)

/-- Every array but IOBUF becomes 0 (R224). -/
def Memory.clear (m : Memory) : Memory :=
  { m with cells := m.cells.filter (fun c => !inReconfigured c.1), cleared := true }

/-- `OMEGA[k]` for `k <= N/2` and `WIN[n]` for `n < N`, over cleared arrays (R55, R56, R224). -/
def Memory.writeTables (m : Memory) (n : Nat) : Memory :=
  forRange n (fun i m => m.put (.win i) (BitVec.ofNat 32 (winCoeff n i)))
    (forRange (n / 2 + 1) (fun k m => m.put (.omega k) (BitVec.ofNat 32 (k * 2 ^ 32 / n))) m)

/-- The latched cycle parameters of R227, from MODE and PITCH_CURRENT. -/
def State.latch (s : State) : State :=
  let hs := synthesisHop s.hop s.pitchCurrent.toNat
  { s with
    cycMode := s.mode
    cycRatio := s.pitchCurrent
    hs := BitVec.ofNat 32 hs
    rlen := BitVec.ofNat 32 (resampledLength s.n s.pitchCurrent.toNat)
    norm := BitVec.ofNat 32 (normFactor hs s.wss.toNat) }

/-- A successful reconfiguration (R224), before the latching of R227. -/
def State.reconfigureBase (s : State) : State :=
  let n := 2 ^ s.cfgLog2n.toNat
  { s with
    pending := false
    actLog2n := s.cfgLog2n
    actChannels := s.cfgChannels
    actSampleRate := s.cfgSampleRate
    ha := BitVec.ofNat 32 (n / 4)
    ringCap := BitVec.ofNat 32 (4 * n)
    mem := s.mem.clear.writeTables n
    wss := BitVec.ofNat 64 (windowSumSquares n)
    inWr := 0#32
    inRd := 0#32
    inAcc := 0#32
    outWr := 0#32
    outRd := BitVec.ofNat 32 (2 * n)
    pitchCurrent := s.pitchTarget
    prngState := s.prngSeed
    cycleCount := 0#32
    pushCount := 0#32
    popCount := 0#32
    configured := true
    irqStatus := s.irqStatus ||| irqReconf }

/-- A successful reconfiguration (R224): the new configuration, then the latching of R227 without the smoother. -/
def State.reconfigured (s : State) : State := s.reconfigureBase.latch

/-- A failed reconfiguration changes only PENDING and CONFIGURED (R224). -/
def State.reconfigureFailed (s : State) : State := { s with pending := false, configured := false }

/-! ### Reset -/

/-- Every register takes its reset value, CMDQ empties and the executing command is abandoned (R301, R302). The arrays
stay as they are. -/
def State.resetRegisters (s : State) : State :=
  { State.resetOf s.build with mem := s.mem, inbox := s.inbox, replies := s.replies }

/-- `CTRL.SRST`: the arrays keep their contents (R302). -/
def State.softReset (s : State) : State := s.resetRegisters

/-- The reset input: the arrays' contents become unspecified anew (R301, R67). -/
def State.hardReset (s : State) : State :=
  { s.resetRegisters with mem := Memory.afterPowerOn (s.mem.powerOn + 1) }

end Sys2Proof.Machine
end

