-- ==== Sys2Proof/Machine/Bus.lean ====
section
/-! DEFINITION. The host's accesses (spec 20_memory.md, 10_state.md section 2): the address map, the register map with its
access types, reads, writes and bus errors. -/

namespace Sys2Proof.Machine

/-- The registers of the map of R32. -/
inductive Reg
  | id | version | param0 | param1 | ctrl | status | errCode | errCmd | irqStatus | irqEnable | cmd | satFlags
  | cfgLog2n | cfgChannels | cfgSampleRate | mode | pitchTarget | smoothShift | prngSeed
  | actLog2n | actChannels | actSampleRate | ha | ringCap | wssLo | wssHi | pitchCurrent
  | cycMode | cycRatio | hs | rlen | norm | prngState | inWr | inRd | inAcc | outWr | outRd
  | cycleCount | pushCount | popCount | cmdCount | markTag | buserrAddr
  deriving DecidableEq, Repr

/-- The register map summary of 10_state.md: the registers up to PRNG_SEED. -/
def regMapControl : List (Nat × Reg) :=
  [(0x000, .id), (0x004, .version), (0x008, .param0), (0x00C, .param1), (0x010, .ctrl), (0x014, .status),
   (0x018, .errCode), (0x01C, .errCmd), (0x020, .irqStatus), (0x024, .irqEnable), (0x028, .cmd), (0x02C, .satFlags),
   (0x030, .cfgLog2n), (0x034, .cfgChannels), (0x038, .cfgSampleRate), (0x03C, .mode), (0x040, .pitchTarget),
   (0x044, .smoothShift), (0x048, .prngSeed)]

/-- The register map summary of 10_state.md: the registers from ACT_LOG2N on. -/
def regMapActive : List (Nat × Reg) :=
  [(0x080, .actLog2n), (0x084, .actChannels), (0x088, .actSampleRate), (0x08C, .ha), (0x090, .ringCap),
   (0x094, .wssLo), (0x098, .wssHi), (0x09C, .pitchCurrent), (0x0A0, .cycMode), (0x0A4, .cycRatio), (0x0A8, .hs),
   (0x0AC, .rlen), (0x0B0, .norm), (0x0B4, .prngState), (0x0C0, .inWr), (0x0C4, .inRd), (0x0C8, .inAcc),
   (0x0CC, .outWr), (0x0D0, .outRd), (0x0E0, .cycleCount), (0x0E4, .pushCount), (0x0E8, .popCount),
   (0x0EC, .cmdCount), (0x0F0, .markTag), (0x0F4, .buserrAddr)]

/-- The register at a byte offset of the register block, if the map lists one there (R32). -/
def regAt (off : Nat) : Option Reg := (regMapControl ++ regMapActive).lookup off

/-- `PARAM0` (R34). -/
def Build.param0 (b : Build) : Word :=
  0#7 ++ (BitVec.ofNat 9 b.cmdqDepth ++ (BitVec.ofNat 8 b.chmax ++ BitVec.ofNat 8 b.log2nmax))

/-- `PARAM1` (R34). -/
def Build.param1 (b : Build) : Word := 0#16 ++ BitVec.ofNat 16 b.bmax

/-- What a host read of a register returns (R33 to R53, R68, R74). Reserved bits read 0 (R32). -/
def Reg.read (s : State) : Reg → Word
  | .id => 0x50564531#32
  | .version => 0x00010000#32
  | .param0 => Build.param0 s.build
  | .param1 => Build.param1 s.build
  | .ctrl => s.ctrlWord
  | .status => s.statusWord
  | .errCode => s.errCode.code.setWidth 32
  | .errCmd => s.errCmd
  | .irqStatus => s.irqStatus.setWidth 32
  | .irqEnable => s.irqEnable.setWidth 32
  | .cmd => 0#32
  | .satFlags => s.satFlags.setWidth 32
  | .cfgLog2n => s.cfgLog2n.setWidth 32
  | .cfgChannels => s.cfgChannels.setWidth 32
  | .cfgSampleRate => s.cfgSampleRate
  | .mode => s.mode.code.setWidth 32
  | .pitchTarget => s.pitchTarget
  | .smoothShift => s.smoothShift.setWidth 32
  | .prngSeed => s.prngSeed
  | .actLog2n => s.actLog2n.setWidth 32
  | .actChannels => s.actChannels.setWidth 32
  | .actSampleRate => s.actSampleRate
  | .ha => s.ha
  | .ringCap => s.ringCap
  | .wssLo => s.wss.extractLsb' 0 32
  | .wssHi => s.wss.extractLsb' 32 32
  | .pitchCurrent => s.pitchCurrent
  | .cycMode => s.cycMode.code.setWidth 32
  | .cycRatio => s.cycRatio
  | .hs => s.hs
  | .rlen => s.rlen
  | .norm => s.norm
  | .prngState => s.prngState
  | .inWr => s.inWr
  | .inRd => s.inRd
  | .inAcc => s.inAcc
  | .outWr => s.outWr
  | .outRd => s.outRd
  | .cycleCount => s.cycleCount
  | .pushCount => s.pushCount
  | .popCount => s.popCount
  | .cmdCount => s.cmdCount
  | .markTag => s.markTag.setWidth 32
  | .buserrAddr => s.buserrAddr.setWidth 32

/-- `CTRL.FLUSH`: CMDQ empties; the executing command is not affected (R35, R63). -/
def State.flush (s : State) : State := { s with cmdq := [] }

/-- A write of CTRL (R35): SRST alone if it is set; else FLUSH, RESUME and RECONF_REQ, in that order. -/
def State.writeCtrl (s : State) (v : Word) : State :=
  if v.getLsbD 3 then s.softReset
  else
    let s1 := if v.getLsbD 1 then s.flush else s
    let s2 := if v.getLsbD 2 then s1.resume else s1
    if v.getLsbD 0 then { s2 with pending := true } else s2

/-- The FIFO-overflow procedure of R254: the word is dropped and the engine halts. -/
def State.overflow (s : State) (w : Word) : State :=
  { s with
    ovf := true
    errCode := if s.halted then s.errCode else .fifoOverflow
    errCmd := if s.halted then s.errCmd else w
    halted := true
    irqStatus := s.irqStatus ||| irqErr }

/-- A write of CMD (R39): the word joins the tail of CMDQ, or overflows it. -/
def State.writeCmd (s : State) (w : Word) : State :=
  if s.cmdq.length < s.build.cmdqDepth then { s with cmdq := s.cmdq ++ [w] } else s.overflow w

/-- What PITCH_TARGET stores of a written value: clamped to [0.5, 2.0] (R40). -/
def clampRatio (v : Word) : Word := BitVec.ofNat 32 (min (max v.toNat 0x08000000) 0x20000000)

/-- The effect of a host write of a register (R32, R35 to R45): RO registers ignore it. -/
def Reg.write (s : State) (v : Word) : Reg → State
  | .ctrl => s.writeCtrl v
  | .irqStatus => { s with irqStatus := s.irqStatus &&& ~~~(v.setWidth 5) }
  | .irqEnable => { s with irqEnable := v.setWidth 5 }
  | .cmd => s.writeCmd v
  | .satFlags => { s with satFlags := s.satFlags &&& ~~~(v.setWidth 3) }
  | .cfgLog2n => { s with cfgLog2n := v.setWidth 4 }
  | .cfgChannels => { s with cfgChannels := v.setWidth 5 }
  | .cfgSampleRate => { s with cfgSampleRate := v }
  | .mode => { s with mode := (Mode.ofCode (v.setWidth 2)).getD s.mode }
  | .pitchTarget => { s with pitchTarget := clampRatio v }
  | .smoothShift => { s with smoothShift := v.setWidth 4 }
  | .prngSeed => { s with prngSeed := if v = 0#32 then s.prngSeed else v }
  | .id | .version | .param0 | .param1 | .status | .errCode | .errCmd | .actLog2n | .actChannels | .actSampleRate | .ha
  | .ringCap | .wssLo | .wssHi | .pitchCurrent | .cycMode | .cycRatio | .hs | .rlen | .norm | .prngState | .inWr | .inRd
  | .inAcc | .outWr | .outRd | .cycleCount | .pushCount | .popCount | .cmdCount | .markTag | .buserrAddr => s

/-- What a window offset names (R72, R73). -/
inductive Target
  /-- A register of the map. -/
  | reg (r : Reg)
  /-- An unlisted word of the register block: reads 0, ignores writes (R32). -/
  | unlisted
  /-- A word of the twiddle ROM: TWR[j] or TWI[j] (R54). -/
  | twr (j : Nat)
  | twi (j : Nat)
  /-- An array element. -/
  | elem (e : Elem)
  deriving DecidableEq, Repr

/-- Word `w` of array region `r`: what it maps to, if anything can (R73). -/
def regionTarget (r w : Nat) : Option Target :=
  match r with
  | 1 => some (if w % 2 = 0 then .twr (w / 2) else .twi (w / 2))
  | 2 => some (.elem (.win w))
  | 3 => some (.elem (.omega w))
  | 4 => some (.elem (.phprev (w / 2 ^ 15) (w % 2 ^ 15)))
  | 5 => some (.elem (.synph (w / 2 ^ 15) (w % 2 ^ 15)))
  | 6 => some (.elem (.mag (w / 2 ^ 15) (w % 2 ^ 15)))
  | 7 => some (.elem (if w % 2 = 0 then .scrRe (w / 2) else .scrIm (w / 2)))
  | 8 => some (.elem (.rs w))
  | 9 => some (.elem (.inring (w / 2 ^ 17) (w % 2 ^ 17)))
  | 10 => some (.elem (.outring (w / 2 ^ 17) (w % 2 ^ 17)))
  | 11 => some (.elem (.iobuf (w / 2 ^ 16) (w % 2 ^ 16)))
  | _ => none

/-- The target exists in this build (R73, column "populated when"). -/
def Target.populated (b : Build) : Target → Bool
  | .reg _ => true
  | .unlisted => true
  | .twr j => decide (j < b.nmax / 2)
  | .twi j => decide (j < b.nmax / 2)
  | .elem e => e.populated b

/-- The populated target at a byte offset of the window (R72, R73): region 0 holds the register block below 0x400,
regions 1 to 11 the arrays; everything else is unpopulated. -/
def targetAt (b : Build) (off : Nat) : Option Target :=
  if off < 2 ^ 24 then
    if off < 0x400 then some (match regAt off with | some r => .reg r | none => .unlisted) else none
  else
    match regionTarget (off / 2 ^ 24) (off % 2 ^ 24 / 4) with
    | some t => if t.populated b then some t else none
    | none => none

/-- The host may only read this target: the twiddle ROM, WIN and OMEGA (R73, R76). -/
def Target.readOnlyArray : Target → Bool
  | .reg _ => false
  | .unlisted => false
  | .twr _ => true
  | .twi _ => true
  | .elem e =>
    match e with
    | .win _ | .omega _ => true
    | .phprev _ _ | .synph _ _ | .mag _ _ | .scrRe _ | .scrIm _ | .rs _ | .inring _ _ | .outring _ _ | .iobuf _ _ => false

/-- An offset lies in an array region, 1 to 11 (R73, R76). -/
def inArrayRegion (off : Nat) : Bool := decide (2 ^ 24 ≤ off) && decide (off < 12 * 2 ^ 24)

/-- The target a host access reaches, or `none` where it is a bus error (R76). -/
def State.reach (s : State) (addr size : Nat) (isWrite : Bool) : Option Target :=
  let off := addr - s.build.base
  if size ≠ 4 ∨ addr % 4 ≠ 0 then none
  else if inArrayRegion off && s.busy then none
  else
    match targetAt s.build off with
    | some t => if isWrite && t.readOnlyArray then none else some t
    | none => none

/-- What a read of a target returns (R32, R54, R74). -/
def Target.read (s : State) : Target → Word
  | .reg r => r.read s
  | .unlisted => 0#32
  | .twr j => BitVec.ofInt 32 (twiddleRe s.build j)
  | .twi j => BitVec.ofInt 32 (twiddleIm s.build j)
  | .elem e => s.mem.get e

/-- The effect of a write of a target (R32, R75). -/
def Target.write (s : State) (v : Word) : Target → State
  | .reg r => r.write s v
  | .unlisted => s
  | .twr _ => s
  | .twi _ => s
  | .elem e => s.setMem (s.mem.put e v)

/-- The bus-error procedure of R255: BUSERR is raised, the offset recorded, and nothing else changes. -/
def State.busError (s : State) (addr : Nat) : State :=
  { s.raiseIrq irqBuserr with buserrAddr := BitVec.ofNat 28 (addr - s.build.base) }

/-- The address lies in the PVE's window (R70). -/
def State.inWindow (s : State) (addr : Nat) : Bool :=
  decide (s.build.base ≤ addr) && decide (addr < s.build.base + 2 ^ 28)

/-- A read returns a value to the host (R312). -/
def State.reply (s : State) (v : Word) : State := { s with replies := s.replies ++ [v] }

/-- A host read (R71, R74, R76, R255): a bus-error read returns 0. -/
def hostRead (addr size : Nat) (s : State) : Host.Outcome State Fault Refusal :=
  if s.inWindow addr then
    match s.reach addr size false with
    | some t => .next (s.reply (t.read s))
    | none => .next ((s.busError addr).reply 0#32)
  else .fault (.hostOutsideWindow addr)

/-- A host write (R71, R75, R76, R255): a bus-error write changes nothing. -/
def hostWrite (addr size : Nat) (v : Word) (s : State) : Host.Outcome State Fault Refusal :=
  if s.inWindow addr then
    match s.reach addr size true with
    | some t => .next (t.write s v)
    | none => .next (s.busError addr)
  else .fault (.hostOutsideWindow addr)

end Sys2Proof.Machine
end

