-- ==== Sys2Proof/Machine/Operands.lean ====
section
/-! DEFINITION. Every operand and state check of the commands (R105, R251), the order in which a command reports them, and
the two shapes of a command's first engine step (R220): a command of one leaf, and a composite. -/

namespace Sys2Proof.Machine

/-- A check: whether it fails, and the error it then raises. -/
abbrev Check := Bool × ErrCode

/-- NOT_CONFIGURED when CONFIGURED = 0 (R250, R251 step 3). -/
def State.needConfigured (s : State) : Check := (!s.configured, .notConfigured)

/-- CH < ACT_CHANNELS, else BAD_CHANNEL (R105). -/
def State.needChannel (s : State) (ch : Nat) : Check := (decide (s.ch ≤ ch), .badChannel)

/-- K <= N/2, else BAD_BIN (R105). -/
def State.needBin (s : State) (k : Nat) : Check := (decide (s.n / 2 < k), .badBin)

/-- 1 <= S <= ACT_LOG2N, else BAD_STAGE (R105). -/
def State.needStage (s : State) (st : Nat) : Check := (decide (st = 0) || decide (s.actLog2n.toNat < st), .badStage)

/-- P < N with P[S-1] = 0, else BAD_INDEX (R105, R183). -/
def State.needUpperIndex (s : State) (st p : Nat) : Check := (decide (s.n ≤ p) || p.testBit (st - 1), .badIndex)

/-- I < BMAX, else BAD_INDEX (R105). -/
def State.needIoIndex (s : State) (i : Nat) : Check := (decide (s.build.bmax ≤ i), .badIndex)

/-- LEN <= BMAX, else BAD_INDEX (R105). -/
def State.needBlockLength (s : State) (len : Nat) : Check := (decide (s.build.bmax < len), .badIndex)

/-- ACC >= HA, else ACC_UNDERFLOW (R158, R231). -/
def State.needHop (s : State) : Check := (decide (s.inAcc.toNat < s.hop), .accUnderflow)

/-- ACC < ACCMAX, else IN_OVERRUN (R142, R143). -/
def State.needRoom (s : State) : Check := (decide (s.accMax ≤ s.inAcc.toNat), .inOverrun)

/-- The first check of a sequence that fails: "A command reports the first error of this sequence" (R251). -/
def firstError : List Check → Option ErrCode
  | [] => none
  | (true, e) :: _ => some e
  | (false, _) :: rest => firstError rest

/-- A command made of one leaf: one engine step checks, performs its effect and completes (R220, R221). -/
def leafCommand (i : Instr) (checks : List Check) (effect : State → State) (s : State) :
    Host.Outcome State Fault Refusal :=
  match firstError checks with
  | some e => .next (s.raiseError e (encode i))
  | none => .next (effect s).complete

/-- A composite command: its first engine step checks, and leaves it executing at its first leaf (R220). -/
def compositeCommand (i : Instr) (checks : List Check) (first : Progress) (s : State) :
    Host.Outcome State Fault Refusal :=
  match firstError checks with
  | some e => .next (s.raiseError e (encode i))
  | none => .next (s.start (encode i) first)

end Sys2Proof.Machine
end

