-- ==== Sys2Proof/Machine/Fft.lean ====
section
/-! DEFINITION. FFT butterfly and twiddle engine (spec 42_fft.md): BITREV, BFLY, FFT_STAGE, FFT, HERMIT. -/

namespace Sys2Proof.Machine

/-- Exchanges two scratch elements, both parts (R181). -/
def Memory.swapScr (m : Memory) (j k : Nat) : Memory :=
  (((m.put (.scrRe j) (m.get (.scrRe k))).put (.scrIm j) (m.get (.scrIm k))).put (.scrRe k) (m.get (.scrRe j))).put
    (.scrIm k) (m.get (.scrIm j))

/-- BITREV's effect (R181): the bit-reversal permutation of SCR[0..N-1]. -/
def bitrevEffect (s : State) : State :=
  s.setMem (forRange s.n (fun k m =>
    if k < reverseBits s.actLog2n.toNat k then m.swapScr k (reverseBits s.actLog2n.toNat k) else m) s.mem)

/-- `BITREV` (R181). -/
def execBitrev (s : State) : Host.Outcome State Fault Refusal :=
  leafCommand .bitrev [s.needConfigured] bitrevEffect s

/-- `half = 2^(S-1)` (R182). -/
def halfSpan (st : Nat) : Nat := 2 ^ (st - 1)

/-- The ROM index of a butterfly's twiddle: `(p mod half) * 2^(LOG2NMAX - S)` (R182). -/
def twiddleIndex (b : Build) (st p : Nat) : Nat := p % halfSpan st * 2 ^ (b.log2nmax - st)

/-- The real part of a butterfly's twiddle (R182). -/
def bflyWr (b : Build) (st p : Nat) : Int := twiddleRe b (twiddleIndex b st p)

/-- The imaginary part of a butterfly's twiddle: the inverse direction conjugates (R182). -/
def bflyWi (b : Build) (dir : Dir) (st p : Nat) : Int :=
  match dir with
  | .forward => twiddleIm b (twiddleIndex b st p)
  | .inverse => -twiddleIm b (twiddleIndex b st p)

/-- `tr = rshr(br*wr - bi*wi, 30)` (R183). -/
def bflyTr (b : Build) (dir : Dir) (st p : Nat) (m : Memory) : Int :=
  rshr (m.getInt (.scrRe (p + halfSpan st)) * bflyWr b st p - m.getInt (.scrIm (p + halfSpan st)) * bflyWi b dir st p) 30

/-- `ti = rshr(br*wi + bi*wr, 30)` (R183). -/
def bflyTi (b : Build) (dir : Dir) (st p : Nat) (m : Memory) : Int :=
  rshr (m.getInt (.scrRe (p + halfSpan st)) * bflyWi b dir st p + m.getInt (.scrIm (p + halfSpan st)) * bflyWr b st p) 30

/-- The scaling of a butterfly output: forward halves, inverse does not (R183, R184). -/
def bflyScale (dir : Dir) (x : Int) : Int :=
  match dir with
  | .forward => rshr x 1
  | .inverse => x

/-- The four outputs of a butterfly before `sat32`: the parts of SCR[p], then of SCR[q] (R183). -/
def bflyOutputs (b : Build) (dir : Dir) (st p : Nat) (m : Memory) : Int × Int × Int × Int :=
  (bflyScale dir (m.getInt (.scrRe p) + bflyTr b dir st p m), bflyScale dir (m.getInt (.scrIm p) + bflyTi b dir st p m),
    bflyScale dir (m.getInt (.scrRe p) - bflyTr b dir st p m), bflyScale dir (m.getInt (.scrIm p) - bflyTi b dir st p m))

/-- BFLY's effect (R183): one radix-2 butterfly; SAT_FFT is set if any of the four results clips. -/
def bflyEffect (dir : Dir) (st p : Nat) (s : State) : State :=
  let o := bflyOutputs s.build dir st p s.mem
  let q := p + halfSpan st
  (s.setMem ((((s.mem.putInt (.scrRe p) (sat32 o.1)).putInt (.scrIm p) (sat32 o.2.1)).putInt (.scrRe q)
    (sat32 o.2.2.1)).putInt (.scrIm q) (sat32 o.2.2.2))).flagSat satFft
    (clips o.1 || clips o.2.1 || clips o.2.2.1 || clips o.2.2.2)

/-- `BFLY.F S, P` and `BFLY.I S, P` (R183). -/
def execBfly (dir : Dir) (st p : Nat) (s : State) : Host.Outcome State Fault Refusal :=
  leafCommand (.bfly dir st p) [s.needConfigured, s.needStage st, s.needUpperIndex st p] (bflyEffect dir st p) s

/-- `FFT_STAGE.F S` and `FFT_STAGE.I S` (R185): its leaves are the butterflies of one stage. -/
def execFftStage (dir : Dir) (st : Nat) (s : State) : Host.Outcome State Fault Refusal :=
  compositeCommand (.fftStage dir st) [s.needConfigured, s.needStage st] (.stage dir st 0) s

/-- `FFT.F` and `FFT.I` (R186): its leaves are BITREV and the butterflies of every stage. -/
def execFft (dir : Dir) (s : State) : Host.Outcome State Fault Refusal :=
  compositeCommand (.fft dir) [s.needConfigured] (.fft dir .bitrev) s

/-- The loop of R188 over the arrays, with whether any negation has clipped. -/
def hermitLoop (s : State) : Memory × Bool :=
  forRange (s.n / 2 - 1) (fun j r =>
    ((r.1.put (.scrRe (s.n - (j + 1))) (r.1.get (.scrRe (j + 1)))).putInt (.scrIm (s.n - (j + 1)))
      (sat32 (-r.1.getInt (.scrIm (j + 1)))), r.2 || clips (-r.1.getInt (.scrIm (j + 1))))) (s.mem, false)

/-- HERMIT's effect (R188): bins N/2+1 to N-1 become the conjugates of bins N/2-1 to 1. -/
def hermitEffect (s : State) : State :=
  (s.setMem (hermitLoop s).1).flagSat satFft (hermitLoop s).2

/-- `HERMIT` (R188). -/
def execHermit (s : State) : Host.Outcome State Fault Refusal :=
  leafCommand .hermit [s.needConfigured] hermitEffect s

end Sys2Proof.Machine
end

