-- ==== Sys2Proof/Machine/Phase.lean ====
section
/-! DEFINITION. Phase accumulator and unwrap unit (spec 41_phase.md): PV_BIN and PV_ALL. -/

namespace Sys2Proof.Machine

/-- Step 1: the measured magnitude of bin `k` (R161). -/
def binMagnitude (k : Nat) (m : Memory) : Nat :=
  rsqrt (m.getInt (.scrRe k) * m.getInt (.scrRe k) + m.getInt (.scrIm k) * m.getInt (.scrIm k)).toNat

/-- Step 1: the measured phase of bin `k` (R161). -/
def binPhase (k : Nat) (m : Memory) : Int := atan2b (m.getInt (.scrIm k)) (m.getInt (.scrRe k))

/-- Steps 2 and 3: the phase deviation, `wrap32(phi - PHPREV - k * 2^30)` (R162 to R164). -/
def binDeviation (ch k : Nat) (m : Memory) : Int :=
  wrap32 (binPhase k m - m.getInt (.phprev ch k) - (k : Int) * 2 ^ 30)

/-- Step 4: the true phase increment, unbounded (R165). -/
def binIncrement (ch k : Nat) (m : Memory) : Int := (k : Int) * 2 ^ 30 + binDeviation ch k m

/-- `PRNG_STATE` after the bin: only Whisperize draws (R166, R168). -/
def binDraw (s : State) : Word :=
  match s.cycMode with
  | .pitchShift => s.prngState
  | .robotize => s.prngState
  | .whisperize => xorshift32 s.prngState

/-- Step 5: the new synthesis phase, by the latched mode (R166, R169). -/
def binSynthesis (ch k : Nat) (s : State) : Int :=
  match s.cycMode with
  | .pitchShift =>
    wrap32 (s.mem.getInt (.synph ch k) + rshr (binIncrement ch k s.mem * (s.cycRatio.toNat : Int)) 28)
  | .robotize => 0
  | .whisperize => (xorshift32 s.prngState).toInt

/-- The real part of the resynthesised bin, before `sat32` (R167). -/
def binRe (ch k : Nat) (s : State) : Int := mcos (binMagnitude k s.mem) (binSynthesis ch k s)

/-- The imaginary part of the resynthesised bin, before `sat32` (R167). -/
def binIm (ch k : Nat) (s : State) : Int := msin (binMagnitude k s.mem) (binSynthesis ch k s)

/-- PV_BIN's effect (R166): steps 1 to 7 on one bin. DC and Nyquist are forced real after `sat32` is evaluated. -/
def pvBinEffect (ch k : Nat) (s : State) : State :=
  { s with
    prngState := binDraw s
    mem := ((((s.mem.putInt (.synph ch k) (binSynthesis ch k s)).putInt (.scrRe k) (sat32 (binRe ch k s))).putInt (.scrIm k)
      (if k = 0 ∨ k = s.n / 2 then 0 else sat32 (binIm ch k s))).putInt (.phprev ch k) (binPhase k s.mem)).put (.mag ch k)
      (BitVec.ofNat 32 (binMagnitude k s.mem))
    satFlags := (s.flagSat satPv (clips (binRe ch k s) || clips (binIm ch k s))).satFlags }

/-- `PV_BIN CH, K` (R166). -/
def execPvBin (ch k : Nat) (s : State) : Host.Outcome State Fault Refusal :=
  leafCommand (.pvBin ch k) [s.needConfigured, s.needChannel ch, s.needBin k] (pvBinEffect ch k) s

/-- `PV_ALL CH` (R170): its leaves are PV_BIN for bins 0 to N/2. -/
def execPvAll (ch : Nat) (s : State) : Host.Outcome State Fault Refusal :=
  compositeCommand (.pvAll ch) [s.needConfigured, s.needChannel ch] (.pvAll ch 0) s

end Sys2Proof.Machine
end

