-- ==== Sys2Proof/Machine/Resample.lean ====
section
/-! DEFINITION. Synthesis window and polyphase resampler (spec 43_resample.md): WINDOW and RESAMPLE. -/

namespace Sys2Proof.Machine

/-- WINDOW's effect (R201): the real part is windowed, the imaginary part discarded. -/
def windowEffect (s : State) : State :=
  s.setMem (forRange s.n (fun n m =>
    (m.putInt (.scrRe n) (rshr (m.getInt (.scrRe n) * ((m.get (.win n)).toNat : Int)) 24)).putInt (.scrIm n) 0) s.mem)

/-- `WINDOW` (R201). -/
def execWindow (s : State) : Host.Outcome State Fault Refusal :=
  leafCommand .window [s.needConfigured] windowEffect s

/-- The UQ.28 input position of output sample `i` (R203). -/
def resamplePos (s : State) (i : Nat) : Nat := i * s.cycRatio.toNat

/-- The value of output sample `i` (R203): linear interpolation by the 28-bit fractional phase. -/
def resampleValue (s : State) (i : Nat) (m : Memory) : Int :=
  let idx := resamplePos s i / 2 ^ 28
  let fr : Int := ((resamplePos s i % 2 ^ 28 : Nat) : Int)
  rshr (m.getInt (.scrRe idx) * (2 ^ 28 - fr) + m.getInt (.scrRe ((idx + 1) % s.n)) * fr) 28

/-- RESAMPLE's effect (R203): RS[0..RLEN-1] from the real parts of SCR. -/
def resampleEffect (s : State) : State :=
  s.setMem (forRange s.rlen.toNat (fun i m => m.putInt (.rs i) (resampleValue s i m)) s.mem)

/-- `RESAMPLE` (R203). -/
def execResample (s : State) : Host.Outcome State Fault Refusal :=
  leafCommand .resample [s.needConfigured] resampleEffect s

end Sys2Proof.Machine
end

