-- ==== Sys2Proof/Machine/Ring.lean ====
section
/-! DEFINITION. Ring-buffer address generator and overlap-add accumulator (spec 40_ring_ola.md): PUSH, POP, LOADFRAME,
OLA, CYCLE_END. Each `…Effect` is the command's leaf operation without its checks. -/

namespace Sys2Proof.Machine

/-- PUSH's effect (R142): one input sample per active channel is appended to the input ring. -/
def pushEffect (i : Nat) (s : State) : State :=
  { s with
    mem := forRange s.ch (fun c m => m.put (.inring c s.inWr.toNat) (m.get (.iobuf c i))) s.mem
    inWr := s.advance s.inWr 1
    inAcc := s.inAcc + 1#32
    pushCount := s.pushCount + 1#32 }

/-- `PUSH I` (R142). -/
def execPush (i : Nat) (s : State) : Host.Outcome State Fault Refusal :=
  leafCommand (.push i) [s.needConfigured, s.needIoIndex i, s.needRoom] (pushEffect i) s

/-- POP's effect (R145): one output sample per active channel is delivered and its slot cleared. -/
def popEffect (i : Nat) (s : State) : State :=
  { s with
    mem := forRange s.ch (fun c m =>
      (m.put (.iobuf c i) (m.get (.outring c s.outRd.toNat))).put (.outring c s.outRd.toNat) 0#32) s.mem
    outRd := s.advance s.outRd 1
    popCount := s.popCount + 1#32 }

/-- `POP I` (R145). -/
def execPop (i : Nat) (s : State) : Host.Outcome State Fault Refusal :=
  leafCommand (.pop i) [s.needConfigured, s.needIoIndex i] (popEffect i) s

/-- One frame sample of LOADFRAME (R152): the ring word `n` of the frame, windowed. -/
def frameSample (s : State) (ch n : Nat) (m : Memory) : Int :=
  rshr (m.getInt (.inring ch (s.frameAddr s.inRd n)) * ((m.get (.win n)).toNat : Int)) 24

/-- LOADFRAME's effect (R152): the windowed frame fills the scratch array, imaginary parts 0. -/
def loadframeEffect (ch : Nat) (s : State) : State :=
  s.setMem (forRange s.n (fun n m => (m.putInt (.scrRe n) (frameSample s ch n m)).putInt (.scrIm n) 0) s.mem)

/-- `LOADFRAME CH` (R152). -/
def execLoadframe (ch : Nat) (s : State) : Host.Outcome State Fault Refusal :=
  leafCommand (.loadframe ch) [s.needConfigured, s.needChannel ch] (loadframeEffect ch) s

/-- The length `L` of the synthesised frame: RLEN in PitchShift, N otherwise (R156). -/
def olaLength (s : State) : Nat :=
  match s.cycMode with
  | .pitchShift => s.rlen.toNat
  | .robotize => s.n
  | .whisperize => s.n

/-- `src(i)`: RS in PitchShift, the real part of SCR otherwise (R156). -/
def olaSource (s : State) (i : Nat) : Elem :=
  match s.cycMode with
  | .pitchShift => .rs i
  | .robotize => .scrRe i
  | .whisperize => .scrRe i

/-- The output ring slot that frame sample `i` of channel `ch` is added into (R155). -/
def olaTarget (s : State) (ch i : Nat) : Elem := .outring ch (s.frameAddr s.outWr i)

/-- The sum of R156 before `sat32`. -/
def olaSum (s : State) (ch i : Nat) (m : Memory) : Int :=
  m.getInt (olaTarget s ch i) + rshr (m.getInt (olaSource s i) * (s.norm.toNat : Int)) 30

/-- The loop of R156 over the arrays, with whether any sum has clipped. -/
def olaLoop (s : State) (ch : Nat) : Memory × Bool :=
  forRange (olaLength s) (fun i r =>
    (r.1.putInt (olaTarget s ch i) (sat32 (olaSum s ch i r.1)), r.2 || clips (olaSum s ch i r.1))) (s.mem, false)

/-- OLA's effect (R156): the frame is added into the output ring; SAT_OLA is set if a sum clips. -/
def olaEffect (ch : Nat) (s : State) : State :=
  (s.setMem (olaLoop s ch).1).flagSat satOla (olaLoop s ch).2

/-- `OLA CH` (R156). -/
def execOla (ch : Nat) (s : State) : Host.Outcome State Fault Refusal :=
  leafCommand (.ola ch) [s.needConfigured, s.needChannel ch] (olaEffect ch) s

/-- CYCLE_END's effect (R158): the input read and output write cursors advance by one hop. -/
def cycleEndEffect (s : State) : State :=
  { s with
    inRd := s.advance s.inRd s.hop
    outWr := s.advance s.outWr s.hop
    inAcc := BitVec.ofNat 32 (s.inAcc.toNat - s.hop)
    cycleCount := s.cycleCount + 1#32 }

/-- `CYCLE_END` (R158). -/
def execCycleEnd (s : State) : Host.Outcome State Fault Refusal :=
  leafCommand .cycleEnd [s.needConfigured, s.needHop] cycleEndEffect s

end Sys2Proof.Machine
end

