-- ==== Sys2Proof/Machine/Sequencer.lean ====
section
/-! DEFINITION. Command sequencer (spec 44_sequencer.md): NOP, MARK, CONFIGURE, PROCESS, CYCLE, CYCLE_BEGIN. -/

namespace Sys2Proof.Machine

/-- `NOP` (R222). -/
def execNop (s : State) : Host.Outcome State Fault Refusal := leafCommand .nop [] id s

/-- MARK's effect (R223): the tag is recorded and the MARK interrupt raised. -/
def markEffect (tag : Nat) (s : State) : State := { s.raiseIrq irqMark with markTag := BitVec.ofNat 16 tag }

/-- `MARK TAG` (R223). -/
def execMark (tag : Nat) (s : State) : Host.Outcome State Fault Refusal := leafCommand (.mark tag) [] (markEffect tag) s

/-- `CONFIGURE` (R225): the reconfiguration procedure of R224, whether or not PENDING = 1. -/
def execConfigure (s : State) : Host.Outcome State Fault Refusal :=
  if s.configValid then .next s.reconfigured.complete
  else .next (s.reconfigureFailed.raiseError .configInvalid (encode .configure))

/-- PROCESS after its deferred reconfiguration (R234): the remaining checks, then the first sample's PUSH; a block of no
samples completes at once (R220). -/
def processStart (len : Nat) (s : State) : Host.Outcome State Fault Refusal :=
  if len = 0 then leafCommand (.process len) [s.needConfigured, s.needRoom] id s
  else compositeCommand (.process len) [s.needConfigured, s.needRoom] (.process len 0 .push) s

/-- `PROCESS LEN` (R234), its first step: BAD_INDEX, then the pending reconfiguration (R233), then the rest. A
reconfiguration performed here stays even if a later check fails (R252). -/
def execProcess (len : Nat) (s : State) : Host.Outcome State Fault Refusal :=
  if (s.needBlockLength len).1 then .next (s.raiseError .badIndex (encode (.process len)))
  else if s.pending then
    if s.configValid then processStart len s.reconfigured
    else .next (s.reconfigureFailed.raiseError .configInvalid (encode (.process len)))
  else processStart len s

/-- `CYCLE` (R231): its leaves are the cycle body of R230. -/
def execCycle (s : State) : Host.Outcome State Fault Refusal :=
  compositeCommand .cycle [s.needConfigured, s.needHop] (.cycle .start) s

/-- CYCLE_BEGIN's effect (R228): the smoother's step (R226), then the latching of R227. -/
def cycleBeginEffect (s : State) : State :=
  { s with
    pitchCurrent :=
      BitVec.ofInt 32 (smoothRatio s.pitchTarget.toNat s.pitchCurrent.toNat s.smoothShift.toNat) }.latch

/-- `CYCLE_BEGIN` (R228). -/
def execCycleBegin (s : State) : Host.Outcome State Fault Refusal :=
  leafCommand .cycleBegin [s.needConfigured] cycleBeginEffect s

end Sys2Proof.Machine
end

