-- ==== Sys2Proof/Machine/Dispatch.lean ====
section
/-! DEFINITION. One arm per command: the meaning of a command is its FIRST engine step, on the state from which its word
has been removed (R220, R221). -/

namespace Sys2Proof.Machine

def exec (i : Instr) (s : State) : Host.Outcome State Fault Refusal :=
  match i with
  | .nop => Sys2Proof.Machine.execNop s
  | .mark tag => Sys2Proof.Machine.execMark tag s
  | .configure => Sys2Proof.Machine.execConfigure s
  | .process len => Sys2Proof.Machine.execProcess len s
  | .cycle => Sys2Proof.Machine.execCycle s
  | .cycleBegin => Sys2Proof.Machine.execCycleBegin s
  | .cycleEnd => Sys2Proof.Machine.execCycleEnd s
  | .push i' => Sys2Proof.Machine.execPush i' s
  | .pop i' => Sys2Proof.Machine.execPop i' s
  | .loadframe ch => Sys2Proof.Machine.execLoadframe ch s
  | .ola ch => Sys2Proof.Machine.execOla ch s
  | .pvBin ch k => Sys2Proof.Machine.execPvBin ch k s
  | .pvAll ch => Sys2Proof.Machine.execPvAll ch s
  | .bitrev => Sys2Proof.Machine.execBitrev s
  | .bfly dir st p => Sys2Proof.Machine.execBfly dir st p s
  | .fftStage dir st => Sys2Proof.Machine.execFftStage dir st s
  | .fft dir => Sys2Proof.Machine.execFft dir s
  | .hermit => Sys2Proof.Machine.execHermit s
  | .window => Sys2Proof.Machine.execWindow s
  | .resample => Sys2Proof.Machine.execResample s

end Sys2Proof.Machine
end

