-- ==== Sys2Proof/Machine/Engine.lean ====
section
/-! DEFINITION. The engine's own steps (spec 44_sequencer.md R220, R221, R230, R234): which leaf an executing command runs
next, and the start of a queued command. -/

namespace Sys2Proof.Machine

/-- The leaf operations of R220 that composite commands run. -/
inductive Leaf
  | push (i : Nat)
  | pop (i : Nat)
  | cycleBegin
  | cycleEnd
  | loadframe (ch : Nat)
  | ola (ch : Nat)
  | pvBin (ch k : Nat)
  | bitrev
  | bfly (dir : Dir) (st p : Nat)
  | hermit
  | window
  | resample
  deriving DecidableEq, Repr

/-- A leaf's effect, without its command's checks (R170, R185, R231, R234). -/
def Leaf.run : Leaf → State → State
  | .push i => pushEffect i
  | .pop i => popEffect i
  | .cycleBegin => cycleBeginEffect
  | .cycleEnd => cycleEndEffect
  | .loadframe ch => loadframeEffect ch
  | .ola ch => olaEffect ch
  | .pvBin ch k => pvBinEffect ch k
  | .bitrev => bitrevEffect
  | .bfly dir st p => bflyEffect dir st p
  | .hermit => hermitEffect
  | .window => windowEffect
  | .resample => resampleEffect

/-- The leaf a transform of direction `dir` runs next (R186). -/
def FftAt.leaf (dir : Dir) : FftAt → Leaf
  | .bitrev => .bitrev
  | .bfly st p => .bfly dir st p

/-- The leaf a cycle runs next (R230). -/
def CycleAt.leaf : CycleAt → Leaf
  | .start => .cycleBegin
  | .load c => .loadframe c
  | .forward _ f => f.leaf .forward
  | .bin c k => .pvBin c k
  | .hermit _ => .hermit
  | .inverse _ f => f.leaf .inverse
  | .window _ => .window
  | .resample _ => .resample
  | .ola c => .ola c
  | .finish => .cycleEnd

/-- The leaf an executing command runs next. -/
def Progress.leaf : Progress → Leaf
  | .process _ i .push => .push i
  | .process _ _ (.inCycle a) => a.leaf
  | .process _ i .pop => .pop i
  | .cycle a => a.leaf
  | .fft dir f => f.leaf dir
  | .stage dir st p => .bfly dir st p
  | .pvAll c k => .pvBin c k

/-- The butterfly after `p` in stage `st`, in increasing order: the next index below N whose bit S-1 is 0 (R185). -/
def State.nextUpper (s : State) (st p : Nat) : Option Nat :=
  let p' := if (p + 1).testBit (st - 1) then p + 1 + halfSpan st else p + 1
  if p' < s.n then some p' else none

/-- Where a transform goes after a leaf; `none` at its end (R186). -/
def FftAt.next (s : State) : FftAt → Option FftAt
  | .bitrev => if 1 ≤ s.actLog2n.toNat then some (.bfly 1 0) else none
  | .bfly st p =>
    match s.nextUpper st p with
    | some p' => some (.bfly st p')
    | none => if st < s.actLog2n.toNat then some (.bfly (st + 1) 0) else none

/-- The channel loop of R230: channel `c`, or the end of the cycle. -/
def CycleAt.channel (s : State) (c : Nat) : CycleAt := if c < s.ch then .load c else .finish

/-- Where a cycle goes after a leaf; `none` at its end (R230). -/
def CycleAt.next (s : State) : CycleAt → Option CycleAt
  | .start => some (CycleAt.channel s 0)
  | .load c => some (.forward c .bitrev)
  | .forward c f =>
    match f.next s with
    | some f' => some (.forward c f')
    | none => some (.bin c 0)
  | .bin c k => if k < s.n / 2 then some (.bin c (k + 1)) else some (.hermit c)
  | .hermit c => some (.inverse c .bitrev)
  | .inverse c f =>
    match f.next s with
    | some f' => some (.inverse c f')
    | none => some (.window c)
  | .window c =>
    match s.cycMode with
    | .pitchShift => some (.resample c)
    | .robotize => some (.ola c)
    | .whisperize => some (.ola c)
  | .resample c => some (.ola c)
  | .ola c => some (CycleAt.channel s (c + 1))
  | .finish => none

/-- The test of R234's inner loop, `while ACC >= HA: CYCLE`, then POP. -/
def SampleAt.afterPush (s : State) : SampleAt := if s.hop ≤ s.inAcc.toNat then .inCycle .start else .pop

/-- Where an executing command goes after a leaf; `none` when that leaf was its last (R220). -/
def Progress.next (s : State) : Progress → Option Progress
  | .process len i .push => some (.process len i (SampleAt.afterPush s))
  | .process len i (.inCycle a) =>
    match a.next s with
    | some a' => some (.process len i (.inCycle a'))
    | none => some (.process len i (SampleAt.afterPush s))
  | .process len i .pop => if i + 1 < len then some (.process len (i + 1) .push) else none
  | .cycle a => (a.next s).map .cycle
  | .fft dir f => (f.next s).map (.fft dir)
  | .stage dir st p => (s.nextUpper st p).map (.stage dir st)
  | .pvAll c k => if k < s.n / 2 then some (.pvAll c (k + 1)) else none

/-- One engine step of an executing command: its next leaf, and its completion with the last one (R220, R221). -/
def continueCommand (r : Running) (s : State) : State :=
  match r.progress.next (r.progress.leaf.run s) with
  | some p => (r.progress.leaf.run s).start r.word p
  | none => (r.progress.leaf.run s).complete

/-- The error a word raises in decoding (R104). -/
def DecodeError.errCode : DecodeError → ErrCode
  | .illegalOpcode => .illegalOpcode
  | .reservedField => .reservedField

/-- The start of a command (R221): its word has left CMDQ; decode it, then run its first engine step. -/
def startCommand (w : Word) (s : State) : Host.Outcome State Fault Refusal :=
  match decode w with
  | .error e => .next (s.raiseError (DecodeError.errCode e) w)
  | .ok i => exec i s

/-- One engine step (R220, R221): the executing command's next leaf, or the start of the head of CMDQ, or nothing when
the engine is halted or CMDQ is empty. -/
def engineStep (s : State) : Host.Outcome State Fault Refusal :=
  match s.running with
  | some r => .next (continueCommand r s)
  | none =>
    if s.halted then .next s
    else
      match s.cmdq with
      | [] => .next s
      | w :: rest => startCommand w { s with cmdq := rest }

end Sys2Proof.Machine
end

