-- ==== Sys2Proof/Machine/Step.lean ====
section
/-! DEFINITION. One step of the machine: the next event of the total order of host accesses and engine steps (R80). With
no event left to come, the engine steps. -/

namespace Sys2Proof.Machine

/-- What one event does to the state from which it has been taken. -/
def runEvent (e : HostEvent) (s : State) : Host.Outcome State Fault Refusal :=
  match e with
  | .engine => engineStep s
  | .read addr size => hostRead addr size s
  | .write addr size v => hostWrite addr size v s
  | .hardReset => .next s.hardReset

/-- One step (R80): each event takes effect whole, before or after an engine step, never inside one. -/
def step (s : State) : Host.Outcome State Fault Refusal :=
  match s.inbox with
  | [] => engineStep s
  | e :: rest => runEvent e { s with inbox := rest }

/-- `s` with the command word `w` at the head of CMDQ and an engine free to start it: no command executing, not halted,
no outside event before it (log entry 5). -/
def State.withFetchWord (s : State) (nbits w : Nat) : State :=
  { s with cmdq := BitVec.ofNat 32 (w % 2 ^ nbits) :: s.cmdq.tail, running := none, halted := false, inbox := [] }

end Sys2Proof.Machine
end

