-- ==== Sys2Proof/Machine/Composite.lean ====
section
/-! DEFINITION. What the composite commands compute as a whole, written from the pseudocode of their rules (R170, R185,
R186, R230, R231, R234). The engine runs them leaf by leaf (`Engine.lean`); these are the loops those leaves make up. -/

namespace Sys2Proof.Machine

/-- FFT_STAGE (R185): `for p in 0..N-1: if p[S-1] = 0: BFLY(DIR, S, p)`. -/
def stageEffect (dir : Dir) (st : Nat) (s : State) : State :=
  forRange s.n (fun p t => if p.testBit (st - 1) then t else bflyEffect dir st p t) s

/-- FFT (R186): BITREV, then `for s in 1..ACT_LOG2N: FFT_STAGE(DIR, s)`. -/
def fftEffect (dir : Dir) (s : State) : State :=
  forRange s.actLog2n.toNat (fun j t => stageEffect dir (j + 1) t) (bitrevEffect s)

/-- PV_ALL (R170): `for k in 0..N/2: PV_BIN(CH, k)`. -/
def pvAllEffect (ch : Nat) (s : State) : State := forRange (s.n / 2 + 1) (fun k t => pvBinEffect ch k t) s

/-- Step 6 of a cycle: RESAMPLE in PitchShift only (R230). -/
def resampleIfPitchShift (s : State) : State :=
  match s.cycMode with
  | .pitchShift => resampleEffect s
  | .robotize => s
  | .whisperize => s

/-- The body of R230's channel loop. -/
def channelEffect (ch : Nat) (s : State) : State :=
  olaEffect ch (resampleIfPitchShift (windowEffect (fftEffect .inverse (hermitEffect (pvAllEffect ch
    (fftEffect .forward (loadframeEffect ch s)))))))

/-- The cycle body of R230. -/
def cycleEffect (s : State) : State :=
  cycleEndEffect (forRange (cycleBeginEffect s).ch channelEffect (cycleBeginEffect s))

/-- `while ACC >= HA: CYCLE` (R234): each cycle takes HA from ACC, so it runs floor(ACC / HA) times. -/
def drainEffect (s : State) : State := forRange (s.inAcc.toNat / s.hop) (fun _ t => cycleEffect t) s

/-- The block loop of R234: PUSH, every triggered cycle, POP, per sample. -/
def processEffect (len : Nat) (s : State) : State :=
  forRange len (fun i t => popEffect i (drainEffect (pushEffect i t))) s

end Sys2Proof.Machine
end

