-- ==== Sys2Proof/Safety.lean ====
section
/-! DEFINITION. The terms claims use: the invariants of reachable states (R51, R53, R64, R65 and the bounds the spec
derives), the end of a run (R312), the clean launch (R313) and the host's duties (R304 to R306, R311). -/

namespace Sys2Proof.Machine

/-- A legal pitch ratio: UQ4.28 in [0.5, 2.0] (R18). -/
abbrev legalRatio (w : Word) : Prop := 0x08000000 ≤ w.toNat ∧ w.toNat ≤ 0x20000000

/-- What every reachable state keeps, configured or not. -/
abbrev State.RegisterInv (s : State) : Prop :=
  s.build.legal ∧ s.mem.wf = true ∧ s.cmdq.length ≤ s.build.cmdqDepth ∧ (s.ovf = true → s.halted = true) ∧
    s.prngSeed ≠ 0#32 ∧ s.prngState ≠ 0#32 ∧
    legalRatio s.pitchTarget ∧ legalRatio s.pitchCurrent ∧ legalRatio s.cycRatio

/-- The active configuration is valid and the registers derived from it hold their values (R47, R224, R227). -/
abbrev State.ConfigInv (s : State) : Prop :=
  2 ≤ s.actLog2n.toNat ∧ s.actLog2n.toNat ≤ s.build.log2nmax ∧ 1 ≤ s.ch ∧ s.ch ≤ s.build.chmax ∧
    s.ha.toNat = s.hop ∧ s.ringCap.toNat = s.cap ∧ s.mem.cleared = true ∧
    s.wss = BitVec.ofNat 64 (windowSumSquares s.n) ∧
    s.hs.toNat = synthesisHop s.hop s.cycRatio.toNat ∧ s.rlen.toNat = resampledLength s.n s.cycRatio.toNat ∧
    s.norm = BitVec.ofNat 32 (normFactor s.hs.toNat s.wss.toNat)

/-- The cursors are ring addresses that count the samples pushed, popped and consumed (R51, R159). -/
abbrev State.CursorInv (s : State) : Prop :=
  s.inWr.toNat = s.pushCount.toNat % s.cap ∧ s.outRd.toNat = (2 * s.n + s.popCount.toNat) % s.cap ∧
    s.inRd.toNat = s.cycleCount.toNat * s.hop % s.cap ∧ s.outWr = s.inRd ∧
    s.inAcc.toNat ≤ s.accMax ∧ s.inWr.toNat = (s.inRd.toNat + s.inAcc.toNat) % s.cap

/-- A transform's next leaf is a legal one (R105). -/
def FftAt.ok (s : State) : FftAt → Bool
  | .bitrev => true
  | .bfly st p => decide (1 ≤ st) && decide (st ≤ s.actLog2n.toNat) && decide (p < s.n) && !p.testBit (st - 1)

/-- A cycle's next leaf is a legal one (R231: no leaf check can fail). -/
def CycleAt.ok (s : State) : CycleAt → Bool
  | .start => true
  | .load c => decide (c < s.ch)
  | .forward c f => decide (c < s.ch) && f.ok s
  | .bin c k => decide (c < s.ch) && decide (k ≤ s.n / 2)
  | .hermit c => decide (c < s.ch)
  | .inverse c f => decide (c < s.ch) && f.ok s
  | .window c => decide (c < s.ch)
  | .resample c => decide (c < s.ch)
  | .ola c => decide (c < s.ch)
  | .finish => true

/-- A sample's next leaf is a legal one, and ACC is where R234's discipline has it. -/
def SampleAt.ok (s : State) (i : Nat) : SampleAt → Bool
  | .push => decide (s.inAcc.toNat < s.accMax) && (decide (i = 0) || decide (s.inAcc.toNat < s.hop))
  | .inCycle a => a.ok s && decide (s.hop ≤ s.inAcc.toNat)
  | .pop => decide (s.inAcc.toNat < s.hop)

/-- An executing command stands at a legal leaf (R231, R234). -/
def Progress.ok (s : State) : Progress → Bool
  | .process len i a => decide (i < len) && decide (len ≤ s.build.bmax) && a.ok s i
  | .cycle a => a.ok s && decide (s.hop ≤ s.inAcc.toNat)
  | .fft _ f => f.ok s
  | .stage _ st p => (FftAt.bfly st p).ok s
  | .pvAll c k => decide (c < s.ch) && decide (k ≤ s.n / 2)

/-- The command that progress belongs to. -/
def Progress.command : Progress → Instr
  | .process len _ _ => .process len
  | .cycle _ => .cycle
  | .fft dir _ => .fft dir
  | .stage dir st _ => .fftStage dir st
  | .pvAll c _ => .pvAll c

/-- The executing command, if any, is one the engine has configured and started, at a legal leaf (R65). -/
def State.runningOk (s : State) : Bool :=
  match s.running with
  | none => true
  | some r => s.configured && r.progress.ok s && decide (r.word = encode r.progress.command)

/-- The invariant of the machine. -/
abbrev State.Inv (s : State) : Prop :=
  s.RegisterInv ∧ (s.configured = true → s.ConfigInv ∧ s.CursorInv) ∧ s.runningOk = true

/-- The host-read-only tables hold what the last reconfiguration wrote (R55, R56). -/
abbrev State.TablesInv (s : State) : Prop :=
  s.configured = true →
    (∀ i < s.build.nmax, s.mem.get (.win i) = if i < s.n then BitVec.ofNat 32 (winCoeff s.n i) else 0#32) ∧
      ∀ k < s.build.nmax / 2 + 1, s.mem.get (.omega k) = if k ≤ s.n / 2 then BitVec.ofNat 32 (k * 2 ^ 32 / s.n) else 0#32

/-- The end of a run (R312): the host's last access is done, nothing executes, and nothing can start. -/
abbrev State.atEnd (s : State) : Prop := s.inbox = [] ∧ s.busy = false ∧ (s.cmdq = [] ∨ s.halted = true)

/-- The run ended cleanly (R312). -/
abbrev State.cleanEnd (s : State) : Prop := s.atEnd ∧ s.halted = false ∧ s.cmdq = []

/-- The run ended in a fault, which ERR_CODE names (R312, I23). -/
abbrev State.faultEnd (s : State) : Prop := s.atEnd ∧ s.halted = true

/-- The registers a host writes before CONFIGURE: steps 2 to 4 of the boot sequence (R304). -/
def bootRegisters : List Reg :=
  [.cfgLog2n, .cfgChannels, .cfgSampleRate, .pitchTarget, .mode, .smoothShift, .prngSeed, .irqEnable]

/-- Host writes of registers, first first. -/
def State.writeRegs (s : State) : List (Reg × Word) → State
  | [] => s
  | w :: rest => State.writeRegs (w.1.write s w.2) rest

/-- The state of a successful reconfiguration, before any later cycle, sample or control write (R224, R227): the active
configuration is CFG's, the cursors and counters are at their start, the smoother, the generator and the latched
parameters hold the control registers' values, WIN and OMEGA hold their tables, and every other array word but IOBUF's
is 0. -/
abbrev State.isReconfigured (s : State) : Prop :=
  (s.pending = false ∧ s.configured = true) ∧
    (s.actLog2n = s.cfgLog2n ∧ s.actChannels = s.cfgChannels ∧ s.actSampleRate = s.cfgSampleRate) ∧
    (s.ha = BitVec.ofNat 32 (s.n / 4) ∧ s.ringCap = BitVec.ofNat 32 (4 * s.n) ∧
      s.wss = BitVec.ofNat 64 (windowSumSquares s.n)) ∧
    (s.inWr = 0#32 ∧ s.inRd = 0#32 ∧ s.inAcc = 0#32 ∧ s.outWr = 0#32 ∧ s.outRd = BitVec.ofNat 32 (2 * s.n)) ∧
    (s.pitchCurrent = s.pitchTarget ∧ s.prngState = s.prngSeed ∧ s.cycMode = s.mode ∧ s.cycRatio = s.pitchTarget) ∧
    (s.hs = BitVec.ofNat 32 (synthesisHop s.hop s.pitchTarget.toNat) ∧
      s.rlen = BitVec.ofNat 32 (resampledLength s.n s.pitchTarget.toNat) ∧
      s.norm = BitVec.ofNat 32 (normFactor (synthesisHop s.hop s.pitchTarget.toNat) s.wss.toNat)) ∧
    (s.cycleCount = 0#32 ∧ s.pushCount = 0#32 ∧ s.popCount = 0#32) ∧
    s.TablesInv ∧ ∀ a, 0x04000000 ≤ a → a < 0x0B000000 → s.mem.readByte a = 0#8

/-- The state right after hardware reset of a machine of build `b`, with any of the contents that R67 leaves open: `draw`
numbers them (log entry 3), and State.reset is draw 0 of the reference build. What the host has read before, and what
is still to come, are the model's own lists (log entry 1). -/
def State.justReset (b : Build) (draw : Nat) (inbox : List HostEvent) (replies : List Word) : State :=
  { State.resetOf b with mem := Memory.afterPowerOn draw, inbox := inbox, replies := replies }

/-- The clean launch of R313, as the way there: hardware reset of a machine, the host writes of R304 steps 2 to 4, and
CONFIGURE, written to CMD, completed without error. DESIGN CHOICE (log entry 3): it may start from every draw of the
contents R67 leaves open, the first reset's and a later one's alike; R313 names none. `State.cleanLaunch_state` (Laws/Launch.lean) proves what R313 says of
such a state: the state of R224, and the registers it lists. -/
abbrev State.cleanLaunch (s : State) : Prop :=
  ∃ (b : Build) (draw : Nat) (inbox : List HostEvent) (replies : List Word) (writes : List (Reg × Word)),
    b.legal ∧ (∀ w ∈ writes, w.1 ∈ bootRegisters) ∧
      engineStep (((State.justReset b draw inbox replies).writeRegs writes).writeCmd (encode .configure)) = .next s ∧ s.halted = false

/-! ### The host's duties (R311)

A claim about a stream of commands and accesses takes them as an assumption: it is about the states of a `DutifulRun`. -/

/-- An access to an array region while a command executes (R306). -/
def State.arrayAccessWhileBusy (s : State) (addr : Nat) : Bool :=
  s.inWindow addr && inArrayRegion (addr - s.build.base) && s.busy

/-- A write that overflows CMDQ (R39, R254). -/
def State.writeOverflows (s : State) (addr size : Nat) : Bool :=
  decide (s.reach addr size true = some (.reg .cmd)) && decide (s.build.cmdqDepth ≤ s.cmdq.length)

/-- The duties R311 names for one access: arrays only while BUSY = 0 (R306), and no CMDQ overflow. Every other access, a
bus error of another cause among them, is no breach. -/
def State.hostKeepsDuty (s : State) : HostEvent → Bool
  | .engine => true
  | .hardReset => true
  | .read addr _ => !s.arrayAccessWhileBusy addr
  | .write addr size _ => !s.arrayAccessWhileBusy addr && !s.writeOverflows addr size

/-- Nothing of an array word is unspecified: every byte of it has been written, or is known to be 0 (R67). Of an IOBUF
word: the host has written it or a POP has filled it. -/
def Memory.written (m : Memory) (e : Elem) : Bool :=
  [0, 1, 2, 3].all (fun j => (findCell m.cells (e.offset + j)).isSome || (m.unlisted (e.offset + j)).isSome)

/-- The IOBUF index `i` of each PUSH a command is or runs (R142, R234, R305). -/
def iobufIndices : Instr → List Nat
  | .push i => [i]
  | .process len => List.range len
  | .nop | .mark _ | .configure | .cycle | .cycleBegin | .cycleEnd | .pop _ | .loadframe _ | .ola _ | .pvBin _ _
  | .pvAll _ | .bitrev | .bfly _ _ _ | .fftStage _ _ | .fft _ | .hermit | .window | .resample => []

/-- The IOBUF words a command reads, in the configuration of `s`: c < ACT_CHANNELS, and i = I for PUSH or i < LEN for
PROCESS (R305). -/
def State.iobufReads (s : State) (i : Instr) : List Elem :=
  (List.range s.ch).flatMap (fun c => (iobufIndices i).map (Elem.iobuf c))

/-- The command that the next engine step starts, if it starts one (R221). -/
def State.starting (s : State) : Option Instr :=
  if s.busy || s.halted then none
  else
    match s.cmdq with
    | [] => none
    | w :: _ => (decode w).toOption

/-- The IOBUF words that the command starting next will read: those of the configuration its first step leaves, which a
PROCESS may have installed (R233), and none where that step ends in an error. -/
def State.startReads (s : State) : List Elem :=
  match s.starting, engineStep s with
  | some i, .next t => if t.halted then [] else t.iobufReads i
  | some _, .fault _ => []
  | some _, .refused _ => []
  | none, _ => []

/-- A PROCESS, the command that R304 asks the host to configure for. -/
def isProcess : Instr → Bool
  | .process _ => true
  | .nop | .mark _ | .configure | .push _ | .cycle | .cycleBegin | .cycleEnd | .pop _ | .loadframe _ | .ola _
  | .pvBin _ _ | .pvAll _ | .bitrev | .bfly _ _ _ | .fftStage _ _ | .fft _ | .hermit | .window | .resample => false

/-- The duty of R304: a PROCESS enters the engine with CONFIGURED = 1, its own pending reconfiguration not counted
(log entry 17). -/
def State.configuredForStart (s : State) : Bool :=
  match s.starting with
  | some i => !isProcess i || s.configured
  | none => true

/-- The duties R311 names for the engine's next step, where `host` lists the IOBUF and other array words the host has
written: configure before PROCESS (R304), and write each IOBUF word before a PUSH or PROCESS that reads it enters the
engine (R305). -/
def State.startKeepsDuty (host : List Elem) (s : State) : Bool :=
  s.configuredForStart && s.startReads.all (fun e => decide (e ∈ host))

/-- The duties of R311 at one step of the machine, the host's or the engine's. -/
def State.keepsDuties (host : List Elem) (s : State) : Bool :=
  match s.inbox with
  | [] => s.startKeepsDuty host
  | .engine :: rest => State.startKeepsDuty host { s with inbox := rest }
  | .read addr size :: _ => s.hostKeepsDuty (.read addr size)
  | .write addr size v :: _ => s.hostKeepsDuty (.write addr size v)
  | .hardReset :: _ => s.hostKeepsDuty .hardReset

/-- The array words the host has written since the last hardware reset (R67, R305), after one more step. -/
def State.hostWritten (host : List Elem) (s : State) : List Elem :=
  match s.inbox with
  | [] => host
  | .engine :: _ => host
  | .read _ _ :: _ => host
  | .write addr size _ :: _ =>
    match s.reach addr size true with
    | some (.elem e) => e :: host
    | some (.reg _) => host
    | some .unlisted => host
    | some (.twr _) => host
    | some (.twi _) => host
    | none => host
  | .hardReset :: _ => []

/-- The runs in which the host keeps every duty of R311: the states they reach from `start`, each with the array words
the host has written on the way. A claim about a stream takes `DutifulRun` as its premise, and says nothing of a stream
that breaks a duty. What the machine does at a breach is `step`'s: a bus error, a draw or an error halt. -/
inductive DutifulRun (start : State) : List Elem → State → Prop
  | launch : DutifulRun start [] start
  | step {host : List Elem} {s t : State} (run : DutifulRun start host s) (duty : s.keepsDuties host = true)
      (next : step s = .next t) : DutifulRun start (s.hostWritten host) t

end Sys2Proof.Machine
end

