-- ==== Sys2Proof/Certificates/Slice0/Obligations.lean ====
section
/-! DEFINITION. The statements for the provers, from the numbered rules of spec/. In every statement about a command,
`s` is the state from which the command's word has been removed, as R221 has it. A statement's next state is written as
the old state with exactly the fields that change (`{ s with … }`), which is its frame for the registers; the frame for
the arrays says which bytes may differ. -/

open Sys2Proof Sys2Proof.Machine

/-! ### Encoding and decoding (30_encoding.md) -/

/-- R109: each row of the table of encoding examples decodes to its command, and the three invalid words are rejected
with the errors named there. -/
def Obligations.EncodingExamplesDecode : Prop :=
  decode 0x00000000#32 = .ok .nop ∧ decode 0x0100BEEF#32 = .ok (.mark 0xBEEF) ∧ decode 0x02000000#32 = .ok .configure ∧
  decode 0x03000100#32 = .ok (.process 256) ∧ decode 0x04000000#32 = .ok .cycle ∧
  decode 0x10000005#32 = .ok (.push 5) ∧ decode 0x11000005#32 = .ok (.pop 5) ∧
  decode 0x12100000#32 = .ok (.loadframe 1) ∧ decode 0x13100000#32 = .ok (.ola 1) ∧
  decode 0x20100005#32 = .ok (.pvBin 1 5) ∧ decode 0x21000000#32 = .ok (.pvAll 0) ∧
  decode 0x30000000#32 = .ok .bitrev ∧ decode 0x31010000#32 = .ok (.bfly .forward 1 0) ∧
  decode 0x31830002#32 = .ok (.bfly .inverse 3 2) ∧ decode 0x32020000#32 = .ok (.fftStage .forward 2) ∧
  decode 0x33000000#32 = .ok (.fft .forward) ∧ decode 0x33800000#32 = .ok (.fft .inverse) ∧
  decode 0x34000000#32 = .ok .hermit ∧ decode 0x40000000#32 = .ok .window ∧ decode 0x41000000#32 = .ok .resample ∧
  decode 0x07000000#32 = .error .illegalOpcode ∧ decode 0x00000001#32 = .error .reservedField ∧
  decode 0x31100000#32 = .error .reservedField

/-- Decoding the word of a well-formed instruction gives the instruction back, with every operand at every value its
field admits (R101 to R103). -/
def Obligations.DecodeOfEncode : Prop := ∀ i : Instr, i.wellFormed = true → decode (encode i) = .ok i

/-- Every word that decodes is the word of the well-formed instruction it decodes to: one meaning, one word (R104). -/
def Obligations.EncodeOfDecode : Prop :=
  ∀ (w : Word) (i : Instr), decode w = .ok i → i.wellFormed = true ∧ encode i = w

/-- R106: a word is an illegal opcode exactly when its top byte lies in one of the five unlisted ranges; with a listed
opcode, whatever the other bits, it decodes or is a reserved-field error, never an illegal opcode. -/
def Obligations.IllegalOpcodesAreTheUnlistedOnes : Prop :=
  ∀ w : Word,
    decode w = .error .illegalOpcode ↔
      (0x07 ≤ w.toNat / 2 ^ 24 ∧ w.toNat / 2 ^ 24 ≤ 0x0F) ∨ (0x14 ≤ w.toNat / 2 ^ 24 ∧ w.toNat / 2 ^ 24 ≤ 0x1F) ∨
        (0x22 ≤ w.toNat / 2 ^ 24 ∧ w.toNat / 2 ^ 24 ≤ 0x2F) ∨ (0x35 ≤ w.toNat / 2 ^ 24 ∧ w.toNat / 2 ^ 24 ≤ 0x3F) ∨
          0x42 ≤ w.toNat / 2 ^ 24

/-! ### The engine's life cycle (44_sequencer.md R220, R221; 60_exceptions.md) -/

/-- R221: when the engine's turn comes, no command executes, the engine is not halted and the head of CMDQ decodes, a step
removes that word and runs the command's first engine step. The engine's turn comes with no outside event to come, or
before later ones (R80); a step takes it from the schedule (log entry 1). -/
def Obligations.StepRunsDecodedCommand : Prop :=
  ∀ (s : State) (w : Word) (rest : List Word) (i : Instr),
    (s.inbox = [] ∨ ∃ later, s.inbox = .engine :: later) →
    s.running = none → s.halted = false → s.cmdq = w :: rest → decode w = .ok i →
      step s = exec i { s with cmdq := rest, inbox := s.inbox.tail }

/-- R104, R252: a head word that does not decode leaves CMDQ and raises its decoding error, when the engine's turn
comes. -/
def Obligations.StepRaisesDecodingErrors : Prop :=
  ∀ (s : State) (w : Word) (rest : List Word),
    (s.inbox = [] ∨ ∃ later, s.inbox = .engine :: later) →
    s.running = none → s.halted = false → s.cmdq = w :: rest →
      (decode w = .error .illegalOpcode →
        step s = .next (({ s with cmdq := rest, inbox := s.inbox.tail } : State).raiseError .illegalOpcode w)) ∧
        (decode w = .error .reservedField →
          step s = .next (({ s with cmdq := rest, inbox := s.inbox.tail } : State).raiseError .reservedField w))

/-- R221, R253: while HALTED = 1 and no command executes, or CMDQ is empty and none executes, the engine's step changes
nothing; its turn leaves the schedule. -/
def Obligations.StoppedEngineStartsNothing : Prop :=
  ∀ s : State, (s.inbox = [] ∨ ∃ later, s.inbox = .engine :: later) → s.running = none → s.halted = true ∨ s.cmdq = [] →
    step s = .next { s with inbox := s.inbox.tail }

/-- R253: a command that executes while HALTED becomes 1 runs on: when the engine's turn comes, its step is the same as
with HALTED = 0, HALTED apart. -/
def Obligations.HaltDoesNotDisturbExecutingCommand : Prop :=
  ∀ (s t : State) (r : Running), (s.inbox = [] ∨ ∃ later, s.inbox = .engine :: later) →
    s.running = some r → s.halted = false → step s = .next t →
      step { s with halted := true } = .next { t with halted := true }

/-- R80, R301: with outside events to come, a step is exactly the first of them; a host access, and the reset input,
falls between engine steps. -/
def Obligations.StepsTakeEventsInOrder : Prop :=
  ∀ (s : State) (rest : List HostEvent),
    (∀ addr size, s.inbox = .read addr size :: rest → step s = hostRead addr size { s with inbox := rest }) ∧
      (∀ addr size v, s.inbox = .write addr size v :: rest → step s = hostWrite addr size v { s with inbox := rest }) ∧
        (s.inbox = .engine :: rest → step s = engineStep { s with inbox := rest }) ∧
          (s.inbox = .hardReset :: rest → step s = .next ({ s with inbox := rest } : State).hardReset)

/-- R252: what the error procedure writes, and that it writes nothing else. -/
def Obligations.ErrorProcedureRecordsTheFirstError : Prop :=
  ∀ (s : State) (e : ErrCode) (w : Word),
    (s.halted = false →
      s.raiseError e w =
        { s with errCode := e, errCmd := w, halted := true, irqStatus := s.irqStatus ||| 0b00100#5, running := none }) ∧
      (s.halted = true →
        s.raiseError e w = { s with halted := true, irqStatus := s.irqStatus ||| 0b00100#5, running := none })

/-- R221: what completion writes, and that it writes nothing else. -/
def Obligations.CompletionCountsAndRaisesDone : Prop :=
  ∀ s : State,
    (s.cmdq = [] →
      s.complete =
        { s with
          cmdCount := BitVec.ofNat 32 ((s.cmdCount.toNat + 1) % 2 ^ 32)
          irqStatus := s.irqStatus ||| 0b00001#5
          running := none }) ∧
      (s.cmdq ≠ [] →
        s.complete = { s with cmdCount := BitVec.ofNat 32 ((s.cmdCount.toNat + 1) % 2 ^ 32), running := none })

/-- No instruction stops the machine: every command, well-formed or not, on every state, answers a next state. -/
def Obligations.EveryCommandAnswersANextState : Prop := ∀ (i : Instr) (s : State), ∃ t, exec i s = .next t

/-- R251, steps 3 to 5, for the ring-buffer commands: which error each reports, in the order of the checks. -/
def Obligations.RingCommandErrors : Prop :=
  ∀ (s : State) (i ch : Nat),
    (s.configured = false →
      exec (.push i) s = .next (s.raiseError .notConfigured (encode (.push i))) ∧
        exec (.pop i) s = .next (s.raiseError .notConfigured (encode (.pop i))) ∧
        exec (.loadframe ch) s = .next (s.raiseError .notConfigured (encode (.loadframe ch))) ∧
        exec (.ola ch) s = .next (s.raiseError .notConfigured (encode (.ola ch))) ∧
        exec .cycleEnd s = .next (s.raiseError .notConfigured (encode .cycleEnd))) ∧
      (s.configured = true →
        (s.build.bmax ≤ i → exec (.push i) s = .next (s.raiseError .badIndex (encode (.push i))) ∧
          exec (.pop i) s = .next (s.raiseError .badIndex (encode (.pop i)))) ∧
        (i < s.build.bmax → 3 * s.n + s.n / 4 ≤ s.inAcc.toNat →
          exec (.push i) s = .next (s.raiseError .inOverrun (encode (.push i)))) ∧
        (s.actChannels.toNat ≤ ch →
          exec (.loadframe ch) s = .next (s.raiseError .badChannel (encode (.loadframe ch))) ∧
            exec (.ola ch) s = .next (s.raiseError .badChannel (encode (.ola ch)))) ∧
        (s.inAcc.toNat < s.n / 4 → exec .cycleEnd s = .next (s.raiseError .accUnderflow (encode .cycleEnd))))

/-- R251, steps 3 to 5, for the phase, transform and resampler commands. -/
def Obligations.SpectralCommandErrors : Prop :=
  ∀ (s : State) (dir : Dir) (ch k st p : Nat),
    (s.configured = false →
      exec (.pvBin ch k) s = .next (s.raiseError .notConfigured (encode (.pvBin ch k))) ∧
        exec (.pvAll ch) s = .next (s.raiseError .notConfigured (encode (.pvAll ch))) ∧
        exec .bitrev s = .next (s.raiseError .notConfigured (encode .bitrev)) ∧
        exec (.bfly dir st p) s = .next (s.raiseError .notConfigured (encode (.bfly dir st p))) ∧
        exec (.fftStage dir st) s = .next (s.raiseError .notConfigured (encode (.fftStage dir st))) ∧
        exec (.fft dir) s = .next (s.raiseError .notConfigured (encode (.fft dir))) ∧
        exec .hermit s = .next (s.raiseError .notConfigured (encode .hermit)) ∧
        exec .window s = .next (s.raiseError .notConfigured (encode .window)) ∧
        exec .resample s = .next (s.raiseError .notConfigured (encode .resample))) ∧
      (s.configured = true →
        (s.actChannels.toNat ≤ ch →
          exec (.pvBin ch k) s = .next (s.raiseError .badChannel (encode (.pvBin ch k))) ∧
            exec (.pvAll ch) s = .next (s.raiseError .badChannel (encode (.pvAll ch)))) ∧
        (ch < s.actChannels.toNat → s.n / 2 < k →
          exec (.pvBin ch k) s = .next (s.raiseError .badBin (encode (.pvBin ch k)))) ∧
        (st = 0 ∨ s.actLog2n.toNat < st →
          exec (.bfly dir st p) s = .next (s.raiseError .badStage (encode (.bfly dir st p))) ∧
            exec (.fftStage dir st) s = .next (s.raiseError .badStage (encode (.fftStage dir st)))) ∧
        (1 ≤ st → st ≤ s.actLog2n.toNat → s.n ≤ p ∨ p.testBit (st - 1) = true →
          exec (.bfly dir st p) s = .next (s.raiseError .badIndex (encode (.bfly dir st p)))))

/-- R251 and R252 for the sequencer's commands. A failed reconfiguration changes only PENDING and CONFIGURED before the
error, and PROCESS keeps a reconfiguration it has performed. -/
def Obligations.SequencerCommandErrors : Prop :=
  ∀ (s : State) (len : Nat),
    (s.configured = false →
      exec .cycle s = .next (s.raiseError .notConfigured (encode .cycle)) ∧
        exec .cycleBegin s = .next (s.raiseError .notConfigured (encode .cycleBegin)) ∧
        (len ≤ s.build.bmax → s.pending = false →
          exec (.process len) s = .next (s.raiseError .notConfigured (encode (.process len))))) ∧
      (s.configured = true → s.inAcc.toNat < s.n / 4 →
        exec .cycle s = .next (s.raiseError .accUnderflow (encode .cycle))) ∧
      (s.build.bmax < len → exec (.process len) s = .next (s.raiseError .badIndex (encode (.process len)))) ∧
      (s.configured = true → len ≤ s.build.bmax → s.pending = false → 3 * s.n + s.n / 4 ≤ s.inAcc.toNat →
        exec (.process len) s = .next (s.raiseError .inOverrun (encode (.process len)))) ∧
      (¬ (2 ≤ s.cfgLog2n.toNat ∧ s.cfgLog2n.toNat ≤ s.build.log2nmax ∧ 1 ≤ s.cfgChannels.toNat ∧
          s.cfgChannels.toNat ≤ s.build.chmax) →
        exec .configure s =
            .next (({ s with pending := false, configured := false } : State).raiseError .configInvalid
              (encode .configure)) ∧
          (len ≤ s.build.bmax → s.pending = true →
            exec (.process len) s =
              .next (({ s with pending := false, configured := false } : State).raiseError .configInvalid
                (encode (.process len)))))

/-! ### Results and frames: sequencer -/

/-- R222: NOP completes with no other effect, configured or not. -/
def Obligations.NopOnlyCompletes : Prop := ∀ s : State, exec .nop s = .next s.complete

/-- R223: MARK records its tag and raises the MARK interrupt, configured or not. -/
def Obligations.MarkRecordsItsTag : Prop :=
  ∀ (s : State) (tag : Nat), tag < 65536 →
    ∃ t, exec (.mark tag) s = .next t ∧ t.markTag.toNat = tag ∧
      t = ({ s with markTag := t.markTag, irqStatus := s.irqStatus ||| 0b00010#5 } : State).complete

/-- R224, R225: a valid CONFIGURE completes with the new configuration: every register it writes, and no other; WIN and
OMEGA hold their tables, every other array word is 0, and IOBUF is untouched. -/
def Obligations.ConfigureInstallsTheConfiguration : Prop :=
  ∀ (s : State) (n : Nat),
    s.build.legal → 2 ≤ s.cfgLog2n.toNat → s.cfgLog2n.toNat ≤ s.build.log2nmax → 1 ≤ s.cfgChannels.toNat →
      s.cfgChannels.toNat ≤ s.build.chmax → n = 2 ^ s.cfgLog2n.toNat →
      ∃ m : Memory,
        exec .configure s =
          .next ({ s with
            pending := false, actLog2n := s.cfgLog2n, actChannels := s.cfgChannels, actSampleRate := s.cfgSampleRate
            ha := BitVec.ofNat 32 (n / 4), ringCap := BitVec.ofNat 32 (4 * n), mem := m
            wss := BitVec.ofNat 64 (windowSumSquares n)
            inWr := 0#32, inRd := 0#32, inAcc := 0#32, outWr := 0#32, outRd := BitVec.ofNat 32 (2 * n)
            pitchCurrent := s.pitchTarget, prngState := s.prngSeed, cycMode := s.mode, cycRatio := s.pitchTarget
            hs := BitVec.ofNat 32 ((n / 4 * s.pitchTarget.toNat + 2 ^ 27) / 2 ^ 28)
            rlen := BitVec.ofNat 32 (n * 2 ^ 28 / s.pitchTarget.toNat)
            norm := BitVec.ofNat 32 (normFactor ((n / 4 * s.pitchTarget.toNat + 2 ^ 27) / 2 ^ 28)
              (BitVec.ofNat 64 (windowSumSquares n)).toNat)
            cycleCount := 0#32, pushCount := 0#32, popCount := 0#32, configured := true
            irqStatus := s.irqStatus ||| 0b01000#5 } : State).complete ∧
        (∀ i < s.build.nmax, m.get (.win i) = if i < n then BitVec.ofNat 32 (winCoeff n i) else 0#32) ∧
        (∀ k ≤ s.build.nmax / 2, m.get (.omega k) = if k ≤ n / 2 then BitVec.ofNat 32 (k * 2 ^ 32 / n) else 0#32) ∧
        (∀ a, 0x04000000 ≤ a → a < 0x0B000000 → m.readByte a = 0#8) ∧
        (∀ a, 0x0B000000 ≤ a → m.readByte a = s.mem.readByte a)

/-- R226, R227, R228: CYCLE_BEGIN steps the smoother and latches the cycle parameters, and writes nothing else. -/
def Obligations.CycleBeginSmoothsAndLatches : Prop :=
  ∀ (s : State) (diff stp : Int) (ratio : Nat),
    s.Inv → s.configured = true →
      diff = (s.pitchTarget.toNat : Int) - s.pitchCurrent.toNat →
      stp = (if 0 < diff ∧ diff / 2 ^ s.smoothShift.toNat = 0 then 1 else diff / 2 ^ s.smoothShift.toNat) →
      (ratio : Int) = s.pitchCurrent.toNat + stp →
        exec .cycleBegin s =
          .next ({ s with
            pitchCurrent := BitVec.ofNat 32 ratio, cycMode := s.mode, cycRatio := BitVec.ofNat 32 ratio
            hs := BitVec.ofNat 32 ((s.n / 4 * ratio + 2 ^ 27) / 2 ^ 28)
            rlen := BitVec.ofNat 32 (s.n * 2 ^ 28 / ratio)
            norm := BitVec.ofNat 32 (((s.n / 4 * ratio + 2 ^ 27) / 2 ^ 28 * 2 ^ 79 + s.wss.toNat) / (2 * s.wss.toNat)) }
              : State).complete

/-- R226: the smoother's new value lies between the old value and the target, and differs from the old value unless that
is the target. -/
def Obligations.SmootherMovesTowardTheTarget : Prop :=
  ∀ target current shift : Nat,
    (current ≤ target → (current : Int) ≤ smoothRatio target current shift ∧ smoothRatio target current shift ≤ target) ∧
      (target ≤ current → (target : Int) ≤ smoothRatio target current shift ∧ smoothRatio target current shift ≤ current) ∧
        (smoothRatio target current shift = current ↔ current = target)

/-- R227: the bounds of the latched cycle parameters, in every state the invariant admits. -/
def Obligations.LatchedParametersAreBounded : Prop :=
  ∀ s : State, s.Inv → s.configured = true →
    1 ≤ s.hs.toNat ∧ s.hs.toNat ≤ 2 * (s.n / 4) ∧ s.n / 2 ≤ s.rlen.toNat ∧ s.rlen.toNat ≤ 2 * s.n

/-- The first engine step of each composite command, where its checks pass: the command executes, at its first leaf,
and nothing else has changed (R220, R170, R185, R186, R231, R234). PROCESS 0 has no leaf and completes in that step. -/
def Obligations.CompositeCommandsStartAtTheirFirstLeaf : Prop :=
  ∀ (s : State) (dir : Dir) (ch st len : Nat), s.configured = true →
    (ch < s.actChannels.toNat →
      exec (.pvAll ch) s = .next { s with running := some { word := encode (.pvAll ch), progress := .pvAll ch 0 } }) ∧
    (1 ≤ st → st ≤ s.actLog2n.toNat →
      exec (.fftStage dir st) s =
        .next { s with running := some { word := encode (.fftStage dir st), progress := .stage dir st 0 } }) ∧
    exec (.fft dir) s = .next { s with running := some { word := encode (.fft dir), progress := .fft dir .bitrev } } ∧
    (s.n / 4 ≤ s.inAcc.toNat →
      exec .cycle s = .next { s with running := some { word := encode .cycle, progress := .cycle .start } }) ∧
    (1 ≤ len → len ≤ s.build.bmax → s.pending = false → s.inAcc.toNat < 3 * s.n + s.n / 4 →
      exec (.process len) s =
        .next { s with running := some { word := encode (.process len), progress := .process len 0 .push } }) ∧
    (s.pending = false → s.inAcc.toNat < 3 * s.n + s.n / 4 → exec (.process 0) s = .next s.complete)

/-- R233, R234: a PROCESS that finds PENDING = 1 and a valid configuration reconfigures exactly as CONFIGURE does, and
goes on, in the same engine step, as a PROCESS on the new configuration. Of the interrupts the reconfiguration itself
raises RECONF only: DONE is CONFIGURE's completion's, not PROCESS's first step's. -/
def Obligations.PendingReconfigurationRunsInProcess : Prop :=
  ∀ (s : State) (len : Nat), s.pending = true → len ≤ s.build.bmax → 2 ≤ s.cfgLog2n.toNat →
    s.cfgLog2n.toNat ≤ s.build.log2nmax → 1 ≤ s.cfgChannels.toNat → s.cfgChannels.toNat ≤ s.build.chmax →
      ∃ c, exec .configure s = .next (State.complete c) ∧ c.pending = false ∧ c.configured = true ∧
        c.irqStatus = s.irqStatus ||| 0b01000#5 ∧ c.running = s.running ∧
        exec (.process len) s = exec (.process len) c ∧
        (len ≠ 0 → exec (.process len) s =
          .next (c.start (encode (.process len)) (.process len 0 .push))) ∧
        (len = 0 → exec (.process len) s = .next c.complete)

/-! ### Results and frames: ring buffers -/

/-- R142: PUSH appends sample `i` of every active channel's IOBUF row to the input ring at IN_WR, and changes no other
byte. -/
def Obligations.PushAppendsOneSamplePerChannel : Prop :=
  ∀ (s : State) (i : Nat), s.Inv → s.configured = true → i < s.build.bmax → s.inAcc.toNat < 3 * s.n + s.n / 4 →
    ∃ m : Memory,
      exec (.push i) s =
        .next ({ s with
          mem := m, inWr := BitVec.ofNat 32 ((s.inWr.toNat + 1) % (4 * s.n))
          inAcc := BitVec.ofNat 32 (s.inAcc.toNat + 1)
          pushCount := BitVec.ofNat 32 ((s.pushCount.toNat + 1) % 2 ^ 32) } : State).complete ∧
      (∀ c < s.actChannels.toNat, m.get (.inring c s.inWr.toNat) = s.mem.get (.iobuf c i)) ∧
      (∀ a, (∀ c < s.actChannels.toNat, ¬ (Elem.inring c s.inWr.toNat).covers a) → m.readByte a = s.mem.readByte a)

/-- R145, R146: POP delivers the slot at OUT_RD of every active channel, zeroes it, and changes no other byte. -/
def Obligations.PopDeliversAndClearsOneSlot : Prop :=
  ∀ (s : State) (i : Nat), s.Inv → s.configured = true → i < s.build.bmax →
    ∃ m : Memory,
      exec (.pop i) s =
        .next ({ s with
          mem := m, outRd := BitVec.ofNat 32 ((s.outRd.toNat + 1) % (4 * s.n))
          popCount := BitVec.ofNat 32 ((s.popCount.toNat + 1) % 2 ^ 32) } : State).complete ∧
      (∀ c < s.actChannels.toNat,
        m.get (.iobuf c i) = s.mem.get (.outring c s.outRd.toNat) ∧ m.get (.outring c s.outRd.toNat) = 0#32) ∧
      (∀ a, (∀ c < s.actChannels.toNat, ¬ (Elem.iobuf c i).covers a ∧ ¬ (Elem.outring c s.outRd.toNat).covers a) →
        m.readByte a = s.mem.readByte a)

/-- R150, R155: the frame address of a cursor is (cursor - 3*HA + i) mod C, a ring address; consecutive frame samples
below C apart have different addresses. -/
def Obligations.FrameAddressesAreDistinctRingAddresses : Prop :=
  ∀ (s : State) (cursor : Word) (i j : Nat),
    (s.frameAddr cursor i : Int) = ((cursor.toNat : Int) - 3 * (s.n / 4 : Nat) + i) % (4 * s.n : Nat) ∧
      s.frameAddr cursor i < 4 * s.n ∧
      (i < 4 * s.n → j < 4 * s.n → s.frameAddr cursor i = s.frameAddr cursor j → i = j)

/-- R152: LOADFRAME fills SCR[0..N-1] with the windowed frame, imaginary parts 0, and changes no other byte. -/
def Obligations.LoadframeWindowsTheFrame : Prop :=
  ∀ (s : State) (ch : Nat), s.configured = true → ch < s.actChannels.toNat →
    ∃ m : Memory,
      exec (.loadframe ch) s = .next ({ s with mem := m } : State).complete ∧
      (∀ n < s.n,
        m.get (.scrRe n) =
            BitVec.ofInt 32 (rshr (s.mem.getInt (.inring ch (s.frameAddr s.inRd n)) * (s.mem.get (.win n)).toNat) 24) ∧
          m.get (.scrIm n) = 0#32) ∧
      (∀ a, (∀ n < s.n, ¬ (Elem.scrRe n).covers a ∧ ¬ (Elem.scrIm n).covers a) → m.readByte a = s.mem.readByte a)

/-- R156: OLA adds the L samples of the synthesised frame (RS in PitchShift, SCR.re otherwise), scaled by NORM and
saturated, into the L ring slots from OUT_WR - 3*HA on; SAT_OLA is set exactly if a sum clips; no other byte changes. -/
def Obligations.OlaAccumulatesTheFrame : Prop :=
  ∀ (s : State) (ch len : Nat) (src : Nat → Elem) (sum : Nat → Int), s.Inv → s.configured = true →
    ch < s.actChannels.toNat →
    (s.cycMode = .pitchShift → len = s.rlen.toNat ∧ ∀ i, src i = .rs i) →
    (s.cycMode ≠ .pitchShift → len = s.n ∧ ∀ i, src i = .scrRe i) →
    (∀ i, sum i = s.mem.getInt (.outring ch (s.frameAddr s.outWr i)) + rshr (s.mem.getInt (src i) * s.norm.toNat) 30) →
    ∃ (m : Memory) (f : BitVec 3),
      exec (.ola ch) s = .next ({ s with mem := m, satFlags := f } : State).complete ∧
      (∀ i < len, m.getInt (.outring ch (s.frameAddr s.outWr i)) = max (-2 ^ 31) (min (sum i) (2 ^ 31 - 1))) ∧
      ((∃ i < len, 2 ^ 31 - 1 < sum i ∨ sum i < -2 ^ 31) → f = s.satFlags ||| 0b100#3) ∧
      ((∀ i < len, ¬ (2 ^ 31 - 1 < sum i ∨ sum i < -2 ^ 31)) → f = s.satFlags) ∧
      (∀ a, (∀ i < len, ¬ (Elem.outring ch (s.frameAddr s.outWr i)).covers a) → m.readByte a = s.mem.readByte a)

/-- R158: CYCLE_END advances IN_RD and OUT_WR by HA, takes HA from IN_ACC, counts the cycle, and writes nothing else. -/
def Obligations.CycleEndAdvancesOneHop : Prop :=
  ∀ s : State, s.configured = true → s.n / 4 ≤ s.inAcc.toNat →
    exec .cycleEnd s =
      .next ({ s with
        inRd := BitVec.ofNat 32 ((s.inRd.toNat + s.n / 4) % (4 * s.n))
        outWr := BitVec.ofNat 32 ((s.outWr.toNat + s.n / 4) % (4 * s.n))
        inAcc := BitVec.ofNat 32 (s.inAcc.toNat - s.n / 4)
        cycleCount := BitVec.ofNat 32 ((s.cycleCount.toNat + 1) % 2 ^ 32) } : State).complete

/-! ### Results and frames: phase unit -/

/-- R161 to R168: PV_BIN on every mode, bin and channel: the five words it stores, PRNG_STATE, SAT_PV, and that it
changes no other byte and no other register. -/
def Obligations.PvBinRunsTheRecurrence : Prop :=
  ∀ (s : State) (ch k mag : Nat) (xr xi phi delta dphi theta : Int), s.Inv → s.configured = true →
    ch < s.actChannels.toNat → k ≤ s.n / 2 →
    xr = s.mem.getInt (.scrRe k) → xi = s.mem.getInt (.scrIm k) →
    mag = rsqrt (xr * xr + xi * xi).toNat → phi = atan2b xi xr →
    delta = wrap32 (phi - s.mem.getInt (.phprev ch k) - k * 2 ^ 30) → dphi = k * 2 ^ 30 + delta →
    (s.cycMode = .pitchShift →
      theta = wrap32 (s.mem.getInt (.synph ch k) + rshr (dphi * s.cycRatio.toNat) 28)) →
    (s.cycMode = .robotize → theta = 0) →
    (s.cycMode = .whisperize → theta = (xorshift32 s.prngState).toInt) →
    ∃ (m : Memory) (f : BitVec 3),
      exec (.pvBin ch k) s =
        .next ({ s with
          mem := m, satFlags := f
          prngState := if s.cycMode = .whisperize then xorshift32 s.prngState else s.prngState } : State).complete ∧
      m.getInt (.synph ch k) = theta ∧ m.get (.phprev ch k) = BitVec.ofInt 32 phi ∧
      m.get (.mag ch k) = BitVec.ofNat 32 mag ∧ m.getInt (.scrRe k) = sat32 (mcos mag theta) ∧
      m.getInt (.scrIm k) = (if k = 0 ∨ k = s.n / 2 then 0 else sat32 (msin mag theta)) ∧
      f = (if clips (mcos mag theta) = true ∨ clips (msin mag theta) = true then s.satFlags ||| 0b010#3 else s.satFlags) ∧
      (∀ a, ¬ (Elem.synph ch k).covers a → ¬ (Elem.phprev ch k).covers a → ¬ (Elem.mag ch k).covers a →
        ¬ (Elem.scrRe k).covers a → ¬ (Elem.scrIm k).covers a → m.readByte a = s.mem.readByte a)

/-- R168: the generator never leaves the nonzero states. -/
def Obligations.XorshiftNeverYieldsZero : Prop := ∀ x : Word, x ≠ 0#32 → xorshift32 x ≠ 0#32

/-- R168: outside Whisperize no leaf that a composite command runs (R170, R185, R186, R231, R234) reads or writes
PRNG_STATE: from two states that differ in PRNG_STATE only, each of these leaves gives two states that differ in
PRNG_STATE only. A reconfiguration, the leaf of CONFIGURE and of a PROCESS that finds PENDING = 1, is not among them: it
writes PRNG_STATE in every mode (R50, R224; ConfigureInstallsTheConfiguration). -/
def Obligations.OnlyWhisperizeDependsOnTheGenerator : Prop :=
  ∀ (l : Leaf) (s : State) (x : Word), s.cycMode ≠ .whisperize →
    l.run { s with prngState := x } = { l.run s with prngState := x } ∧ (l.run s).prngState = s.prngState

/-- R49, R169: of the leaves that composite commands run (R170, R185, R186, R231, R234) only CYCLE_BEGIN writes the
latched cycle parameters and PITCH_CURRENT, and none writes the active configuration. A reconfiguration, the leaf of
CONFIGURE and of a PROCESS that finds PENDING = 1, is not among them: it writes all of these (R46, R48, R49;
ConfigureInstallsTheConfiguration, PendingReconfigurationRunsInProcess). -/
def Obligations.OnlyCycleBeginWritesLatchedParameters : Prop :=
  ∀ (l : Leaf) (s : State),
    ((l.run s).actLog2n = s.actLog2n ∧ (l.run s).actChannels = s.actChannels ∧
      (l.run s).actSampleRate = s.actSampleRate ∧ (l.run s).configured = s.configured) ∧
    (l ≠ .cycleBegin →
      (l.run s).cycMode = s.cycMode ∧ (l.run s).cycRatio = s.cycRatio ∧ (l.run s).hs = s.hs ∧
        (l.run s).rlen = s.rlen ∧ (l.run s).norm = s.norm ∧ (l.run s).pitchCurrent = s.pitchCurrent)

/-! ### Results and frames: transform -/

/-- R181: BITREV moves SCR[k] to the index whose L bits are k's in reverse, for every k below N, and changes no other
byte. -/
def Obligations.BitrevPermutesTheScratch : Prop :=
  ∀ s : State, s.configured = true →
    ∃ m : Memory,
      exec .bitrev s = .next ({ s with mem := m } : State).complete ∧
      (∀ k < s.n,
        m.get (.scrRe (reverseBits s.actLog2n.toNat k)) = s.mem.get (.scrRe k) ∧
          m.get (.scrIm (reverseBits s.actLog2n.toNat k)) = s.mem.get (.scrIm k)) ∧
      (∀ a, (∀ k < s.n, ¬ (Elem.scrRe k).covers a ∧ ¬ (Elem.scrIm k).covers a) → m.readByte a = s.mem.readByte a)

/-- R181: bit i of the reversed index is bit L-1-i of the index, and reversal is an involution on L-bit indices. -/
def Obligations.ReverseBitsReversesAndIsAnInvolution : Prop :=
  ∀ width k : Nat, k < 2 ^ width →
    reverseBits width k < 2 ^ width ∧ reverseBits width (reverseBits width k) = k ∧
      ∀ i < width, (reverseBits width k).testBit i = k.testBit (width - 1 - i)

/-- R182, R183: BFLY on every direction, stage and upper index: the four words it stores, SAT_FFT, and that it changes no
other byte. -/
def Obligations.BflyComputesOneButterfly : Prop :=
  ∀ (s : State) (dir : Dir) (st p half q t : Nat) (wr wi ar ai br bi tr ti : Int) (o : Fin 4 → Int),
    s.configured = true → 1 ≤ st → st ≤ s.actLog2n.toNat → p < s.n → p.testBit (st - 1) = false →
    half = 2 ^ (st - 1) → q = p + half → t = p % half * 2 ^ (s.build.log2nmax - st) →
    wr = twiddleRe s.build t → wi = (if dir = .forward then twiddleIm s.build t else -twiddleIm s.build t) →
    ar = s.mem.getInt (.scrRe p) → ai = s.mem.getInt (.scrIm p) →
    br = s.mem.getInt (.scrRe q) → bi = s.mem.getInt (.scrIm q) →
    tr = rshr (br * wr - bi * wi) 30 → ti = rshr (br * wi + bi * wr) 30 →
    (dir = .forward → o 0 = rshr (ar + tr) 1 ∧ o 1 = rshr (ai + ti) 1 ∧ o 2 = rshr (ar - tr) 1 ∧ o 3 = rshr (ai - ti) 1) →
    (dir = .inverse → o 0 = ar + tr ∧ o 1 = ai + ti ∧ o 2 = ar - tr ∧ o 3 = ai - ti) →
    ∃ (m : Memory) (f : BitVec 3),
      exec (.bfly dir st p) s = .next ({ s with mem := m, satFlags := f } : State).complete ∧ q < s.n ∧
      m.getInt (.scrRe p) = sat32 (o 0) ∧ m.getInt (.scrIm p) = sat32 (o 1) ∧
      m.getInt (.scrRe q) = sat32 (o 2) ∧ m.getInt (.scrIm q) = sat32 (o 3) ∧
      ((∃ j, clips (o j) = true) → f = s.satFlags ||| 0b001#3) ∧ ((∀ j, clips (o j) = false) → f = s.satFlags) ∧
      (∀ a, ¬ (Elem.scrRe p).covers a → ¬ (Elem.scrIm p).covers a → ¬ (Elem.scrRe q).covers a →
        ¬ (Elem.scrIm q).covers a → m.readByte a = s.mem.readByte a)

/-- R188: HERMIT writes the conjugate of bin k into bin N-k for k = 1 to N/2-1; SAT_FFT is set exactly if some negation
clips; no other byte changes. -/
def Obligations.HermitCompletesTheSpectrum : Prop :=
  ∀ s : State, s.configured = true →
    ∃ (m : Memory) (f : BitVec 3),
      exec .hermit s = .next ({ s with mem := m, satFlags := f } : State).complete ∧
      (∀ k, 1 ≤ k → k < s.n / 2 →
        m.get (.scrRe (s.n - k)) = s.mem.get (.scrRe k) ∧
          m.getInt (.scrIm (s.n - k)) = min (-s.mem.getInt (.scrIm k)) (2 ^ 31 - 1)) ∧
      ((∃ k, 1 ≤ k ∧ k < s.n / 2 ∧ s.mem.getInt (.scrIm k) = -2 ^ 31) → f = s.satFlags ||| 0b001#3) ∧
      ((∀ k, 1 ≤ k → k < s.n / 2 → s.mem.getInt (.scrIm k) ≠ -2 ^ 31) → f = s.satFlags) ∧
      (∀ a, (∀ k, 1 ≤ k → k < s.n / 2 → ¬ (Elem.scrRe (s.n - k)).covers a ∧ ¬ (Elem.scrIm (s.n - k)).covers a) →
        m.readByte a = s.mem.readByte a)

/-! ### Results and frames: resampler -/

/-- R201: WINDOW multiplies the real parts of SCR[0..N-1] by the window and zeroes the imaginary parts, and changes no
other byte. -/
def Obligations.WindowScalesTheFrame : Prop :=
  ∀ s : State, s.configured = true →
    ∃ m : Memory,
      exec .window s = .next ({ s with mem := m } : State).complete ∧
      (∀ n < s.n,
        m.get (.scrRe n) = BitVec.ofInt 32 (rshr (s.mem.getInt (.scrRe n) * (s.mem.get (.win n)).toNat) 24) ∧
          m.get (.scrIm n) = 0#32) ∧
      (∀ a, (∀ n < s.n, ¬ (Elem.scrRe n).covers a ∧ ¬ (Elem.scrIm n).covers a) → m.readByte a = s.mem.readByte a)

/-- R203: RESAMPLE interpolates SCR.re linearly into RS[0..RLEN-1], reads no index of SCR at or above N, and changes no
other byte. -/
def Obligations.ResampleInterpolatesLinearly : Prop :=
  ∀ s : State, s.Inv → s.configured = true →
    ∃ m : Memory,
      exec .resample s = .next ({ s with mem := m } : State).complete ∧
      (∀ (i pos idx fr : Nat), i < s.rlen.toNat → pos = i * s.cycRatio.toNat → idx = pos / 2 ^ 28 → fr = pos % 2 ^ 28 →
        idx < s.n ∧
          m.getInt (.rs i) =
            rshr (s.mem.getInt (.scrRe idx) * (2 ^ 28 - fr) + s.mem.getInt (.scrRe ((idx + 1) % s.n)) * fr) 28) ∧
      (∀ a, (∀ i < s.rlen.toNat, ¬ (Elem.rs i).covers a) → m.readByte a = s.mem.readByte a)

/-! ### Composite commands as a whole (R170, R185, R186, R230, R231, R234) -/

/-- R185, R186: FFT_STAGE and FFT, run to their completion by the engine without outside events, compute the loops of
their pseudocode and complete. -/
def Obligations.TransformsRunTheirLoops : Prop :=
  ∀ (s : State) (dir : Dir) (rest : List Word), s.Inv → s.configured = true → s.inbox = [] → s.running = none →
    s.halted = false →
    (∀ st, 1 ≤ st → st ≤ s.actLog2n.toNat → s.cmdq = encode (.fftStage dir st) :: rest →
      ∃ steps, Host.Core.run Sys2Proof.core steps s = .next (stageEffect dir st { s with cmdq := rest }).complete) ∧
    (s.cmdq = encode (.fft dir) :: rest →
      ∃ steps, Host.Core.run Sys2Proof.core steps s = .next (fftEffect dir { s with cmdq := rest }).complete)

/-- R170: PV_ALL, run to its completion, is PV_BIN's effect on bins 0 to N/2 in order. -/
def Obligations.PvAllRunsEveryBin : Prop :=
  ∀ (s : State) (ch : Nat) (rest : List Word), s.Inv → s.configured = true → s.inbox = [] → s.running = none →
    s.halted = false → ch < s.actChannels.toNat → s.cmdq = encode (.pvAll ch) :: rest →
      Host.Core.run Sys2Proof.core (s.n / 2 + 2) s = .next (pvAllEffect ch { s with cmdq := rest }).complete

/-- R230, R231: CYCLE, run to its completion, is the cycle body of R230. -/
def Obligations.CycleRunsTheCycleBody : Prop :=
  ∀ (s : State) (rest : List Word), s.Inv → s.configured = true → s.inbox = [] → s.running = none → s.halted = false →
    s.n / 4 ≤ s.inAcc.toNat → s.cmdq = encode .cycle :: rest →
      ∃ steps, Host.Core.run Sys2Proof.core steps s = .next (cycleEffect { s with cmdq := rest }).complete

/-- R234: PROCESS, run to its completion, is the block loop of R234: per sample PUSH, every triggered cycle, POP. It ends
with LEN samples pushed and LEN popped, whatever the ratio and the mode. -/
def Obligations.ProcessRunsTheBlockLoop : Prop :=
  ∀ (s : State) (len : Nat) (rest : List Word), s.Inv → s.configured = true → s.inbox = [] → s.running = none →
    s.halted = false → s.pending = false → len ≤ s.build.bmax → len < 65536 → s.inAcc.toNat < 3 * s.n + s.n / 4 →
    s.cmdq = encode (.process len) :: rest →
      ∃ steps t, Host.Core.run Sys2Proof.core steps s = .next t ∧
        t = (processEffect len { s with cmdq := rest }).complete ∧
        t.pushCount = s.pushCount + BitVec.ofNat 32 len ∧ t.popCount = s.popCount + BitVec.ofNat 32 len

/-! ### Invariants -/

/-- The invariant holds right after reset. -/
def Obligations.ResetSatisfiesTheInvariant : Prop := State.reset.Inv ∧ State.reset.TablesInv

/-- Every step keeps the invariant, from every state that has it: whatever the host writes and however its accesses and
the engine's steps interleave. -/
def Obligations.EveryStepKeepsTheInvariant : Prop := ∀ s t : State, s.Inv → step s = .next t → t.Inv

/-- Every step keeps WIN and OMEGA what the last successful reconfiguration wrote (R55, R56): the host cannot write them
and no leaf does. -/
def Obligations.EveryStepKeepsTheTables : Prop := ∀ s t : State, s.Inv → s.TablesInv → step s = .next t → t.TablesInv

/-- R159: where as many samples have been popped as pushed, OUT_WR - OUT_RD is 2N - IN_ACC modulo C. -/
def Obligations.CursorDistanceAfterPop : Prop :=
  ∀ s : State, s.Inv → s.configured = true → s.popCount = s.pushCount →
    ((s.outWr.toNat : Int) - s.outRd.toNat) % (4 * s.n : Nat) = ((2 * s.n : Nat) - (s.inAcc.toNat : Int)) % (4 * s.n : Nat)

/-! ### Host interface (20_memory.md, 10_state.md) -/

/-- R66 and the `reset` column: what a host read of each register of the map returns right after reset, in any legal
build; and every listed register is there. -/
def Obligations.RegistersReadTheirResetValues : Prop :=
  ∀ b : Build, b.legal →
    ∀ p ∈ [(0x000, 0x50564531), (0x004, 0x00010000), (0x008, b.cmdqDepth * 2 ^ 16 + b.chmax * 2 ^ 8 + b.log2nmax),
        (0x00C, b.bmax), (0x010, 0), (0x014, 0), (0x018, 0), (0x01C, 0), (0x020, 0), (0x024, 0), (0x028, 0), (0x02C, 0),
        (0x030, min 11 b.log2nmax), (0x034, 1), (0x038, 44100), (0x03C, 0), (0x040, 0x10000000), (0x044, 2),
        (0x048, 0x9E3779B9)] ++
        [(0x080, 0), (0x084, 0), (0x088, 0), (0x08C, 0), (0x090, 0), (0x094, 0), (0x098, 0), (0x09C, 0x10000000),
        (0x0A0, 0), (0x0A4, 0x10000000), (0x0A8, 0), (0x0AC, 0), (0x0B0, 0), (0x0B4, 0x9E3779B9), (0x0C0, 0), (0x0C4, 0),
        (0x0C8, 0), (0x0CC, 0), (0x0D0, 0), (0x0E0, 0), (0x0E4, 0), (0x0E8, 0), (0x0EC, 0), (0x0F0, 0), (0x0F4, 0)],
      hostRead (b.base + p.1) 4 (State.resetOf b) =
        .next { State.resetOf b with replies := [BitVec.ofNat 32 p.2] }

/-- R36: each field of STATUS at its bits, and the reserved bits 0. And, in every state: what a host read of each
register of the map returns (R33 to R53, R68; the codes of R250 and R41), that a read changes nothing but the model's list
of replies, and that an unlisted word of the register block reads 0 without a bus error (R32). -/
def Obligations.StatusShowsItsFields : Prop :=
  ∀ (s : State) (errCode mode cycMode : Nat),
    (s.errCode, errCode) ∈ [(.noError, 0), (.illegalOpcode, 1), (.reservedField, 2), (.notConfigured, 3),
      (.configInvalid, 4), (.badChannel, 5), (.badBin, 6), (.badStage, 7), (.badIndex, 8), (.accUnderflow, 9),
      (.inOverrun, 10), (.fifoOverflow, 11)] →
    (s.mode, mode) ∈ [(.pitchShift, 0), (.robotize, 1), (.whisperize, 2)] →
    (s.cycMode, cycMode) ∈ [(.pitchShift, 0), (.robotize, 1), (.whisperize, 2)] →
    (s.cmdq.length ≤ 256 →
      s.statusWord.toNat =
        s.running.isSome.toNat + 2 * s.halted.toNat + 4 * s.configured.toNat + 8 * s.pending.toNat + 16 * s.pending.toNat +
          64 * s.ovf.toNat + 256 * s.cmdq.length + 2 ^ 17 * (decide (s.cmdq.length = s.build.cmdqDepth)).toNat) ∧
    (s.build.legal →
      ∀ p ∈ [(0x008, s.build.cmdqDepth * 2 ^ 16 + s.build.chmax * 2 ^ 8 + s.build.log2nmax), (0x00C, s.build.bmax)],
        hostRead (s.build.base + p.1) 4 s = .next { s with replies := s.replies ++ [BitVec.ofNat 32 p.2] }) ∧
    (∀ p ∈ [(0x000, 0x50564531), (0x004, 0x00010000), (0x010, s.pending.toNat), (0x014, s.statusWord.toNat),
        (0x018, errCode), (0x01C, s.errCmd.toNat), (0x020, s.irqStatus.toNat), (0x024, s.irqEnable.toNat), (0x028, 0),
        (0x02C, s.satFlags.toNat), (0x030, s.cfgLog2n.toNat), (0x034, s.cfgChannels.toNat),
        (0x038, s.cfgSampleRate.toNat), (0x03C, mode), (0x040, s.pitchTarget.toNat), (0x044, s.smoothShift.toNat),
        (0x048, s.prngSeed.toNat)] ++
        [(0x080, s.actLog2n.toNat), (0x084, s.actChannels.toNat), (0x088, s.actSampleRate.toNat), (0x08C, s.ha.toNat),
        (0x090, s.ringCap.toNat), (0x094, s.wss.toNat % 2 ^ 32), (0x098, s.wss.toNat / 2 ^ 32),
        (0x09C, s.pitchCurrent.toNat), (0x0A0, cycMode), (0x0A4, s.cycRatio.toNat), (0x0A8, s.hs.toNat),
        (0x0AC, s.rlen.toNat), (0x0B0, s.norm.toNat), (0x0B4, s.prngState.toNat), (0x0C0, s.inWr.toNat),
        (0x0C4, s.inRd.toNat), (0x0C8, s.inAcc.toNat), (0x0CC, s.outWr.toNat), (0x0D0, s.outRd.toNat),
        (0x0E0, s.cycleCount.toNat), (0x0E4, s.pushCount.toNat), (0x0E8, s.popCount.toNat), (0x0EC, s.cmdCount.toNat),
        (0x0F0, s.markTag.toNat), (0x0F4, s.buserrAddr.toNat)],
      hostRead (s.build.base + p.1) 4 s = .next { s with replies := s.replies ++ [BitVec.ofNat 32 p.2] }) ∧
    (∀ off < 0x400, off % 4 = 0 →
      (0x04C ≤ off ∧ off < 0x080) ∨ off = 0x0B8 ∨ off = 0x0BC ∨ (0x0D4 ≤ off ∧ off < 0x0E0) ∨ 0x0F8 ≤ off →
        hostRead (s.build.base + off) 4 s = .next { s with replies := s.replies ++ [0#32] })

/-- R261: the interrupt output is the OR over the five bits of pending AND enabled. -/
def Obligations.InterruptOutputIsPendingAndEnabled : Prop :=
  ∀ s : State, s.irq = true ↔ ∃ i < 5, s.irqStatus.getLsbD i = true ∧ s.irqEnable.getLsbD i = true

/-- R32, R38, R40 to R45: what a host write of each writable control register stores, that it writes nothing else, and
that a write of a read-only register changes nothing. A host write at a register's offset of the map is that write; one
at an unlisted offset of the register block changes nothing, without a bus error. -/
def Obligations.ControlRegisterWrites : Prop :=
  ∀ (s : State) (v : Word),
    Reg.irqStatus.write s v = { s with irqStatus := s.irqStatus &&& ~~~(v.extractLsb' 0 5) } ∧
      Reg.irqEnable.write s v = { s with irqEnable := v.extractLsb' 0 5 } ∧
      Reg.satFlags.write s v = { s with satFlags := s.satFlags &&& ~~~(v.extractLsb' 0 3) } ∧
      Reg.cfgLog2n.write s v = { s with cfgLog2n := v.extractLsb' 0 4 } ∧
      Reg.cfgChannels.write s v = { s with cfgChannels := v.extractLsb' 0 5 } ∧
      Reg.cfgSampleRate.write s v = { s with cfgSampleRate := v } ∧
      Reg.smoothShift.write s v = { s with smoothShift := v.extractLsb' 0 4 } ∧
      (∃ w : Word, Reg.pitchTarget.write s v = { s with pitchTarget := w } ∧
        w.toNat = min (max v.toNat 0x08000000) 0x20000000) ∧
      Reg.prngSeed.write s v = (if v = 0#32 then s else { s with prngSeed := v }) ∧
      (v.toNat % 4 = 0 → Reg.mode.write s v = { s with mode := .pitchShift }) ∧
      (v.toNat % 4 = 1 → Reg.mode.write s v = { s with mode := .robotize }) ∧
      (v.toNat % 4 = 2 → Reg.mode.write s v = { s with mode := .whisperize }) ∧
      (v.toNat % 4 = 3 → Reg.mode.write s v = s) ∧
      (∀ r : Reg, r ∉ [.ctrl, .irqStatus, .irqEnable, .cmd, .satFlags, .cfgLog2n, .cfgChannels, .cfgSampleRate, .mode,
        .pitchTarget, .smoothShift, .prngSeed] → r.write s v = s) ∧
      (∀ p ∈ [(0x000, Reg.id), (0x004, .version), (0x008, .param0), (0x00C, .param1), (0x010, .ctrl), (0x014, .status),
          (0x018, .errCode), (0x01C, .errCmd), (0x020, .irqStatus), (0x024, .irqEnable), (0x028, .cmd),
          (0x02C, .satFlags), (0x030, .cfgLog2n), (0x034, .cfgChannels), (0x038, .cfgSampleRate), (0x03C, .mode),
          (0x040, .pitchTarget), (0x044, .smoothShift), (0x048, .prngSeed)] ++
          [(0x080, .actLog2n), (0x084, .actChannels), (0x088, .actSampleRate), (0x08C, .ha), (0x090, .ringCap),
          (0x094, .wssLo), (0x098, .wssHi), (0x09C, .pitchCurrent), (0x0A0, .cycMode), (0x0A4, .cycRatio), (0x0A8, .hs),
          (0x0AC, .rlen), (0x0B0, .norm), (0x0B4, .prngState), (0x0C0, .inWr), (0x0C4, .inRd), (0x0C8, .inAcc),
          (0x0CC, .outWr), (0x0D0, .outRd), (0x0E0, .cycleCount), (0x0E4, .pushCount), (0x0E8, .popCount),
          (0x0EC, .cmdCount), (0x0F0, .markTag), (0x0F4, .buserrAddr)],
        hostWrite (s.build.base + p.1) 4 v s = .next (p.2.write s v)) ∧
      (∀ off < 0x400, off % 4 = 0 →
        (0x04C ≤ off ∧ off < 0x080) ∨ off = 0x0B8 ∨ off = 0x0BC ∨ (0x0D4 ≤ off ∧ off < 0x0E0) ∨ 0x0F8 ≤ off →
          hostWrite (s.build.base + off) 4 v s = .next s)

/-- R35: a host write of CTRL: SRST alone if set, else FLUSH, then RESUME, then RECONF_REQ. -/
def Obligations.CtrlWriteActsInOrder : Prop :=
  ∀ (s : State) (v : Word),
    hostWrite (s.build.base + 0x010) 4 v s = .next (Reg.ctrl.write s v) ∧
      (v.getLsbD 3 = true → Reg.ctrl.write s v = s.softReset) ∧
      (v.getLsbD 3 = false →
        Reg.ctrl.write s v =
          { s with
            cmdq := if v.getLsbD 1 then [] else s.cmdq
            halted := if v.getLsbD 2 then false else s.halted
            ovf := if v.getLsbD 2 then false else s.ovf
            pending := if v.getLsbD 0 then true else s.pending })

/-- R39, R254: a host write of CMD joins the tail of CMDQ, or, with CMDQ full, is dropped and halts the engine; CMD
reads as 0. -/
def Obligations.CmdWriteQueuesOrOverflows : Prop :=
  ∀ (s : State) (w : Word),
    Reg.cmd.read s = 0#32 ∧
      hostRead (s.build.base + 0x028) 4 s = .next { s with replies := s.replies ++ [0#32] } ∧
      hostWrite (s.build.base + 0x028) 4 w s = .next (Reg.cmd.write s w) ∧
      (s.cmdq.length < s.build.cmdqDepth → Reg.cmd.write s w = { s with cmdq := s.cmdq ++ [w] }) ∧
      (s.cmdq.length = s.build.cmdqDepth → s.halted = false →
        Reg.cmd.write s w =
          { s with ovf := true, errCode := .fifoOverflow, errCmd := w, halted := true
                   irqStatus := s.irqStatus ||| 0b00100#5 }) ∧
      (s.cmdq.length = s.build.cmdqDepth → s.halted = true →
        Reg.cmd.write s w = { s with ovf := true, irqStatus := s.irqStatus ||| 0b00100#5 })

/-- R71, R72, R73, R76: which host accesses inside the window are bus errors. `w` is the word index in region `r`. -/
def Obligations.BusErrorsAreTheAccessesOfR76 : Prop :=
  ∀ (s : State) (addr size off r w nmax ch bmax : Nat) (isWrite : Bool),
    s.build.legal → s.inWindow addr = true → off = addr - s.build.base → r = off / 2 ^ 24 → w = off % 2 ^ 24 / 4 →
    nmax = 2 ^ s.build.log2nmax → ch = s.build.chmax → bmax = s.build.bmax →
      (s.reach addr size isWrite = none ↔
        size ≠ 4 ∨ addr % 4 ≠ 0 ∨ (1 ≤ r ∧ r ≤ 11 ∧ s.running.isSome = true) ∨
          (isWrite = true ∧ 1 ≤ r ∧ r ≤ 3) ∨
          ¬ ((r = 0 ∧ off < 0x400) ∨ (r = 1 ∧ w / 2 < nmax / 2) ∨ (r = 2 ∧ w < nmax) ∨ (r = 3 ∧ w ≤ nmax / 2) ∨
            (4 ≤ r ∧ r ≤ 6 ∧ w / 2 ^ 15 < ch ∧ w % 2 ^ 15 ≤ nmax / 2) ∨ (r = 7 ∧ w / 2 < nmax) ∨ (r = 8 ∧ w < 2 * nmax) ∨
            (9 ≤ r ∧ r ≤ 10 ∧ w / 2 ^ 17 < ch ∧ w % 2 ^ 17 < 4 * nmax) ∨
            (r = 11 ∧ w / 2 ^ 16 < ch ∧ w % 2 ^ 16 < bmax)))

/-- R255: a bus error sets IRQ_STATUS.BUSERR and BUSERR_ADDR, a read returns 0, and nothing else changes. -/
def Obligations.BusErrorEffects : Prop :=
  ∀ (s : State) (addr size : Nat) (v : Word), s.inWindow addr = true →
    (s.reach addr size true = none →
      hostWrite addr size v s =
        .next { s with
          irqStatus := s.irqStatus ||| 0b10000#5, buserrAddr := BitVec.ofNat 28 ((addr - s.build.base) % 2 ^ 28) }) ∧
      (s.reach addr size false = none →
        hostRead addr size s =
          .next { s with
            irqStatus := s.irqStatus ||| 0b10000#5, buserrAddr := BitVec.ofNat 28 ((addr - s.build.base) % 2 ^ 28)
            replies := s.replies ++ [0#32] })

/-- R74, R75, R77: a word written to a populated read/write array word reads back, and no byte outside the four at its
offset changes. Every populated array word, WIN and OMEGA among them, reads as the word at its offset, and a word of the
twiddle ROM as its entry of the table (R54). The offset of each element is R73's: region r, word w, at r * 2^24 + 4 * w,
with w as the table has it for the array. -/
def Obligations.ArrayWordsReadBack : Prop :=
  (∀ c k : Nat,
    ((Elem.win k).offset = 0x02000000 + 4 * k ∧ (Elem.omega k).offset = 0x03000000 + 4 * k) ∧
    ((Elem.phprev c k).offset = 0x04000000 + 4 * (c * 2 ^ 15 + k) ∧
      (Elem.synph c k).offset = 0x05000000 + 4 * (c * 2 ^ 15 + k) ∧
      (Elem.mag c k).offset = 0x06000000 + 4 * (c * 2 ^ 15 + k)) ∧
    ((Elem.scrRe k).offset = 0x07000000 + 4 * (2 * k) ∧ (Elem.scrIm k).offset = 0x07000000 + 4 * (2 * k + 1) ∧
      (Elem.rs k).offset = 0x08000000 + 4 * k) ∧
    (Elem.inring c k).offset = 0x09000000 + 4 * (c * 2 ^ 17 + k) ∧
    (Elem.outring c k).offset = 0x0A000000 + 4 * (c * 2 ^ 17 + k) ∧
    (Elem.iobuf c k).offset = 0x0B000000 + 4 * (c * 2 ^ 16 + k)) ∧
  ∀ (s : State) (addr j : Nat) (v : Word) (e : Elem), s.build.legal → s.inWindow addr = true →
    (s.reach addr 4 true = some (.elem e) →
      ∃ m : Memory,
        hostWrite addr 4 v s = .next { s with mem := m } ∧
        hostRead addr 4 { s with mem := m } = .next { s with mem := m, replies := s.replies ++ [v] } ∧
        (∀ b < 4, m.readByte (addr - s.build.base + b) = v.extractLsb' (8 * b) 8) ∧
        (∀ a, a < addr - s.build.base ∨ addr - s.build.base + 4 ≤ a → m.readByte a = s.mem.readByte a)) ∧
    (s.reach addr 4 false = some (.elem e) →
      e.offset = addr - s.build.base ∧ hostRead addr 4 s = .next { s with replies := s.replies ++ [s.mem.get e] }) ∧
    (s.reach addr 4 false = some (.twr j) →
      addr - s.build.base = 0x01000000 + 8 * j ∧
        hostRead addr 4 s = .next { s with replies := s.replies ++ [BitVec.ofInt 32 (twiddleRe s.build j)] }) ∧
    (s.reach addr 4 false = some (.twi j) →
      addr - s.build.base = 0x01000000 + 8 * j + 4 ∧
        hostRead addr 4 s = .next { s with replies := s.replies ++ [BitVec.ofInt 32 (twiddleIm s.build j)] })

/-- R302, R301: soft reset gives every register its reset value and keeps the arrays; hardware reset does the same and
leaves the arrays unspecified. -/
def Obligations.ResetsRestoreTheRegisters : Prop :=
  ∀ s : State,
    s.softReset = { State.resetOf s.build with mem := s.mem, inbox := s.inbox, replies := s.replies } ∧
      s.hardReset.mem.cells = [] ∧ s.hardReset.mem.cleared = false ∧
      s.hardReset = { s.softReset with mem := s.hardReset.mem }

/-! ### Numeric primitives (00_scope.md) -/

/-- R7, R8, R10: rshr rounds to nearest, ties up; wrap32 is the congruent value in [-2^31, 2^31); sat32 clips exactly
outside the word's range, and clipping sets its bit of SATFLAGS and nothing else; rsqrt is the nearest integer to the square root. -/
def Obligations.NumericPrimitives : Prop :=
  (∀ (x : Int) (k : Nat), 1 ≤ k → rshr x k * 2 ^ k ≤ x + 2 ^ (k - 1) ∧ x + 2 ^ (k - 1) < (rshr x k + 1) * 2 ^ k) ∧
    (∀ x : Int, -2 ^ 31 ≤ wrap32 x ∧ wrap32 x < 2 ^ 31 ∧ (wrap32 x - x) % 2 ^ 32 = 0) ∧
    (∀ x : Int, (sat32 x = if 2 ^ 31 - 1 < x then 2 ^ 31 - 1 else if x < -2 ^ 31 then -2 ^ 31 else x) ∧
      (clips x = true ↔ sat32 x ≠ x)) ∧
    (∀ (s : State) (F : BitVec 3) (x : Int),
      s.flagSat F (clips x) = if 2 ^ 31 - 1 < x ∨ x < -2 ^ 31 then { s with satFlags := s.satFlags ||| F } else s) ∧
    (∀ m : Nat, ((m = 0 ∧ rsqrt m = 0) ∨ rsqrt m * (rsqrt m - 1) < m) ∧ m ≤ rsqrt m * (rsqrt m + 1))

/-- R9: where the interval test settles within the fuel, `roundExact` is the real number's own rounding, floor(x + 1/2),
whatever the approximation, as long as it keeps its error bound at the precisions tried: p, 2p, 4p and so on up to one
where the test settles. (That the bounds of `Numeric.lean` hold and that the
test always settles there is log entry 4.) -/
def Obligations.RoundingIsExactWhereItSettles : Prop :=
  ∀ (x : ℝ) (approx : Nat → Int) (err : Nat → Nat) (fuel p : Nat), 1 ≤ p →
    (∃ j < fuel,
      rshr (approx (2 ^ j * p) - err (2 ^ j * p)) (2 ^ j * p) = rshr (approx (2 ^ j * p) + err (2 ^ j * p)) (2 ^ j * p) ∧
        ∀ i ≤ j, |(approx (2 ^ i * p) : ℝ) - x * 2 ^ (2 ^ i * p)| ≤ err (2 ^ i * p)) →
    roundExact approx err fuel p = ⌊x + 1 / 2⌋

/-- R20, R54: the trigonometric products at the multiples of a quarter turn, where they are exact, and the quadrant
symmetries that give every other angle from the first quadrant. R11: atan2b at the origin, on the axes and on the
diagonals, where it is exact (+pi wraps to -2^31); its range; and the symmetries that give every other argument from the
octant 0 < y < x. Negating y negates the result modulo 2^32, and so exactly unless the result is -2^31, which is its own
negative there: so it is on the negative real axis, and where an angle beside it rounds to half a turn. -/
def Obligations.TrigonometricQuadrants : Prop :=
  (∀ (m : Nat) (theta : Int),
    (mcos m 0 = m ∧ msin m 0 = 0 ∧ mcos m (2 ^ 30) = 0 ∧ msin m (2 ^ 30) = m ∧ mcos m (-2 ^ 31) = -m ∧
      msin m (-2 ^ 31) = 0 ∧ mcos m (-2 ^ 30) = 0 ∧ msin m (-2 ^ 30) = -m) ∧
    mcos m (theta + 2 ^ 31) = -mcos m theta ∧ msin m (theta + 2 ^ 31) = -msin m theta ∧
    msin m (theta + 2 ^ 30) = mcos m theta ∧ mcos m (theta + 2 ^ 32) = mcos m theta) ∧
  atan2b 0 0 = 0 ∧
  (∀ x : Int, 0 < x →
    (atan2b 0 x = 0 ∧ atan2b x 0 = 2 ^ 30 ∧ atan2b 0 (-x) = -2 ^ 31 ∧ atan2b (-x) 0 = -2 ^ 30) ∧
    (atan2b x x = 2 ^ 29 ∧ atan2b x (-x) = 3 * 2 ^ 29 ∧ atan2b (-x) (-x) = -(3 * 2 ^ 29) ∧ atan2b (-x) x = -2 ^ 29)) ∧
  (∀ y x : Int,
    (-2 ^ 31 ≤ atan2b y x ∧ atan2b y x < 2 ^ 31) ∧
    (atan2b y x ≠ -2 ^ 31 → atan2b (-y) x = -atan2b y x) ∧ (atan2b y x = -2 ^ 31 → atan2b (-y) x = -2 ^ 31) ∧
    (0 < x → atan2b y (-x) = wrap32 (2 ^ 31 - atan2b y x)) ∧
    (0 < x → 0 < y → atan2b x y = 2 ^ 30 - atan2b y x ∧ 0 ≤ atan2b y x ∧ atan2b y x ≤ 2 ^ 30))
end

