-- ==== Sys2Proof/Laws/Bus.lean ====
section
/-! SUPPORT. What a host access of the register block does, said once: it reaches the register the map lists at its
offset, or an unlisted word, and never a bus error (R32, R76). -/

namespace Sys2Proof.Machine

/-- What the register block holds at an offset (R32). -/
def registerTarget (off : Nat) : Target :=
  match regAt off with
  | some r => .reg r
  | none => .unlisted

theorem State.inWindow_registerBlock (s : State) {off : Nat} (h : off < 0x400) :
    s.inWindow (s.build.base + off) = true := by
  simp only [State.inWindow, Bool.and_eq_true, decide_eq_true_eq]
  omega

/-- A word access of the register block is never a bus error, in any build, whatever executes (R32, R76). -/
theorem State.reach_registerBlock (s : State) {off : Nat} (isWrite : Bool) (h : off < 0x400) (h4 : off % 4 = 0) :
    s.reach (s.build.base + off) 4 isWrite = some (registerTarget off) := by
  have hbase : s.build.base % 4 = 0 := by unfold Build.base; omega
  have hoff : s.build.base + off - s.build.base = off := by omega
  unfold State.reach
  rw [hoff, if_neg (by omega)]
  simp only [inArrayRegion, show ¬ 2 ^ 24 ≤ off by omega, decide_false, Bool.false_and, Bool.false_eq_true, if_false,
    targetAt, show off < 2 ^ 24 by omega, if_true, h]
  unfold registerTarget
  cases regAt off <;> simp [Target.readOnlyArray]

/-- A host read of the register block. -/
theorem hostRead_registerBlock (s : State) {off : Nat} (h : off < 0x400) (h4 : off % 4 = 0) :
    hostRead (s.build.base + off) 4 s = .next (s.reply ((registerTarget off).read s)) := by
  unfold hostRead
  rw [if_pos (s.inWindow_registerBlock h), s.reach_registerBlock false h h4]

/-- A host write of the register block. -/
theorem hostWrite_registerBlock (s : State) {off : Nat} (v : Word) (h : off < 0x400) (h4 : off % 4 = 0) :
    hostWrite (s.build.base + off) 4 v s = .next ((registerTarget off).write s v) := by
  unfold hostWrite
  rw [if_pos (s.inWindow_registerBlock h), s.reach_registerBlock true h h4]

end Sys2Proof.Machine
end

