-- ==== Sys2Proof/Laws/Memory.lean ====
section
/-! SUPPORT. The laws of the arrays' memory: read after write at one byte and one word, the canonical form is kept, the
elements' offsets do not meet, and what a loop of writes can do. -/

namespace Sys2Proof.Machine

/-! ### Cells -/

theorem findCell_putCell_same (l : List Host.Cell) (a : Nat) (b : Byte) : findCell (putCell l a b) a = some b := by
  induction l with
  | nil => simp [putCell, findCell]
  | cons c rest ih =>
    obtain ⟨k, v⟩ := c
    simp only [putCell]
    split
    · simp [findCell]
    · split
      · simp [findCell]
      · rename_i h1 h2
        simp [findCell, show k ≠ a by omega, ih]

theorem findCell_putCell_other (l : List Host.Cell) {a a' : Nat} (b : Byte) (h : a' ≠ a) :
    findCell (putCell l a b) a' = findCell l a' := by
  induction l with
  | nil => simp [putCell, findCell, show a ≠ a' by omega]
  | cons c rest ih =>
    obtain ⟨k, v⟩ := c
    simp only [putCell]
    split
    · simp [findCell, show a ≠ a' by omega]
    · split
      · rename_i h1 h2
        subst h2
        simp [findCell, show a ≠ a' by omega]
      · simp [findCell, ih]

theorem findCell_dropCell_same (l : List Host.Cell) (a : Nat) : findCell (dropCell l a) a = none := by
  induction l with
  | nil => rfl
  | cons c rest ih =>
    obtain ⟨k, v⟩ := c
    simp only [dropCell]
    split
    · exact ih
    · rename_i h
      simp [findCell, h, ih]

theorem findCell_dropCell_other (l : List Host.Cell) {a a' : Nat} (h : a' ≠ a) :
    findCell (dropCell l a) a' = findCell l a' := by
  induction l with
  | nil => rfl
  | cons c rest ih =>
    obtain ⟨k, v⟩ := c
    simp only [dropCell]
    split
    · rename_i hk
      subst hk
      simp [findCell, show k ≠ a' by omega, ih]
    · simp [findCell, ih]

/-! ### Bytes -/

@[simp] theorem Memory.writeByte_cleared (m : Memory) (a : Nat) (b : Byte) : (m.writeByte a b).cleared = m.cleared := rfl

@[simp] theorem Memory.writeByte_powerOn (m : Memory) (a : Nat) (b : Byte) : (m.writeByte a b).powerOn = m.powerOn := rfl

@[simp] theorem Memory.unlisted_writeByte (m : Memory) (a a' : Nat) (b : Byte) :
    (m.writeByte a b).unlisted a' = m.unlisted a' := rfl

theorem Memory.findCell_writeByte_same (m : Memory) (a : Nat) (b : Byte) :
    findCell (m.writeByte a b).cells a = if m.unlisted a = some b then none else some b := by
  unfold Memory.writeByte
  split
  · simp [findCell_dropCell_same]
  · simp [findCell_putCell_same]

theorem Memory.findCell_writeByte_other (m : Memory) {a a' : Nat} (b : Byte) (h : a' ≠ a) :
    findCell (m.writeByte a b).cells a' = findCell m.cells a' := by
  unfold Memory.writeByte
  split
  · simp [findCell_dropCell_other _ h]
  · simp [findCell_putCell_other _ _ h]

/-- Read after write at the same byte. -/
@[simp] theorem Memory.readByte_writeByte_same (m : Memory) (a : Nat) (b : Byte) : (m.writeByte a b).readByte a = b := by
  unfold Memory.readByte
  rw [Memory.findCell_writeByte_same, Memory.unlisted_writeByte]
  by_cases h : m.unlisted a = some b <;> simp [h]

/-- A write leaves every other byte alone. -/
theorem Memory.readByte_writeByte_other (m : Memory) {a a' : Nat} (b : Byte) (h : a' ≠ a) :
    (m.writeByte a b).readByte a' = m.readByte a' := by
  unfold Memory.readByte
  rw [Memory.findCell_writeByte_other _ _ h, Memory.unlisted_writeByte, Memory.writeByte_powerOn]

/-! ### The canonical form -/

theorem cellsRiseFrom_weaken {lo lo' : Nat} {l : List Host.Cell} (h : cellsRiseFrom lo l = true) (hl : lo' ≤ lo) :
    cellsRiseFrom lo' l = true := by
  cases l with
  | nil => rfl
  | cons c rest =>
    simp only [cellsRiseFrom, Bool.and_eq_true, decide_eq_true_eq] at h ⊢
    exact ⟨by omega, h.2⟩

theorem cellsRiseFrom_putCell {lo a : Nat} {l : List Host.Cell} (b : Byte) (h : cellsRiseFrom lo l = true) (ha : lo ≤ a) :
    cellsRiseFrom lo (putCell l a b) = true := by
  induction l generalizing lo with
  | nil => simp [putCell, cellsRiseFrom, ha]
  | cons c rest ih =>
    obtain ⟨k, v⟩ := c
    simp only [cellsRiseFrom, Bool.and_eq_true, decide_eq_true_eq] at h
    simp only [putCell]
    split
    · rename_i hk
      simp only [cellsRiseFrom, Bool.and_eq_true, decide_eq_true_eq]
      exact ⟨ha, by omega, h.2⟩
    · split
      · rename_i hk
        subst hk
        simp only [cellsRiseFrom, Bool.and_eq_true, decide_eq_true_eq]
        exact ⟨ha, h.2⟩
      · simp only [cellsRiseFrom, Bool.and_eq_true, decide_eq_true_eq]
        exact ⟨h.1, ih h.2 (by omega)⟩

theorem cellsRiseFrom_dropCell {lo : Nat} {l : List Host.Cell} (a : Nat) (h : cellsRiseFrom lo l = true) :
    cellsRiseFrom lo (dropCell l a) = true := by
  induction l generalizing lo with
  | nil => rfl
  | cons c rest ih =>
    obtain ⟨k, v⟩ := c
    simp only [cellsRiseFrom, Bool.and_eq_true, decide_eq_true_eq] at h
    simp only [dropCell]
    split
    · exact cellsRiseFrom_weaken (ih h.2) (by omega)
    · simp only [cellsRiseFrom, Bool.and_eq_true, decide_eq_true_eq]
      exact ⟨h.1, ih h.2⟩

theorem cellsRiseFrom_filter {lo : Nat} {l : List Host.Cell} (p : Host.Cell → Bool) (h : cellsRiseFrom lo l = true) :
    cellsRiseFrom lo (l.filter p) = true := by
  induction l generalizing lo with
  | nil => rfl
  | cons c rest ih =>
    obtain ⟨k, v⟩ := c
    simp only [cellsRiseFrom, Bool.and_eq_true, decide_eq_true_eq] at h
    simp only [List.filter]
    split
    · simp only [cellsRiseFrom, Bool.and_eq_true, decide_eq_true_eq]
      exact ⟨h.1, ih h.2⟩
    · exact cellsRiseFrom_weaken (ih h.2) (by omega)

theorem mem_putCell {l : List Host.Cell} {a : Nat} {b : Byte} {c : Host.Cell} (h : c ∈ putCell l a b) :
    c = (a, b) ∨ c ∈ l := by
  induction l with
  | nil => simpa [putCell] using h
  | cons d rest ih =>
    obtain ⟨k, v⟩ := d
    simp only [putCell] at h
    split at h
    · simpa using h
    · split at h
      · simp only [List.mem_cons] at h ⊢
        tauto
      · simp only [List.mem_cons] at h ⊢
        rcases h with h | h
        · exact .inr (.inl h)
        · rcases ih h with h | h <;> tauto

theorem mem_dropCell {l : List Host.Cell} {a : Nat} {c : Host.Cell} (h : c ∈ dropCell l a) : c ∈ l := by
  induction l with
  | nil => exact h
  | cons d rest ih =>
    obtain ⟨k, v⟩ := d
    simp only [dropCell] at h
    split at h
    · exact List.mem_cons_of_mem _ (ih h)
    · simp only [List.mem_cons] at h ⊢
      tauto

theorem Memory.wf_iff (m : Memory) :
    m.wf = true ↔ cellsRiseFrom 0 m.cells = true ∧ ∀ c ∈ m.cells, m.unlisted c.1 ≠ some c.2 := by
  simp [Memory.wf]

/-- A byte write keeps the canonical form. -/
theorem Memory.writeByte_wf {m : Memory} (a : Nat) (b : Byte) (h : m.wf = true) : (m.writeByte a b).wf = true := by
  rw [Memory.wf_iff] at h ⊢
  obtain ⟨h1, h2⟩ := h
  simp only [Memory.unlisted_writeByte]
  unfold Memory.writeByte
  split
  · exact ⟨cellsRiseFrom_dropCell a h1, fun c hc => h2 c (mem_dropCell hc)⟩
  · rename_i hb
    refine ⟨cellsRiseFrom_putCell b h1 (Nat.zero_le a), fun c hc => ?_⟩
    rcases mem_putCell hc with rfl | hc
    · exact hb
    · exact h2 c hc

/-! ### Words -/

@[simp] theorem Memory.writeWord_cleared (m : Memory) (a : Nat) (v : Word) : (m.writeWord a v).cleared = m.cleared := rfl

@[simp] theorem Memory.writeWord_powerOn (m : Memory) (a : Nat) (v : Word) : (m.writeWord a v).powerOn = m.powerOn := rfl

/-- A word write leaves every byte outside its four alone. -/
theorem Memory.readByte_writeWord_other (m : Memory) {a a' : Nat} (v : Word) (h : a' < a ∨ a + 4 ≤ a') :
    (m.writeWord a v).readByte a' = m.readByte a' := by
  unfold Memory.writeWord
  rw [Memory.readByte_writeByte_other _ _ (by omega), Memory.readByte_writeByte_other _ _ (by omega),
    Memory.readByte_writeByte_other _ _ (by omega), Memory.readByte_writeByte_other _ _ (by omega)]

theorem bytes_of_word (v : Word) :
    v.extractLsb' 24 8 ++ (v.extractLsb' 16 8 ++ (v.extractLsb' 8 8 ++ v.extractLsb' 0 8)) = v := by
  apply BitVec.eq_of_getLsbD_eq
  intro i hi
  interval_cases i <;> simp only [BitVec.getLsbD_append, BitVec.getLsbD_extractLsb'] <;> rfl

/-- Read after write at the same word. -/
@[simp] theorem Memory.readWord_writeWord_same (m : Memory) (a : Nat) (v : Word) : (m.writeWord a v).readWord a = v := by
  have e0 : (m.writeWord a v).readByte a = v.extractLsb' 0 8 := by
    unfold Memory.writeWord
    rw [Memory.readByte_writeByte_other _ _ (by omega), Memory.readByte_writeByte_other _ _ (by omega),
      Memory.readByte_writeByte_other _ _ (by omega), Memory.readByte_writeByte_same]
  have e1 : (m.writeWord a v).readByte (a + 1) = v.extractLsb' 8 8 := by
    unfold Memory.writeWord
    rw [Memory.readByte_writeByte_other _ _ (by omega), Memory.readByte_writeByte_other _ _ (by omega),
      Memory.readByte_writeByte_same]
  have e2 : (m.writeWord a v).readByte (a + 2) = v.extractLsb' 16 8 := by
    unfold Memory.writeWord
    rw [Memory.readByte_writeByte_other _ _ (by omega), Memory.readByte_writeByte_same]
  have e3 : (m.writeWord a v).readByte (a + 3) = v.extractLsb' 24 8 := by
    unfold Memory.writeWord
    rw [Memory.readByte_writeByte_same]
  rw [Memory.readWord, e0, e1, e2, e3, bytes_of_word]

/-- Words that are equal byte by byte are equal. -/
theorem Memory.readWord_congr {m m' : Memory} {a : Nat} (h : ∀ b, a ≤ b → b < a + 4 → m'.readByte b = m.readByte b) :
    m'.readWord a = m.readWord a := by
  simp only [Memory.readWord]
  rw [h a (by omega) (by omega), h (a + 1) (by omega) (by omega), h (a + 2) (by omega) (by omega),
    h (a + 3) (by omega) (by omega)]

/-- A word write leaves every word that does not meet it alone. -/
theorem Memory.readWord_writeWord_other (m : Memory) {a a' : Nat} (v : Word) (h : a' + 4 ≤ a ∨ a + 4 ≤ a') :
    (m.writeWord a v).readWord a' = m.readWord a' :=
  Memory.readWord_congr fun b h1 h2 => Memory.readByte_writeWord_other m v (by omega)

theorem Memory.writeWord_wf {m : Memory} (a : Nat) (v : Word) (h : m.wf = true) : (m.writeWord a v).wf = true :=
  Memory.writeByte_wf _ _ (Memory.writeByte_wf _ _ (Memory.writeByte_wf _ _ (Memory.writeByte_wf _ _ h)))

/-! ### Elements -/

@[simp] theorem Memory.put_cleared (m : Memory) (e : Elem) (v : Word) : (m.put e v).cleared = m.cleared := rfl

@[simp] theorem Memory.putInt_cleared (m : Memory) (e : Elem) (x : Int) : (m.putInt e x).cleared = m.cleared := rfl

@[simp] theorem Memory.get_put_same (m : Memory) (e : Elem) (v : Word) : (m.put e v).get e = v := by
  simp [Memory.get, Memory.put]

@[simp] theorem Memory.get_putInt_same (m : Memory) (e : Elem) (x : Int) : (m.putInt e x).get e = BitVec.ofInt 32 x := by
  simp [Memory.putInt]

/-- Two elements' words do not meet. -/
abbrev Elem.Apart (e e' : Elem) : Prop := e'.offset + 4 ≤ e.offset ∨ e.offset + 4 ≤ e'.offset

theorem Memory.get_put_apart (m : Memory) {e e' : Elem} (v : Word) (h : e.Apart e') : (m.put e v).get e' = m.get e' :=
  Memory.readWord_writeWord_other m v h

theorem Memory.get_putInt_apart (m : Memory) {e e' : Elem} (x : Int) (h : e.Apart e') :
    (m.putInt e x).get e' = m.get e' := Memory.get_put_apart m _ h

theorem Memory.getInt_put_apart (m : Memory) {e e' : Elem} (v : Word) (h : e.Apart e') :
    (m.put e v).getInt e' = m.getInt e' := by simp [Memory.getInt, Memory.get_put_apart m v h]

theorem Memory.getInt_putInt_apart (m : Memory) {e e' : Elem} (x : Int) (h : e.Apart e') :
    (m.putInt e x).getInt e' = m.getInt e' := Memory.getInt_put_apart m _ h

theorem Memory.put_wf {m : Memory} (e : Elem) (v : Word) (h : m.wf = true) : (m.put e v).wf = true :=
  Memory.writeWord_wf _ _ h

theorem Memory.putInt_wf {m : Memory} (e : Elem) (x : Int) (h : m.wf = true) : (m.putInt e x).wf = true :=
  Memory.put_wf _ _ h

theorem Memory.readByte_put_other (m : Memory) {e : Elem} {a : Nat} (v : Word) (h : ¬ e.covers a) :
    (m.put e v).readByte a = m.readByte a :=
  Memory.readByte_writeWord_other m v (by unfold Elem.covers at h; omega)

theorem Memory.readByte_putInt_other (m : Memory) {e : Elem} {a : Nat} (x : Int) (h : ¬ e.covers a) :
    (m.putInt e x).readByte a = m.readByte a := Memory.readByte_put_other m _ h

/-- An element read is determined by its four bytes. -/
theorem Memory.get_congr {m m' : Memory} {e : Elem} (h : ∀ a, e.covers a → m'.readByte a = m.readByte a) :
    m'.get e = m.get e := Memory.readWord_congr fun b h1 h2 => h b ⟨h1, h2⟩

/-- Indices inside the widest dimensions R73's map leaves room for. -/
def Elem.inMap : Elem → Bool
  | .win n => decide (n < 2 ^ 22)
  | .omega k => decide (k < 2 ^ 22)
  | .phprev c k => decide (c < 2 ^ 7) && decide (k < 2 ^ 15)
  | .synph c k => decide (c < 2 ^ 7) && decide (k < 2 ^ 15)
  | .mag c k => decide (c < 2 ^ 7) && decide (k < 2 ^ 15)
  | .scrRe k => decide (k < 2 ^ 21)
  | .scrIm k => decide (k < 2 ^ 21)
  | .rs i => decide (i < 2 ^ 22)
  | .inring c a => decide (c < 2 ^ 5) && decide (a < 2 ^ 17)
  | .outring c a => decide (c < 2 ^ 5) && decide (a < 2 ^ 17)
  | .iobuf c i => decide (c < 2 ^ 6) && decide (i < 2 ^ 16)

/-- The number of the region that holds an element (R73). -/
def Elem.region : Elem → Nat
  | .win _ => 2
  | .omega _ => 3
  | .phprev _ _ => 4
  | .synph _ _ => 5
  | .mag _ _ => 6
  | .scrRe _ => 7
  | .scrIm _ => 7
  | .rs _ => 8
  | .inring _ _ => 9
  | .outring _ _ => 10
  | .iobuf _ _ => 11

/-- An element of the map lies in its region. -/
theorem Elem.offset_region {e : Elem} (h : e.inMap = true) :
    e.region * 2 ^ 24 ≤ e.offset ∧ e.offset + 4 ≤ (e.region + 1) * 2 ^ 24 := by
  cases e <;> simp only [Elem.inMap, Elem.region, Elem.offset, Bool.and_eq_true, decide_eq_true_eq] at * <;> omega

/-- Different elements of the map do not meet. -/
theorem Elem.apart_of_ne {e e' : Elem} (h : e.inMap = true) (h' : e'.inMap = true) (hne : e ≠ e') : e.Apart e' := by
  by_cases hr : e.region = e'.region
  · cases e <;> cases e' <;> simp only [Elem.region, Nat.reduceEqDiff] at hr <;>
      simp only [Elem.inMap, Elem.Apart, Elem.offset, Bool.and_eq_true, decide_eq_true_eq, ne_eq, Elem.win.injEq,
        Elem.omega.injEq, Elem.phprev.injEq, Elem.synph.injEq, Elem.mag.injEq, Elem.scrRe.injEq, Elem.scrIm.injEq,
        Elem.rs.injEq, Elem.inring.injEq, Elem.outring.injEq, Elem.iobuf.injEq] at * <;> omega
  · have h1 := Elem.offset_region h
    have h2 := Elem.offset_region h'
    unfold Elem.Apart
    rcases Nat.lt_or_gt_of_ne hr with hlt | hgt
    · have : (e.region + 1) * 2 ^ 24 ≤ e'.region * 2 ^ 24 := Nat.mul_le_mul_right _ hlt
      omega
    · have : (e'.region + 1) * 2 ^ 24 ≤ e.region * 2 ^ 24 := Nat.mul_le_mul_right _ hgt
      omega

/-! ### Clearing -/

theorem findCell_filter (l : List Host.Cell) (p : Nat → Bool) (a : Nat) :
    findCell (l.filter (fun c => p c.1)) a = if p a then findCell l a else none := by
  induction l with
  | nil => simp [findCell]
  | cons c rest ih =>
    obtain ⟨k, v⟩ := c
    simp only [List.filter]
    split
    · rename_i h
      simp only [findCell, ih]
      by_cases hk : k = a
      · subst hk; simp [h]
      · simp [hk]
    · rename_i h
      rw [ih]
      by_cases hk : k = a
      · subst hk; simp [h]
      · simp [findCell, hk]

@[simp] theorem Memory.clear_cleared (m : Memory) : m.clear.cleared = true := rfl

/-- After a reconfiguration's clearing every byte of WIN to OUTRING reads 0, and every other byte as before. -/
theorem Memory.readByte_clear (m : Memory) (a : Nat) :
    m.clear.readByte a = if inReconfigured a then 0#8 else m.readByte a := by
  unfold Memory.clear Memory.readByte Memory.unlisted
  rw [findCell_filter m.cells (fun k => !inReconfigured k) a]
  by_cases h : inReconfigured a
  · simp [h]
  · simp [h]

theorem Memory.clear_wf {m : Memory} (h : m.wf = true) : m.clear.wf = true := by
  rw [Memory.wf_iff] at h ⊢
  refine ⟨cellsRiseFrom_filter _ h.1, fun c hc => ?_⟩
  have h2 := (List.mem_filter.mp hc).2
  simp only [Bool.not_eq_true', Memory.unlisted] at h2 ⊢
  simp [h2]

theorem Memory.afterPowerOn_wf (d : Nat) : (Memory.afterPowerOn d).wf = true := rfl

/-! ### Loops -/

@[simp] theorem forRange_zero {σ : Type} (f : Nat → σ → σ) (s : σ) : forRange 0 f s = s := rfl

theorem forRange_succ {σ : Type} (n : Nat) (f : Nat → σ → σ) (s : σ) : forRange (n + 1) f s = f n (forRange n f s) := rfl

/-- What holds before a loop and is kept by each turn holds after it. -/
theorem forRange_keeps {σ : Type} {P : σ → Prop} {n : Nat} {f : Nat → σ → σ} {s : σ} (h0 : P s)
    (hs : ∀ i t, i < n → P t → P (f i t)) : P (forRange n f s) := by
  induction n with
  | zero => exact h0
  | succ n ih => exact hs n _ (by omega) (ih fun i t hi => hs i t (by omega))

/-- A loop invariant that mentions how many turns are done. -/
theorem forRange_invariant {σ : Type} {P : Nat → σ → Prop} {n : Nat} {f : Nat → σ → σ} {s : σ} (h0 : P 0 s)
    (hs : ∀ i t, i < n → P i t → P (i + 1) (f i t)) : P n (forRange n f s) := by
  induction n with
  | zero => exact h0
  | succ n ih => exact hs n _ (by omega) (ih fun i t hi => hs i t (by omega))

/-- Loops whose turns agree on the states that occur agree. -/
theorem forRange_congr {σ : Type} {n : Nat} {f g : Nat → σ → σ} {s : σ} (h : ∀ i t, i < n → f i t = g i t) :
    forRange n f s = forRange n g s := by
  induction n with
  | zero => rfl
  | succ n ih => rw [forRange_succ, forRange_succ, ih fun i t hi => h i t (by omega), h n _ (by omega)]

/-- The last turn comes first: a loop of `n + 1` turns is its first turn and then the others. -/
theorem forRange_front {σ : Type} (n : Nat) (f : Nat → σ → σ) (s : σ) :
    forRange (n + 1) f s = forRange n (fun i => f (i + 1)) (f 0 s) := by
  induction n with
  | zero => rfl
  | succ n ih => rw [forRange_succ, ih]; rfl

/-- A loop that leaves a byte alone in each turn leaves it alone. -/
theorem forRange_readByte {n a : Nat} {f : Nat → Memory → Memory} {m : Memory}
    (h : ∀ i m, i < n → (f i m).readByte a = m.readByte a) : (forRange n f m).readByte a = m.readByte a :=
  forRange_keeps (P := fun m' => m'.readByte a = m.readByte a) rfl fun i t hi ht => (h i t hi).trans ht

/-- A loop of writes, one element a turn, leaves the bytes of those elements' complement alone. -/
theorem forRange_get_apart {n : Nat} {f : Nat → Memory → Memory} {m : Memory} {e : Elem}
    (h : ∀ i m, i < n → (f i m).get e = m.get e) : (forRange n f m).get e = m.get e :=
  forRange_keeps (P := fun m' => m'.get e = m.get e) rfl fun i t hi ht => (h i t hi).trans ht

/-- A loop that writes element `e j` in turn `j` and leaves it alone in the later turns: it holds what turn `j` wrote. -/
theorem forRange_get_written {σ : Type} {n j : Nat} {f : Nat → σ → σ} {get : σ → Word} {s : σ} {v : Word} (hj : j < n)
    (hw : get (f j (forRange j f s)) = v) (hk : ∀ i t, j < i → i < n → get (f i t) = get t) :
    get (forRange n f s) = v := by
  induction n with
  | zero => omega
  | succ n ih =>
    rw [forRange_succ]
    by_cases h : j = n
    · subst h; exact hw
    · rw [hk n _ (by omega) (by omega)]
      exact ih (by omega) fun i t h1 h2 => hk i t h1 (by omega)

/-- The tables are written over a memory without leaving its canonical form. -/
theorem Memory.writeTables_wf {m : Memory} (n : Nat) (h : m.wf = true) : (m.writeTables n).wf = true :=
  forRange_keeps (P := fun m : Memory => m.wf = true) (forRange_keeps (P := fun m : Memory => m.wf = true) h fun _ _ _ => Memory.put_wf _ _)
    fun _ _ _ => Memory.put_wf _ _

@[simp] theorem Memory.writeTables_cleared (m : Memory) (n : Nat) : (m.writeTables n).cleared = m.cleared :=
  forRange_keeps (P := fun m' : Memory => m'.cleared = m.cleared)
    (forRange_keeps (P := fun m' : Memory => m'.cleared = m.cleared) rfl fun _ _ _ h => h) fun _ _ _ h => h

end Sys2Proof.Machine
end

