-- ==== Sys2Proof/Laws/State.lean ====
section
/-! SUPPORT. One lemma per field per named update of State: what the update leaves in that field. -/

namespace Sys2Proof.Machine

/-! ### Replacing the arrays changes nothing else. -/

@[simp] theorem State.setMem_build (s : State) (m : Memory) : (s.setMem m).build = s.build := rfl
@[simp] theorem State.setMem_pending (s : State) (m : Memory) : (s.setMem m).pending = s.pending := rfl
@[simp] theorem State.setMem_configured (s : State) (m : Memory) : (s.setMem m).configured = s.configured := rfl
@[simp] theorem State.setMem_halted (s : State) (m : Memory) : (s.setMem m).halted = s.halted := rfl
@[simp] theorem State.setMem_ovf (s : State) (m : Memory) : (s.setMem m).ovf = s.ovf := rfl
@[simp] theorem State.setMem_errCode (s : State) (m : Memory) : (s.setMem m).errCode = s.errCode := rfl
@[simp] theorem State.setMem_errCmd (s : State) (m : Memory) : (s.setMem m).errCmd = s.errCmd := rfl
@[simp] theorem State.setMem_irqStatus (s : State) (m : Memory) : (s.setMem m).irqStatus = s.irqStatus := rfl
@[simp] theorem State.setMem_irqEnable (s : State) (m : Memory) : (s.setMem m).irqEnable = s.irqEnable := rfl
@[simp] theorem State.setMem_satFlags (s : State) (m : Memory) : (s.setMem m).satFlags = s.satFlags := rfl
@[simp] theorem State.setMem_cfgLog2n (s : State) (m : Memory) : (s.setMem m).cfgLog2n = s.cfgLog2n := rfl
@[simp] theorem State.setMem_cfgChannels (s : State) (m : Memory) : (s.setMem m).cfgChannels = s.cfgChannels := rfl
@[simp] theorem State.setMem_cfgSampleRate (s : State) (m : Memory) :
    (s.setMem m).cfgSampleRate = s.cfgSampleRate := rfl
@[simp] theorem State.setMem_mode (s : State) (m : Memory) : (s.setMem m).mode = s.mode := rfl
@[simp] theorem State.setMem_pitchTarget (s : State) (m : Memory) : (s.setMem m).pitchTarget = s.pitchTarget := rfl
@[simp] theorem State.setMem_smoothShift (s : State) (m : Memory) : (s.setMem m).smoothShift = s.smoothShift := rfl
@[simp] theorem State.setMem_prngSeed (s : State) (m : Memory) : (s.setMem m).prngSeed = s.prngSeed := rfl
@[simp] theorem State.setMem_actLog2n (s : State) (m : Memory) : (s.setMem m).actLog2n = s.actLog2n := rfl
@[simp] theorem State.setMem_actChannels (s : State) (m : Memory) : (s.setMem m).actChannels = s.actChannels := rfl
@[simp] theorem State.setMem_actSampleRate (s : State) (m : Memory) :
    (s.setMem m).actSampleRate = s.actSampleRate := rfl
@[simp] theorem State.setMem_ha (s : State) (m : Memory) : (s.setMem m).ha = s.ha := rfl
@[simp] theorem State.setMem_ringCap (s : State) (m : Memory) : (s.setMem m).ringCap = s.ringCap := rfl
@[simp] theorem State.setMem_wss (s : State) (m : Memory) : (s.setMem m).wss = s.wss := rfl
@[simp] theorem State.setMem_pitchCurrent (s : State) (m : Memory) :
    (s.setMem m).pitchCurrent = s.pitchCurrent := rfl
@[simp] theorem State.setMem_cycMode (s : State) (m : Memory) : (s.setMem m).cycMode = s.cycMode := rfl
@[simp] theorem State.setMem_cycRatio (s : State) (m : Memory) : (s.setMem m).cycRatio = s.cycRatio := rfl
@[simp] theorem State.setMem_hs (s : State) (m : Memory) : (s.setMem m).hs = s.hs := rfl
@[simp] theorem State.setMem_rlen (s : State) (m : Memory) : (s.setMem m).rlen = s.rlen := rfl
@[simp] theorem State.setMem_norm (s : State) (m : Memory) : (s.setMem m).norm = s.norm := rfl
@[simp] theorem State.setMem_prngState (s : State) (m : Memory) : (s.setMem m).prngState = s.prngState := rfl
@[simp] theorem State.setMem_inWr (s : State) (m : Memory) : (s.setMem m).inWr = s.inWr := rfl
@[simp] theorem State.setMem_inRd (s : State) (m : Memory) : (s.setMem m).inRd = s.inRd := rfl
@[simp] theorem State.setMem_inAcc (s : State) (m : Memory) : (s.setMem m).inAcc = s.inAcc := rfl
@[simp] theorem State.setMem_outWr (s : State) (m : Memory) : (s.setMem m).outWr = s.outWr := rfl
@[simp] theorem State.setMem_outRd (s : State) (m : Memory) : (s.setMem m).outRd = s.outRd := rfl
@[simp] theorem State.setMem_cycleCount (s : State) (m : Memory) : (s.setMem m).cycleCount = s.cycleCount := rfl
@[simp] theorem State.setMem_pushCount (s : State) (m : Memory) : (s.setMem m).pushCount = s.pushCount := rfl
@[simp] theorem State.setMem_popCount (s : State) (m : Memory) : (s.setMem m).popCount = s.popCount := rfl
@[simp] theorem State.setMem_cmdCount (s : State) (m : Memory) : (s.setMem m).cmdCount = s.cmdCount := rfl
@[simp] theorem State.setMem_markTag (s : State) (m : Memory) : (s.setMem m).markTag = s.markTag := rfl
@[simp] theorem State.setMem_buserrAddr (s : State) (m : Memory) : (s.setMem m).buserrAddr = s.buserrAddr := rfl
@[simp] theorem State.setMem_mem (s : State) (m : Memory) : (s.setMem m).mem = m := rfl
@[simp] theorem State.setMem_cmdq (s : State) (m : Memory) : (s.setMem m).cmdq = s.cmdq := rfl
@[simp] theorem State.setMem_running (s : State) (m : Memory) : (s.setMem m).running = s.running := rfl
@[simp] theorem State.setMem_inbox (s : State) (m : Memory) : (s.setMem m).inbox = s.inbox := rfl
@[simp] theorem State.setMem_replies (s : State) (m : Memory) : (s.setMem m).replies = s.replies := rfl

/-! ### Setting a SATFLAGS bit changes nothing else (R44). -/

@[simp] theorem State.flagSat_build (s : State) (bit : BitVec 3) (c : Bool) :
    (s.flagSat bit c).build = s.build := rfl
@[simp] theorem State.flagSat_pending (s : State) (bit : BitVec 3) (c : Bool) :
    (s.flagSat bit c).pending = s.pending := rfl
@[simp] theorem State.flagSat_configured (s : State) (bit : BitVec 3) (c : Bool) :
    (s.flagSat bit c).configured = s.configured := rfl
@[simp] theorem State.flagSat_halted (s : State) (bit : BitVec 3) (c : Bool) :
    (s.flagSat bit c).halted = s.halted := rfl
@[simp] theorem State.flagSat_ovf (s : State) (bit : BitVec 3) (c : Bool) : (s.flagSat bit c).ovf = s.ovf := rfl
@[simp] theorem State.flagSat_errCode (s : State) (bit : BitVec 3) (c : Bool) :
    (s.flagSat bit c).errCode = s.errCode := rfl
@[simp] theorem State.flagSat_errCmd (s : State) (bit : BitVec 3) (c : Bool) :
    (s.flagSat bit c).errCmd = s.errCmd := rfl
@[simp] theorem State.flagSat_irqStatus (s : State) (bit : BitVec 3) (c : Bool) :
    (s.flagSat bit c).irqStatus = s.irqStatus := rfl
@[simp] theorem State.flagSat_irqEnable (s : State) (bit : BitVec 3) (c : Bool) :
    (s.flagSat bit c).irqEnable = s.irqEnable := rfl
@[simp] theorem State.flagSat_satFlags (s : State) (bit : BitVec 3) (c : Bool) :
    (s.flagSat bit c).satFlags = if c then s.satFlags ||| bit else s.satFlags := rfl
@[simp] theorem State.flagSat_cfgLog2n (s : State) (bit : BitVec 3) (c : Bool) :
    (s.flagSat bit c).cfgLog2n = s.cfgLog2n := rfl
@[simp] theorem State.flagSat_cfgChannels (s : State) (bit : BitVec 3) (c : Bool) :
    (s.flagSat bit c).cfgChannels = s.cfgChannels := rfl
@[simp] theorem State.flagSat_cfgSampleRate (s : State) (bit : BitVec 3) (c : Bool) :
    (s.flagSat bit c).cfgSampleRate = s.cfgSampleRate := rfl
@[simp] theorem State.flagSat_mode (s : State) (bit : BitVec 3) (c : Bool) : (s.flagSat bit c).mode = s.mode := rfl
@[simp] theorem State.flagSat_pitchTarget (s : State) (bit : BitVec 3) (c : Bool) :
    (s.flagSat bit c).pitchTarget = s.pitchTarget := rfl
@[simp] theorem State.flagSat_smoothShift (s : State) (bit : BitVec 3) (c : Bool) :
    (s.flagSat bit c).smoothShift = s.smoothShift := rfl
@[simp] theorem State.flagSat_prngSeed (s : State) (bit : BitVec 3) (c : Bool) :
    (s.flagSat bit c).prngSeed = s.prngSeed := rfl
@[simp] theorem State.flagSat_actLog2n (s : State) (bit : BitVec 3) (c : Bool) :
    (s.flagSat bit c).actLog2n = s.actLog2n := rfl
@[simp] theorem State.flagSat_actChannels (s : State) (bit : BitVec 3) (c : Bool) :
    (s.flagSat bit c).actChannels = s.actChannels := rfl
@[simp] theorem State.flagSat_actSampleRate (s : State) (bit : BitVec 3) (c : Bool) :
    (s.flagSat bit c).actSampleRate = s.actSampleRate := rfl
@[simp] theorem State.flagSat_ha (s : State) (bit : BitVec 3) (c : Bool) : (s.flagSat bit c).ha = s.ha := rfl
@[simp] theorem State.flagSat_ringCap (s : State) (bit : BitVec 3) (c : Bool) :
    (s.flagSat bit c).ringCap = s.ringCap := rfl
@[simp] theorem State.flagSat_wss (s : State) (bit : BitVec 3) (c : Bool) : (s.flagSat bit c).wss = s.wss := rfl
@[simp] theorem State.flagSat_pitchCurrent (s : State) (bit : BitVec 3) (c : Bool) :
    (s.flagSat bit c).pitchCurrent = s.pitchCurrent := rfl
@[simp] theorem State.flagSat_cycMode (s : State) (bit : BitVec 3) (c : Bool) :
    (s.flagSat bit c).cycMode = s.cycMode := rfl
@[simp] theorem State.flagSat_cycRatio (s : State) (bit : BitVec 3) (c : Bool) :
    (s.flagSat bit c).cycRatio = s.cycRatio := rfl
@[simp] theorem State.flagSat_hs (s : State) (bit : BitVec 3) (c : Bool) : (s.flagSat bit c).hs = s.hs := rfl
@[simp] theorem State.flagSat_rlen (s : State) (bit : BitVec 3) (c : Bool) : (s.flagSat bit c).rlen = s.rlen := rfl
@[simp] theorem State.flagSat_norm (s : State) (bit : BitVec 3) (c : Bool) : (s.flagSat bit c).norm = s.norm := rfl
@[simp] theorem State.flagSat_prngState (s : State) (bit : BitVec 3) (c : Bool) :
    (s.flagSat bit c).prngState = s.prngState := rfl
@[simp] theorem State.flagSat_inWr (s : State) (bit : BitVec 3) (c : Bool) : (s.flagSat bit c).inWr = s.inWr := rfl
@[simp] theorem State.flagSat_inRd (s : State) (bit : BitVec 3) (c : Bool) : (s.flagSat bit c).inRd = s.inRd := rfl
@[simp] theorem State.flagSat_inAcc (s : State) (bit : BitVec 3) (c : Bool) :
    (s.flagSat bit c).inAcc = s.inAcc := rfl
@[simp] theorem State.flagSat_outWr (s : State) (bit : BitVec 3) (c : Bool) :
    (s.flagSat bit c).outWr = s.outWr := rfl
@[simp] theorem State.flagSat_outRd (s : State) (bit : BitVec 3) (c : Bool) :
    (s.flagSat bit c).outRd = s.outRd := rfl
@[simp] theorem State.flagSat_cycleCount (s : State) (bit : BitVec 3) (c : Bool) :
    (s.flagSat bit c).cycleCount = s.cycleCount := rfl
@[simp] theorem State.flagSat_pushCount (s : State) (bit : BitVec 3) (c : Bool) :
    (s.flagSat bit c).pushCount = s.pushCount := rfl
@[simp] theorem State.flagSat_popCount (s : State) (bit : BitVec 3) (c : Bool) :
    (s.flagSat bit c).popCount = s.popCount := rfl
@[simp] theorem State.flagSat_cmdCount (s : State) (bit : BitVec 3) (c : Bool) :
    (s.flagSat bit c).cmdCount = s.cmdCount := rfl
@[simp] theorem State.flagSat_markTag (s : State) (bit : BitVec 3) (c : Bool) :
    (s.flagSat bit c).markTag = s.markTag := rfl
@[simp] theorem State.flagSat_buserrAddr (s : State) (bit : BitVec 3) (c : Bool) :
    (s.flagSat bit c).buserrAddr = s.buserrAddr := rfl
@[simp] theorem State.flagSat_mem (s : State) (bit : BitVec 3) (c : Bool) : (s.flagSat bit c).mem = s.mem := rfl
@[simp] theorem State.flagSat_cmdq (s : State) (bit : BitVec 3) (c : Bool) : (s.flagSat bit c).cmdq = s.cmdq := rfl
@[simp] theorem State.flagSat_running (s : State) (bit : BitVec 3) (c : Bool) :
    (s.flagSat bit c).running = s.running := rfl
@[simp] theorem State.flagSat_inbox (s : State) (bit : BitVec 3) (c : Bool) :
    (s.flagSat bit c).inbox = s.inbox := rfl
@[simp] theorem State.flagSat_replies (s : State) (bit : BitVec 3) (c : Bool) :
    (s.flagSat bit c).replies = s.replies := rfl

/-! ### Setting a pending interrupt bit changes nothing else (R260). -/

@[simp] theorem State.raiseIrq_build (s : State) (bit : BitVec 5) : (s.raiseIrq bit).build = s.build := rfl
@[simp] theorem State.raiseIrq_pending (s : State) (bit : BitVec 5) : (s.raiseIrq bit).pending = s.pending := rfl
@[simp] theorem State.raiseIrq_configured (s : State) (bit : BitVec 5) :
    (s.raiseIrq bit).configured = s.configured := rfl
@[simp] theorem State.raiseIrq_halted (s : State) (bit : BitVec 5) : (s.raiseIrq bit).halted = s.halted := rfl
@[simp] theorem State.raiseIrq_ovf (s : State) (bit : BitVec 5) : (s.raiseIrq bit).ovf = s.ovf := rfl
@[simp] theorem State.raiseIrq_errCode (s : State) (bit : BitVec 5) : (s.raiseIrq bit).errCode = s.errCode := rfl
@[simp] theorem State.raiseIrq_errCmd (s : State) (bit : BitVec 5) : (s.raiseIrq bit).errCmd = s.errCmd := rfl
@[simp] theorem State.raiseIrq_irqStatus (s : State) (bit : BitVec 5) :
    (s.raiseIrq bit).irqStatus = s.irqStatus ||| bit := rfl
@[simp] theorem State.raiseIrq_irqEnable (s : State) (bit : BitVec 5) :
    (s.raiseIrq bit).irqEnable = s.irqEnable := rfl
@[simp] theorem State.raiseIrq_satFlags (s : State) (bit : BitVec 5) : (s.raiseIrq bit).satFlags = s.satFlags := rfl
@[simp] theorem State.raiseIrq_cfgLog2n (s : State) (bit : BitVec 5) : (s.raiseIrq bit).cfgLog2n = s.cfgLog2n := rfl
@[simp] theorem State.raiseIrq_cfgChannels (s : State) (bit : BitVec 5) :
    (s.raiseIrq bit).cfgChannels = s.cfgChannels := rfl
@[simp] theorem State.raiseIrq_cfgSampleRate (s : State) (bit : BitVec 5) :
    (s.raiseIrq bit).cfgSampleRate = s.cfgSampleRate := rfl
@[simp] theorem State.raiseIrq_mode (s : State) (bit : BitVec 5) : (s.raiseIrq bit).mode = s.mode := rfl
@[simp] theorem State.raiseIrq_pitchTarget (s : State) (bit : BitVec 5) :
    (s.raiseIrq bit).pitchTarget = s.pitchTarget := rfl
@[simp] theorem State.raiseIrq_smoothShift (s : State) (bit : BitVec 5) :
    (s.raiseIrq bit).smoothShift = s.smoothShift := rfl
@[simp] theorem State.raiseIrq_prngSeed (s : State) (bit : BitVec 5) : (s.raiseIrq bit).prngSeed = s.prngSeed := rfl
@[simp] theorem State.raiseIrq_actLog2n (s : State) (bit : BitVec 5) : (s.raiseIrq bit).actLog2n = s.actLog2n := rfl
@[simp] theorem State.raiseIrq_actChannels (s : State) (bit : BitVec 5) :
    (s.raiseIrq bit).actChannels = s.actChannels := rfl
@[simp] theorem State.raiseIrq_actSampleRate (s : State) (bit : BitVec 5) :
    (s.raiseIrq bit).actSampleRate = s.actSampleRate := rfl
@[simp] theorem State.raiseIrq_ha (s : State) (bit : BitVec 5) : (s.raiseIrq bit).ha = s.ha := rfl
@[simp] theorem State.raiseIrq_ringCap (s : State) (bit : BitVec 5) : (s.raiseIrq bit).ringCap = s.ringCap := rfl
@[simp] theorem State.raiseIrq_wss (s : State) (bit : BitVec 5) : (s.raiseIrq bit).wss = s.wss := rfl
@[simp] theorem State.raiseIrq_pitchCurrent (s : State) (bit : BitVec 5) :
    (s.raiseIrq bit).pitchCurrent = s.pitchCurrent := rfl
@[simp] theorem State.raiseIrq_cycMode (s : State) (bit : BitVec 5) : (s.raiseIrq bit).cycMode = s.cycMode := rfl
@[simp] theorem State.raiseIrq_cycRatio (s : State) (bit : BitVec 5) : (s.raiseIrq bit).cycRatio = s.cycRatio := rfl
@[simp] theorem State.raiseIrq_hs (s : State) (bit : BitVec 5) : (s.raiseIrq bit).hs = s.hs := rfl
@[simp] theorem State.raiseIrq_rlen (s : State) (bit : BitVec 5) : (s.raiseIrq bit).rlen = s.rlen := rfl
@[simp] theorem State.raiseIrq_norm (s : State) (bit : BitVec 5) : (s.raiseIrq bit).norm = s.norm := rfl
@[simp] theorem State.raiseIrq_prngState (s : State) (bit : BitVec 5) :
    (s.raiseIrq bit).prngState = s.prngState := rfl
@[simp] theorem State.raiseIrq_inWr (s : State) (bit : BitVec 5) : (s.raiseIrq bit).inWr = s.inWr := rfl
@[simp] theorem State.raiseIrq_inRd (s : State) (bit : BitVec 5) : (s.raiseIrq bit).inRd = s.inRd := rfl
@[simp] theorem State.raiseIrq_inAcc (s : State) (bit : BitVec 5) : (s.raiseIrq bit).inAcc = s.inAcc := rfl
@[simp] theorem State.raiseIrq_outWr (s : State) (bit : BitVec 5) : (s.raiseIrq bit).outWr = s.outWr := rfl
@[simp] theorem State.raiseIrq_outRd (s : State) (bit : BitVec 5) : (s.raiseIrq bit).outRd = s.outRd := rfl
@[simp] theorem State.raiseIrq_cycleCount (s : State) (bit : BitVec 5) :
    (s.raiseIrq bit).cycleCount = s.cycleCount := rfl
@[simp] theorem State.raiseIrq_pushCount (s : State) (bit : BitVec 5) :
    (s.raiseIrq bit).pushCount = s.pushCount := rfl
@[simp] theorem State.raiseIrq_popCount (s : State) (bit : BitVec 5) : (s.raiseIrq bit).popCount = s.popCount := rfl
@[simp] theorem State.raiseIrq_cmdCount (s : State) (bit : BitVec 5) : (s.raiseIrq bit).cmdCount = s.cmdCount := rfl
@[simp] theorem State.raiseIrq_markTag (s : State) (bit : BitVec 5) : (s.raiseIrq bit).markTag = s.markTag := rfl
@[simp] theorem State.raiseIrq_buserrAddr (s : State) (bit : BitVec 5) :
    (s.raiseIrq bit).buserrAddr = s.buserrAddr := rfl
@[simp] theorem State.raiseIrq_mem (s : State) (bit : BitVec 5) : (s.raiseIrq bit).mem = s.mem := rfl
@[simp] theorem State.raiseIrq_cmdq (s : State) (bit : BitVec 5) : (s.raiseIrq bit).cmdq = s.cmdq := rfl
@[simp] theorem State.raiseIrq_running (s : State) (bit : BitVec 5) : (s.raiseIrq bit).running = s.running := rfl
@[simp] theorem State.raiseIrq_inbox (s : State) (bit : BitVec 5) : (s.raiseIrq bit).inbox = s.inbox := rfl
@[simp] theorem State.raiseIrq_replies (s : State) (bit : BitVec 5) : (s.raiseIrq bit).replies = s.replies := rfl

/-! ### What the error procedure writes, and that it writes nothing else (R252). -/

@[simp] theorem State.raiseError_build (s : State) (e : ErrCode) (w : Word) :
    (s.raiseError e w).build = s.build := rfl
@[simp] theorem State.raiseError_pending (s : State) (e : ErrCode) (w : Word) :
    (s.raiseError e w).pending = s.pending := rfl
@[simp] theorem State.raiseError_configured (s : State) (e : ErrCode) (w : Word) :
    (s.raiseError e w).configured = s.configured := rfl
@[simp] theorem State.raiseError_halted (s : State) (e : ErrCode) (w : Word) :
    (s.raiseError e w).halted = true := rfl
@[simp] theorem State.raiseError_ovf (s : State) (e : ErrCode) (w : Word) : (s.raiseError e w).ovf = s.ovf := rfl
@[simp] theorem State.raiseError_errCode (s : State) (e : ErrCode) (w : Word) :
    (s.raiseError e w).errCode = if s.halted then s.errCode else e := rfl
@[simp] theorem State.raiseError_errCmd (s : State) (e : ErrCode) (w : Word) :
    (s.raiseError e w).errCmd = if s.halted then s.errCmd else w := rfl
@[simp] theorem State.raiseError_irqStatus (s : State) (e : ErrCode) (w : Word) :
    (s.raiseError e w).irqStatus = s.irqStatus ||| irqErr := rfl
@[simp] theorem State.raiseError_irqEnable (s : State) (e : ErrCode) (w : Word) :
    (s.raiseError e w).irqEnable = s.irqEnable := rfl
@[simp] theorem State.raiseError_satFlags (s : State) (e : ErrCode) (w : Word) :
    (s.raiseError e w).satFlags = s.satFlags := rfl
@[simp] theorem State.raiseError_cfgLog2n (s : State) (e : ErrCode) (w : Word) :
    (s.raiseError e w).cfgLog2n = s.cfgLog2n := rfl
@[simp] theorem State.raiseError_cfgChannels (s : State) (e : ErrCode) (w : Word) :
    (s.raiseError e w).cfgChannels = s.cfgChannels := rfl
@[simp] theorem State.raiseError_cfgSampleRate (s : State) (e : ErrCode) (w : Word) :
    (s.raiseError e w).cfgSampleRate = s.cfgSampleRate := rfl
@[simp] theorem State.raiseError_mode (s : State) (e : ErrCode) (w : Word) : (s.raiseError e w).mode = s.mode := rfl
@[simp] theorem State.raiseError_pitchTarget (s : State) (e : ErrCode) (w : Word) :
    (s.raiseError e w).pitchTarget = s.pitchTarget := rfl
@[simp] theorem State.raiseError_smoothShift (s : State) (e : ErrCode) (w : Word) :
    (s.raiseError e w).smoothShift = s.smoothShift := rfl
@[simp] theorem State.raiseError_prngSeed (s : State) (e : ErrCode) (w : Word) :
    (s.raiseError e w).prngSeed = s.prngSeed := rfl
@[simp] theorem State.raiseError_actLog2n (s : State) (e : ErrCode) (w : Word) :
    (s.raiseError e w).actLog2n = s.actLog2n := rfl
@[simp] theorem State.raiseError_actChannels (s : State) (e : ErrCode) (w : Word) :
    (s.raiseError e w).actChannels = s.actChannels := rfl
@[simp] theorem State.raiseError_actSampleRate (s : State) (e : ErrCode) (w : Word) :
    (s.raiseError e w).actSampleRate = s.actSampleRate := rfl
@[simp] theorem State.raiseError_ha (s : State) (e : ErrCode) (w : Word) : (s.raiseError e w).ha = s.ha := rfl
@[simp] theorem State.raiseError_ringCap (s : State) (e : ErrCode) (w : Word) :
    (s.raiseError e w).ringCap = s.ringCap := rfl
@[simp] theorem State.raiseError_wss (s : State) (e : ErrCode) (w : Word) : (s.raiseError e w).wss = s.wss := rfl
@[simp] theorem State.raiseError_pitchCurrent (s : State) (e : ErrCode) (w : Word) :
    (s.raiseError e w).pitchCurrent = s.pitchCurrent := rfl
@[simp] theorem State.raiseError_cycMode (s : State) (e : ErrCode) (w : Word) :
    (s.raiseError e w).cycMode = s.cycMode := rfl
@[simp] theorem State.raiseError_cycRatio (s : State) (e : ErrCode) (w : Word) :
    (s.raiseError e w).cycRatio = s.cycRatio := rfl
@[simp] theorem State.raiseError_hs (s : State) (e : ErrCode) (w : Word) : (s.raiseError e w).hs = s.hs := rfl
@[simp] theorem State.raiseError_rlen (s : State) (e : ErrCode) (w : Word) : (s.raiseError e w).rlen = s.rlen := rfl
@[simp] theorem State.raiseError_norm (s : State) (e : ErrCode) (w : Word) : (s.raiseError e w).norm = s.norm := rfl
@[simp] theorem State.raiseError_prngState (s : State) (e : ErrCode) (w : Word) :
    (s.raiseError e w).prngState = s.prngState := rfl
@[simp] theorem State.raiseError_inWr (s : State) (e : ErrCode) (w : Word) : (s.raiseError e w).inWr = s.inWr := rfl
@[simp] theorem State.raiseError_inRd (s : State) (e : ErrCode) (w : Word) : (s.raiseError e w).inRd = s.inRd := rfl
@[simp] theorem State.raiseError_inAcc (s : State) (e : ErrCode) (w : Word) :
    (s.raiseError e w).inAcc = s.inAcc := rfl
@[simp] theorem State.raiseError_outWr (s : State) (e : ErrCode) (w : Word) :
    (s.raiseError e w).outWr = s.outWr := rfl
@[simp] theorem State.raiseError_outRd (s : State) (e : ErrCode) (w : Word) :
    (s.raiseError e w).outRd = s.outRd := rfl
@[simp] theorem State.raiseError_cycleCount (s : State) (e : ErrCode) (w : Word) :
    (s.raiseError e w).cycleCount = s.cycleCount := rfl
@[simp] theorem State.raiseError_pushCount (s : State) (e : ErrCode) (w : Word) :
    (s.raiseError e w).pushCount = s.pushCount := rfl
@[simp] theorem State.raiseError_popCount (s : State) (e : ErrCode) (w : Word) :
    (s.raiseError e w).popCount = s.popCount := rfl
@[simp] theorem State.raiseError_cmdCount (s : State) (e : ErrCode) (w : Word) :
    (s.raiseError e w).cmdCount = s.cmdCount := rfl
@[simp] theorem State.raiseError_markTag (s : State) (e : ErrCode) (w : Word) :
    (s.raiseError e w).markTag = s.markTag := rfl
@[simp] theorem State.raiseError_buserrAddr (s : State) (e : ErrCode) (w : Word) :
    (s.raiseError e w).buserrAddr = s.buserrAddr := rfl
@[simp] theorem State.raiseError_mem (s : State) (e : ErrCode) (w : Word) : (s.raiseError e w).mem = s.mem := rfl
@[simp] theorem State.raiseError_cmdq (s : State) (e : ErrCode) (w : Word) : (s.raiseError e w).cmdq = s.cmdq := rfl
@[simp] theorem State.raiseError_running (s : State) (e : ErrCode) (w : Word) :
    (s.raiseError e w).running = none := rfl
@[simp] theorem State.raiseError_inbox (s : State) (e : ErrCode) (w : Word) :
    (s.raiseError e w).inbox = s.inbox := rfl
@[simp] theorem State.raiseError_replies (s : State) (e : ErrCode) (w : Word) :
    (s.raiseError e w).replies = s.replies := rfl

/-! ### What RESUME writes (R256). -/

@[simp] theorem State.resume_build (s : State) : s.resume.build = s.build := rfl
@[simp] theorem State.resume_pending (s : State) : s.resume.pending = s.pending := rfl
@[simp] theorem State.resume_configured (s : State) : s.resume.configured = s.configured := rfl
@[simp] theorem State.resume_halted (s : State) : s.resume.halted = false := rfl
@[simp] theorem State.resume_ovf (s : State) : s.resume.ovf = false := rfl
@[simp] theorem State.resume_errCode (s : State) : s.resume.errCode = s.errCode := rfl
@[simp] theorem State.resume_errCmd (s : State) : s.resume.errCmd = s.errCmd := rfl
@[simp] theorem State.resume_irqStatus (s : State) : s.resume.irqStatus = s.irqStatus := rfl
@[simp] theorem State.resume_irqEnable (s : State) : s.resume.irqEnable = s.irqEnable := rfl
@[simp] theorem State.resume_satFlags (s : State) : s.resume.satFlags = s.satFlags := rfl
@[simp] theorem State.resume_cfgLog2n (s : State) : s.resume.cfgLog2n = s.cfgLog2n := rfl
@[simp] theorem State.resume_cfgChannels (s : State) : s.resume.cfgChannels = s.cfgChannels := rfl
@[simp] theorem State.resume_cfgSampleRate (s : State) : s.resume.cfgSampleRate = s.cfgSampleRate := rfl
@[simp] theorem State.resume_mode (s : State) : s.resume.mode = s.mode := rfl
@[simp] theorem State.resume_pitchTarget (s : State) : s.resume.pitchTarget = s.pitchTarget := rfl
@[simp] theorem State.resume_smoothShift (s : State) : s.resume.smoothShift = s.smoothShift := rfl
@[simp] theorem State.resume_prngSeed (s : State) : s.resume.prngSeed = s.prngSeed := rfl
@[simp] theorem State.resume_actLog2n (s : State) : s.resume.actLog2n = s.actLog2n := rfl
@[simp] theorem State.resume_actChannels (s : State) : s.resume.actChannels = s.actChannels := rfl
@[simp] theorem State.resume_actSampleRate (s : State) : s.resume.actSampleRate = s.actSampleRate := rfl
@[simp] theorem State.resume_ha (s : State) : s.resume.ha = s.ha := rfl
@[simp] theorem State.resume_ringCap (s : State) : s.resume.ringCap = s.ringCap := rfl
@[simp] theorem State.resume_wss (s : State) : s.resume.wss = s.wss := rfl
@[simp] theorem State.resume_pitchCurrent (s : State) : s.resume.pitchCurrent = s.pitchCurrent := rfl
@[simp] theorem State.resume_cycMode (s : State) : s.resume.cycMode = s.cycMode := rfl
@[simp] theorem State.resume_cycRatio (s : State) : s.resume.cycRatio = s.cycRatio := rfl
@[simp] theorem State.resume_hs (s : State) : s.resume.hs = s.hs := rfl
@[simp] theorem State.resume_rlen (s : State) : s.resume.rlen = s.rlen := rfl
@[simp] theorem State.resume_norm (s : State) : s.resume.norm = s.norm := rfl
@[simp] theorem State.resume_prngState (s : State) : s.resume.prngState = s.prngState := rfl
@[simp] theorem State.resume_inWr (s : State) : s.resume.inWr = s.inWr := rfl
@[simp] theorem State.resume_inRd (s : State) : s.resume.inRd = s.inRd := rfl
@[simp] theorem State.resume_inAcc (s : State) : s.resume.inAcc = s.inAcc := rfl
@[simp] theorem State.resume_outWr (s : State) : s.resume.outWr = s.outWr := rfl
@[simp] theorem State.resume_outRd (s : State) : s.resume.outRd = s.outRd := rfl
@[simp] theorem State.resume_cycleCount (s : State) : s.resume.cycleCount = s.cycleCount := rfl
@[simp] theorem State.resume_pushCount (s : State) : s.resume.pushCount = s.pushCount := rfl
@[simp] theorem State.resume_popCount (s : State) : s.resume.popCount = s.popCount := rfl
@[simp] theorem State.resume_cmdCount (s : State) : s.resume.cmdCount = s.cmdCount := rfl
@[simp] theorem State.resume_markTag (s : State) : s.resume.markTag = s.markTag := rfl
@[simp] theorem State.resume_buserrAddr (s : State) : s.resume.buserrAddr = s.buserrAddr := rfl
@[simp] theorem State.resume_mem (s : State) : s.resume.mem = s.mem := rfl
@[simp] theorem State.resume_cmdq (s : State) : s.resume.cmdq = s.cmdq := rfl
@[simp] theorem State.resume_running (s : State) : s.resume.running = s.running := rfl
@[simp] theorem State.resume_inbox (s : State) : s.resume.inbox = s.inbox := rfl
@[simp] theorem State.resume_replies (s : State) : s.resume.replies = s.replies := rfl

/-! ### What completion writes (R221). -/

@[simp] theorem State.complete_build (s : State) : s.complete.build = s.build := rfl
@[simp] theorem State.complete_pending (s : State) : s.complete.pending = s.pending := rfl
@[simp] theorem State.complete_configured (s : State) : s.complete.configured = s.configured := rfl
@[simp] theorem State.complete_halted (s : State) : s.complete.halted = s.halted := rfl
@[simp] theorem State.complete_ovf (s : State) : s.complete.ovf = s.ovf := rfl
@[simp] theorem State.complete_errCode (s : State) : s.complete.errCode = s.errCode := rfl
@[simp] theorem State.complete_errCmd (s : State) : s.complete.errCmd = s.errCmd := rfl
@[simp] theorem State.complete_irqStatus (s : State) :
    s.complete.irqStatus = if s.cmdq.isEmpty then s.irqStatus ||| irqDone else s.irqStatus := rfl
@[simp] theorem State.complete_irqEnable (s : State) : s.complete.irqEnable = s.irqEnable := rfl
@[simp] theorem State.complete_satFlags (s : State) : s.complete.satFlags = s.satFlags := rfl
@[simp] theorem State.complete_cfgLog2n (s : State) : s.complete.cfgLog2n = s.cfgLog2n := rfl
@[simp] theorem State.complete_cfgChannels (s : State) : s.complete.cfgChannels = s.cfgChannels := rfl
@[simp] theorem State.complete_cfgSampleRate (s : State) : s.complete.cfgSampleRate = s.cfgSampleRate := rfl
@[simp] theorem State.complete_mode (s : State) : s.complete.mode = s.mode := rfl
@[simp] theorem State.complete_pitchTarget (s : State) : s.complete.pitchTarget = s.pitchTarget := rfl
@[simp] theorem State.complete_smoothShift (s : State) : s.complete.smoothShift = s.smoothShift := rfl
@[simp] theorem State.complete_prngSeed (s : State) : s.complete.prngSeed = s.prngSeed := rfl
@[simp] theorem State.complete_actLog2n (s : State) : s.complete.actLog2n = s.actLog2n := rfl
@[simp] theorem State.complete_actChannels (s : State) : s.complete.actChannels = s.actChannels := rfl
@[simp] theorem State.complete_actSampleRate (s : State) : s.complete.actSampleRate = s.actSampleRate := rfl
@[simp] theorem State.complete_ha (s : State) : s.complete.ha = s.ha := rfl
@[simp] theorem State.complete_ringCap (s : State) : s.complete.ringCap = s.ringCap := rfl
@[simp] theorem State.complete_wss (s : State) : s.complete.wss = s.wss := rfl
@[simp] theorem State.complete_pitchCurrent (s : State) : s.complete.pitchCurrent = s.pitchCurrent := rfl
@[simp] theorem State.complete_cycMode (s : State) : s.complete.cycMode = s.cycMode := rfl
@[simp] theorem State.complete_cycRatio (s : State) : s.complete.cycRatio = s.cycRatio := rfl
@[simp] theorem State.complete_hs (s : State) : s.complete.hs = s.hs := rfl
@[simp] theorem State.complete_rlen (s : State) : s.complete.rlen = s.rlen := rfl
@[simp] theorem State.complete_norm (s : State) : s.complete.norm = s.norm := rfl
@[simp] theorem State.complete_prngState (s : State) : s.complete.prngState = s.prngState := rfl
@[simp] theorem State.complete_inWr (s : State) : s.complete.inWr = s.inWr := rfl
@[simp] theorem State.complete_inRd (s : State) : s.complete.inRd = s.inRd := rfl
@[simp] theorem State.complete_inAcc (s : State) : s.complete.inAcc = s.inAcc := rfl
@[simp] theorem State.complete_outWr (s : State) : s.complete.outWr = s.outWr := rfl
@[simp] theorem State.complete_outRd (s : State) : s.complete.outRd = s.outRd := rfl
@[simp] theorem State.complete_cycleCount (s : State) : s.complete.cycleCount = s.cycleCount := rfl
@[simp] theorem State.complete_pushCount (s : State) : s.complete.pushCount = s.pushCount := rfl
@[simp] theorem State.complete_popCount (s : State) : s.complete.popCount = s.popCount := rfl
@[simp] theorem State.complete_cmdCount (s : State) : s.complete.cmdCount = s.cmdCount + 1#32 := rfl
@[simp] theorem State.complete_markTag (s : State) : s.complete.markTag = s.markTag := rfl
@[simp] theorem State.complete_buserrAddr (s : State) : s.complete.buserrAddr = s.buserrAddr := rfl
@[simp] theorem State.complete_mem (s : State) : s.complete.mem = s.mem := rfl
@[simp] theorem State.complete_cmdq (s : State) : s.complete.cmdq = s.cmdq := rfl
@[simp] theorem State.complete_running (s : State) : s.complete.running = none := rfl
@[simp] theorem State.complete_inbox (s : State) : s.complete.inbox = s.inbox := rfl
@[simp] theorem State.complete_replies (s : State) : s.complete.replies = s.replies := rfl

/-! ### What the first step of a composite command writes (R220). -/

@[simp] theorem State.start_build (s : State) (w : Word) (p : Progress) : (s.start w p).build = s.build := rfl
@[simp] theorem State.start_pending (s : State) (w : Word) (p : Progress) : (s.start w p).pending = s.pending := rfl
@[simp] theorem State.start_configured (s : State) (w : Word) (p : Progress) :
    (s.start w p).configured = s.configured := rfl
@[simp] theorem State.start_halted (s : State) (w : Word) (p : Progress) : (s.start w p).halted = s.halted := rfl
@[simp] theorem State.start_ovf (s : State) (w : Word) (p : Progress) : (s.start w p).ovf = s.ovf := rfl
@[simp] theorem State.start_errCode (s : State) (w : Word) (p : Progress) : (s.start w p).errCode = s.errCode := rfl
@[simp] theorem State.start_errCmd (s : State) (w : Word) (p : Progress) : (s.start w p).errCmd = s.errCmd := rfl
@[simp] theorem State.start_irqStatus (s : State) (w : Word) (p : Progress) :
    (s.start w p).irqStatus = s.irqStatus := rfl
@[simp] theorem State.start_irqEnable (s : State) (w : Word) (p : Progress) :
    (s.start w p).irqEnable = s.irqEnable := rfl
@[simp] theorem State.start_satFlags (s : State) (w : Word) (p : Progress) :
    (s.start w p).satFlags = s.satFlags := rfl
@[simp] theorem State.start_cfgLog2n (s : State) (w : Word) (p : Progress) :
    (s.start w p).cfgLog2n = s.cfgLog2n := rfl
@[simp] theorem State.start_cfgChannels (s : State) (w : Word) (p : Progress) :
    (s.start w p).cfgChannels = s.cfgChannels := rfl
@[simp] theorem State.start_cfgSampleRate (s : State) (w : Word) (p : Progress) :
    (s.start w p).cfgSampleRate = s.cfgSampleRate := rfl
@[simp] theorem State.start_mode (s : State) (w : Word) (p : Progress) : (s.start w p).mode = s.mode := rfl
@[simp] theorem State.start_pitchTarget (s : State) (w : Word) (p : Progress) :
    (s.start w p).pitchTarget = s.pitchTarget := rfl
@[simp] theorem State.start_smoothShift (s : State) (w : Word) (p : Progress) :
    (s.start w p).smoothShift = s.smoothShift := rfl
@[simp] theorem State.start_prngSeed (s : State) (w : Word) (p : Progress) :
    (s.start w p).prngSeed = s.prngSeed := rfl
@[simp] theorem State.start_actLog2n (s : State) (w : Word) (p : Progress) :
    (s.start w p).actLog2n = s.actLog2n := rfl
@[simp] theorem State.start_actChannels (s : State) (w : Word) (p : Progress) :
    (s.start w p).actChannels = s.actChannels := rfl
@[simp] theorem State.start_actSampleRate (s : State) (w : Word) (p : Progress) :
    (s.start w p).actSampleRate = s.actSampleRate := rfl
@[simp] theorem State.start_ha (s : State) (w : Word) (p : Progress) : (s.start w p).ha = s.ha := rfl
@[simp] theorem State.start_ringCap (s : State) (w : Word) (p : Progress) : (s.start w p).ringCap = s.ringCap := rfl
@[simp] theorem State.start_wss (s : State) (w : Word) (p : Progress) : (s.start w p).wss = s.wss := rfl
@[simp] theorem State.start_pitchCurrent (s : State) (w : Word) (p : Progress) :
    (s.start w p).pitchCurrent = s.pitchCurrent := rfl
@[simp] theorem State.start_cycMode (s : State) (w : Word) (p : Progress) : (s.start w p).cycMode = s.cycMode := rfl
@[simp] theorem State.start_cycRatio (s : State) (w : Word) (p : Progress) :
    (s.start w p).cycRatio = s.cycRatio := rfl
@[simp] theorem State.start_hs (s : State) (w : Word) (p : Progress) : (s.start w p).hs = s.hs := rfl
@[simp] theorem State.start_rlen (s : State) (w : Word) (p : Progress) : (s.start w p).rlen = s.rlen := rfl
@[simp] theorem State.start_norm (s : State) (w : Word) (p : Progress) : (s.start w p).norm = s.norm := rfl
@[simp] theorem State.start_prngState (s : State) (w : Word) (p : Progress) :
    (s.start w p).prngState = s.prngState := rfl
@[simp] theorem State.start_inWr (s : State) (w : Word) (p : Progress) : (s.start w p).inWr = s.inWr := rfl
@[simp] theorem State.start_inRd (s : State) (w : Word) (p : Progress) : (s.start w p).inRd = s.inRd := rfl
@[simp] theorem State.start_inAcc (s : State) (w : Word) (p : Progress) : (s.start w p).inAcc = s.inAcc := rfl
@[simp] theorem State.start_outWr (s : State) (w : Word) (p : Progress) : (s.start w p).outWr = s.outWr := rfl
@[simp] theorem State.start_outRd (s : State) (w : Word) (p : Progress) : (s.start w p).outRd = s.outRd := rfl
@[simp] theorem State.start_cycleCount (s : State) (w : Word) (p : Progress) :
    (s.start w p).cycleCount = s.cycleCount := rfl
@[simp] theorem State.start_pushCount (s : State) (w : Word) (p : Progress) :
    (s.start w p).pushCount = s.pushCount := rfl
@[simp] theorem State.start_popCount (s : State) (w : Word) (p : Progress) :
    (s.start w p).popCount = s.popCount := rfl
@[simp] theorem State.start_cmdCount (s : State) (w : Word) (p : Progress) :
    (s.start w p).cmdCount = s.cmdCount := rfl
@[simp] theorem State.start_markTag (s : State) (w : Word) (p : Progress) : (s.start w p).markTag = s.markTag := rfl
@[simp] theorem State.start_buserrAddr (s : State) (w : Word) (p : Progress) :
    (s.start w p).buserrAddr = s.buserrAddr := rfl
@[simp] theorem State.start_mem (s : State) (w : Word) (p : Progress) : (s.start w p).mem = s.mem := rfl
@[simp] theorem State.start_cmdq (s : State) (w : Word) (p : Progress) : (s.start w p).cmdq = s.cmdq := rfl
@[simp] theorem State.start_running (s : State) (w : Word) (p : Progress) :
    (s.start w p).running = some { word := w, progress := p } := rfl
@[simp] theorem State.start_inbox (s : State) (w : Word) (p : Progress) : (s.start w p).inbox = s.inbox := rfl
@[simp] theorem State.start_replies (s : State) (w : Word) (p : Progress) : (s.start w p).replies = s.replies := rfl

/-! ### The derived configuration reads only ACT_LOG2N and ACT_CHANNELS -/

@[simp] theorem State.setMem_n (s : State) (m : Memory) : (s.setMem m).n = s.n := rfl
@[simp] theorem State.setMem_hop (s : State) (m : Memory) : (s.setMem m).hop = s.hop := rfl
@[simp] theorem State.setMem_cap (s : State) (m : Memory) : (s.setMem m).cap = s.cap := rfl
@[simp] theorem State.setMem_ch (s : State) (m : Memory) : (s.setMem m).ch = s.ch := rfl
@[simp] theorem State.setMem_accMax (s : State) (m : Memory) : (s.setMem m).accMax = s.accMax := rfl
@[simp] theorem State.flagSat_n (s : State) (bit : BitVec 3) (c : Bool) : (s.flagSat bit c).n = s.n := rfl
@[simp] theorem State.flagSat_hop (s : State) (bit : BitVec 3) (c : Bool) : (s.flagSat bit c).hop = s.hop := rfl
@[simp] theorem State.flagSat_cap (s : State) (bit : BitVec 3) (c : Bool) : (s.flagSat bit c).cap = s.cap := rfl
@[simp] theorem State.flagSat_ch (s : State) (bit : BitVec 3) (c : Bool) : (s.flagSat bit c).ch = s.ch := rfl
@[simp] theorem State.flagSat_accMax (s : State) (bit : BitVec 3) (c : Bool) : (s.flagSat bit c).accMax = s.accMax := rfl
@[simp] theorem State.raiseIrq_n (s : State) (bit : BitVec 5) : (s.raiseIrq bit).n = s.n := rfl
@[simp] theorem State.raiseIrq_hop (s : State) (bit : BitVec 5) : (s.raiseIrq bit).hop = s.hop := rfl
@[simp] theorem State.raiseIrq_cap (s : State) (bit : BitVec 5) : (s.raiseIrq bit).cap = s.cap := rfl
@[simp] theorem State.raiseIrq_ch (s : State) (bit : BitVec 5) : (s.raiseIrq bit).ch = s.ch := rfl
@[simp] theorem State.raiseIrq_accMax (s : State) (bit : BitVec 5) : (s.raiseIrq bit).accMax = s.accMax := rfl
@[simp] theorem State.raiseError_n (s : State) (e : ErrCode) (w : Word) : (s.raiseError e w).n = s.n := rfl
@[simp] theorem State.raiseError_hop (s : State) (e : ErrCode) (w : Word) : (s.raiseError e w).hop = s.hop := rfl
@[simp] theorem State.raiseError_cap (s : State) (e : ErrCode) (w : Word) : (s.raiseError e w).cap = s.cap := rfl
@[simp] theorem State.raiseError_ch (s : State) (e : ErrCode) (w : Word) : (s.raiseError e w).ch = s.ch := rfl
@[simp] theorem State.raiseError_accMax (s : State) (e : ErrCode) (w : Word) : (s.raiseError e w).accMax = s.accMax := rfl
@[simp] theorem State.resume_n (s : State) : s.resume.n = s.n := rfl
@[simp] theorem State.resume_hop (s : State) : s.resume.hop = s.hop := rfl
@[simp] theorem State.resume_cap (s : State) : s.resume.cap = s.cap := rfl
@[simp] theorem State.resume_ch (s : State) : s.resume.ch = s.ch := rfl
@[simp] theorem State.resume_accMax (s : State) : s.resume.accMax = s.accMax := rfl
@[simp] theorem State.complete_n (s : State) : s.complete.n = s.n := rfl
@[simp] theorem State.complete_hop (s : State) : s.complete.hop = s.hop := rfl
@[simp] theorem State.complete_cap (s : State) : s.complete.cap = s.cap := rfl
@[simp] theorem State.complete_ch (s : State) : s.complete.ch = s.ch := rfl
@[simp] theorem State.complete_accMax (s : State) : s.complete.accMax = s.accMax := rfl
@[simp] theorem State.start_n (s : State) (w : Word) (p : Progress) : (s.start w p).n = s.n := rfl
@[simp] theorem State.start_hop (s : State) (w : Word) (p : Progress) : (s.start w p).hop = s.hop := rfl
@[simp] theorem State.start_cap (s : State) (w : Word) (p : Progress) : (s.start w p).cap = s.cap := rfl
@[simp] theorem State.start_ch (s : State) (w : Word) (p : Progress) : (s.start w p).ch = s.ch := rfl
@[simp] theorem State.start_accMax (s : State) (w : Word) (p : Progress) : (s.start w p).accMax = s.accMax := rfl

end Sys2Proof.Machine
end

