-- ==== Sys2Proof/Laws/Operations.lean ====
section
/-! SUPPORT. What the shared operations of a command's first engine step can do, said once. -/

namespace Sys2Proof.Machine

@[simp] theorem firstError_nil : firstError [] = none := rfl

theorem firstError_cons (b : Bool) (e : ErrCode) (rest : List Check) :
    firstError ((b, e) :: rest) = if b then some e else firstError rest := by
  cases b <;> rfl

/-- No check fails: no error. -/
theorem firstError_eq_none_iff (l : List Check) : firstError l = none ↔ ∀ c ∈ l, c.1 = false := by
  induction l with
  | nil => simp
  | cons c rest ih =>
    obtain ⟨b, e⟩ := c
    rw [firstError_cons]
    cases b <;> simp [ih]

/-- The error reported is that of a failing check before which every check passes. -/
theorem firstError_eq_some_iff (l : List Check) (e : ErrCode) :
    firstError l = some e ↔ ∃ before after, l = before ++ (true, e) :: after ∧ ∀ c ∈ before, c.1 = false := by
  induction l with
  | nil => simp
  | cons c rest ih =>
    obtain ⟨b, e'⟩ := c
    rw [firstError_cons]
    cases b with
    | true =>
      simp only [if_true, Option.some.injEq]
      constructor
      · rintro rfl; exact ⟨[], rest, rfl, by simp⟩
      · rintro ⟨before, after, h, hb⟩
        cases before with
        | nil => simp at h; exact h.1
        | cons d ds =>
          simp only [List.cons_append, List.cons.injEq] at h
          have := hb d (by simp)
          rw [← h.1] at this
          simp at this
    | false =>
      simp only [Bool.false_eq_true, if_false, ih]
      constructor
      · rintro ⟨before, after, rfl, hb⟩
        exact ⟨(false, e') :: before, after, rfl, by simpa using hb⟩
      · rintro ⟨before, after, h, hb⟩
        cases before with
        | nil => simp at h
        | cons d ds =>
          simp only [List.cons_append, List.cons.injEq] at h
          exact ⟨ds, after, h.2, fun c hc => hb c (by simp [hc])⟩

/-- A one-leaf command whose checks pass performs its effect and completes. -/
theorem leafCommand_of_clear {i : Instr} {checks : List Check} {effect : State → State} {s : State}
    (h : firstError checks = none) : leafCommand i checks effect s = .next (effect s).complete := by
  simp [leafCommand, h]

/-- A one-leaf command whose checks report an error raises it and does nothing else. -/
theorem leafCommand_of_error {i : Instr} {checks : List Check} {effect : State → State} {s : State} {e : ErrCode}
    (h : firstError checks = some e) : leafCommand i checks effect s = .next (s.raiseError e (encode i)) := by
  simp [leafCommand, h]

/-- Everything a one-leaf command can do. -/
theorem leafCommand_cases {i : Instr} {checks : List Check} {effect : State → State} {s t : State}
    (h : leafCommand i checks effect s = .next t) :
    (firstError checks = none ∧ t = (effect s).complete) ∨
      ∃ e, firstError checks = some e ∧ t = s.raiseError e (encode i) := by
  unfold leafCommand at h
  split at h
  · rename_i e he
    exact .inr ⟨e, he, by simpa using h.symm⟩
  · rename_i he
    exact .inl ⟨he, by simpa using h.symm⟩

theorem compositeCommand_of_clear {i : Instr} {checks : List Check} {p : Progress} {s : State}
    (h : firstError checks = none) : compositeCommand i checks p s = .next (s.start (encode i) p) := by
  simp [compositeCommand, h]

theorem compositeCommand_of_error {i : Instr} {checks : List Check} {p : Progress} {s : State} {e : ErrCode}
    (h : firstError checks = some e) : compositeCommand i checks p s = .next (s.raiseError e (encode i)) := by
  simp [compositeCommand, h]

/-- Everything the first step of a composite command can do. -/
theorem compositeCommand_cases {i : Instr} {checks : List Check} {p : Progress} {s t : State}
    (h : compositeCommand i checks p s = .next t) :
    (firstError checks = none ∧ t = s.start (encode i) p) ∨
      ∃ e, firstError checks = some e ∧ t = s.raiseError e (encode i) := by
  unfold compositeCommand at h
  split at h
  · rename_i e he
    exact .inr ⟨e, he, by simpa using h.symm⟩
  · rename_i he
    exact .inl ⟨he, by simpa using h.symm⟩

/-! ### The checks, as propositions -/

@[simp] theorem State.needConfigured_clear (s : State) : s.needConfigured.1 = false ↔ s.configured = true := by
  simp [State.needConfigured]

@[simp] theorem State.needChannel_clear (s : State) (ch : Nat) : (s.needChannel ch).1 = false ↔ ch < s.ch := by
  simp [State.needChannel]

@[simp] theorem State.needBin_clear (s : State) (k : Nat) : (s.needBin k).1 = false ↔ k ≤ s.n / 2 := by
  simp [State.needBin]

@[simp] theorem State.needStage_clear (s : State) (st : Nat) :
    (s.needStage st).1 = false ↔ 1 ≤ st ∧ st ≤ s.actLog2n.toNat := by
  simp [State.needStage]
  omega

@[simp] theorem State.needUpperIndex_clear (s : State) (st p : Nat) :
    (s.needUpperIndex st p).1 = false ↔ p < s.n ∧ p.testBit (st - 1) = false := by
  simp [State.needUpperIndex]

@[simp] theorem State.needIoIndex_clear (s : State) (i : Nat) : (s.needIoIndex i).1 = false ↔ i < s.build.bmax := by
  simp [State.needIoIndex]

@[simp] theorem State.needBlockLength_clear (s : State) (len : Nat) :
    (s.needBlockLength len).1 = false ↔ len ≤ s.build.bmax := by
  simp [State.needBlockLength]

@[simp] theorem State.needHop_clear (s : State) : s.needHop.1 = false ↔ s.hop ≤ s.inAcc.toNat := by
  simp [State.needHop]

@[simp] theorem State.needRoom_clear (s : State) : s.needRoom.1 = false ↔ s.inAcc.toNat < s.accMax := by
  simp [State.needRoom]

end Sys2Proof.Machine
end

