-- ==== Sys2Proof/Laws/Leaves.lean ====
section
/-! SUPPORT. Everything a leaf operation can do, said once: which registers it may write, that it keeps the arrays'
canonical form, and that it never writes WIN or OMEGA. -/

namespace Sys2Proof.Machine

/-- The registers and arrays a leaf may write: every other field is as before. -/
theorem Leaf.run_frame (l : Leaf) (s : State) :
    l.run s =
      { s with
        satFlags := (l.run s).satFlags
        pitchCurrent := (l.run s).pitchCurrent
        cycMode := (l.run s).cycMode
        cycRatio := (l.run s).cycRatio
        hs := (l.run s).hs
        rlen := (l.run s).rlen
        norm := (l.run s).norm
        prngState := (l.run s).prngState
        inWr := (l.run s).inWr
        inRd := (l.run s).inRd
        inAcc := (l.run s).inAcc
        outWr := (l.run s).outWr
        outRd := (l.run s).outRd
        cycleCount := (l.run s).cycleCount
        pushCount := (l.run s).pushCount
        popCount := (l.run s).popCount
        mem := (l.run s).mem } := by
  cases l <;> rfl

/-! ### Fields no leaf writes -/

@[simp] theorem Leaf.run_build (l : Leaf) (s : State) : (l.run s).build = s.build := by cases l <;> rfl
@[simp] theorem Leaf.run_pending (l : Leaf) (s : State) : (l.run s).pending = s.pending := by cases l <;> rfl
@[simp] theorem Leaf.run_configured (l : Leaf) (s : State) : (l.run s).configured = s.configured := by cases l <;> rfl
@[simp] theorem Leaf.run_halted (l : Leaf) (s : State) : (l.run s).halted = s.halted := by cases l <;> rfl
@[simp] theorem Leaf.run_ovf (l : Leaf) (s : State) : (l.run s).ovf = s.ovf := by cases l <;> rfl
@[simp] theorem Leaf.run_errCode (l : Leaf) (s : State) : (l.run s).errCode = s.errCode := by cases l <;> rfl
@[simp] theorem Leaf.run_errCmd (l : Leaf) (s : State) : (l.run s).errCmd = s.errCmd := by cases l <;> rfl
@[simp] theorem Leaf.run_irqStatus (l : Leaf) (s : State) : (l.run s).irqStatus = s.irqStatus := by cases l <;> rfl
@[simp] theorem Leaf.run_irqEnable (l : Leaf) (s : State) : (l.run s).irqEnable = s.irqEnable := by cases l <;> rfl
@[simp] theorem Leaf.run_cfgLog2n (l : Leaf) (s : State) : (l.run s).cfgLog2n = s.cfgLog2n := by cases l <;> rfl
@[simp] theorem Leaf.run_cfgChannels (l : Leaf) (s : State) : (l.run s).cfgChannels = s.cfgChannels := by cases l <;> rfl
@[simp] theorem Leaf.run_cfgSampleRate (l : Leaf) (s : State) : (l.run s).cfgSampleRate = s.cfgSampleRate := by cases l <;> rfl
@[simp] theorem Leaf.run_mode (l : Leaf) (s : State) : (l.run s).mode = s.mode := by cases l <;> rfl
@[simp] theorem Leaf.run_pitchTarget (l : Leaf) (s : State) : (l.run s).pitchTarget = s.pitchTarget := by cases l <;> rfl
@[simp] theorem Leaf.run_smoothShift (l : Leaf) (s : State) : (l.run s).smoothShift = s.smoothShift := by cases l <;> rfl
@[simp] theorem Leaf.run_prngSeed (l : Leaf) (s : State) : (l.run s).prngSeed = s.prngSeed := by cases l <;> rfl
@[simp] theorem Leaf.run_actLog2n (l : Leaf) (s : State) : (l.run s).actLog2n = s.actLog2n := by cases l <;> rfl
@[simp] theorem Leaf.run_actChannels (l : Leaf) (s : State) : (l.run s).actChannels = s.actChannels := by cases l <;> rfl
@[simp] theorem Leaf.run_actSampleRate (l : Leaf) (s : State) : (l.run s).actSampleRate = s.actSampleRate := by cases l <;> rfl
@[simp] theorem Leaf.run_ha (l : Leaf) (s : State) : (l.run s).ha = s.ha := by cases l <;> rfl
@[simp] theorem Leaf.run_ringCap (l : Leaf) (s : State) : (l.run s).ringCap = s.ringCap := by cases l <;> rfl
@[simp] theorem Leaf.run_wss (l : Leaf) (s : State) : (l.run s).wss = s.wss := by cases l <;> rfl
@[simp] theorem Leaf.run_cmdCount (l : Leaf) (s : State) : (l.run s).cmdCount = s.cmdCount := by cases l <;> rfl
@[simp] theorem Leaf.run_markTag (l : Leaf) (s : State) : (l.run s).markTag = s.markTag := by cases l <;> rfl
@[simp] theorem Leaf.run_buserrAddr (l : Leaf) (s : State) : (l.run s).buserrAddr = s.buserrAddr := by cases l <;> rfl
@[simp] theorem Leaf.run_cmdq (l : Leaf) (s : State) : (l.run s).cmdq = s.cmdq := by cases l <;> rfl
@[simp] theorem Leaf.run_running (l : Leaf) (s : State) : (l.run s).running = s.running := by cases l <;> rfl
@[simp] theorem Leaf.run_inbox (l : Leaf) (s : State) : (l.run s).inbox = s.inbox := by cases l <;> rfl
@[simp] theorem Leaf.run_replies (l : Leaf) (s : State) : (l.run s).replies = s.replies := by cases l <;> rfl
@[simp] theorem Leaf.run_n (l : Leaf) (s : State) : (l.run s).n = s.n := by cases l <;> rfl
@[simp] theorem Leaf.run_hop (l : Leaf) (s : State) : (l.run s).hop = s.hop := by cases l <;> rfl
@[simp] theorem Leaf.run_cap (l : Leaf) (s : State) : (l.run s).cap = s.cap := by cases l <;> rfl
@[simp] theorem Leaf.run_ch (l : Leaf) (s : State) : (l.run s).ch = s.ch := by cases l <;> rfl
@[simp] theorem Leaf.run_accMax (l : Leaf) (s : State) : (l.run s).accMax = s.accMax := by cases l <;> rfl

/-! ### What a leaf does to the arrays -/

/-- A property of the arrays that every element write keeps is kept by every leaf. -/
theorem Leaf.run_mem_keeps {P : Memory → Prop} (l : Leaf) {s : State} (h : P s.mem)
    (hp : ∀ m e v, 0x04000000 ≤ Elem.offset e → P m → P (m.put e v)) : P (l.run s).mem := by
  have hi : ∀ m e x, 0x04000000 ≤ Elem.offset e → P m → P (m.putInt e x) := fun m e x he hm => hp m e _ he hm
  have off : ∀ e : Elem, (∀ n, e ≠ .win n) → (∀ k, e ≠ .omega k) → 0x04000000 ≤ e.offset := by
    intro e h1 h2
    cases e <;> simp only [Elem.offset] <;> first | omega | exact absurd rfl (h1 _) | exact absurd rfl (h2 _)
  have ok : ∀ e : Elem, (match e with | .win _ => False | .omega _ => False | _ => True) → 0x04000000 ≤ e.offset := by
    intro e h
    apply off <;> intro n hn <;> subst hn <;> exact h
  cases l with
  | push i => exact forRange_keeps h fun c m _ hm => hp _ _ _ (ok _ trivial) hm
  | pop i => exact forRange_keeps h fun c m _ hm => hp _ _ _ (ok _ trivial) (hp _ _ _ (ok _ trivial) hm)
  | cycleBegin => exact h
  | cycleEnd => exact h
  | loadframe c => exact forRange_keeps h fun n m _ hm => hi _ _ _ (ok _ trivial) (hi _ _ _ (ok _ trivial) hm)
  | ola c =>
    exact forRange_keeps (P := fun r : Memory × Bool => P r.1) h fun n r _ hm => hi _ _ _ (ok _ trivial) hm
  | pvBin c k =>
    exact hp _ _ _ (ok _ trivial) (hi _ _ _ (ok _ trivial) (hi _ _ _ (ok _ trivial) (hi _ _ _ (ok _ trivial)
      (hi _ _ _ (ok _ trivial) h))))
  | bitrev =>
    refine forRange_keeps h fun k m _ hm => ?_
    split
    · exact hp _ _ _ (ok _ trivial) (hp _ _ _ (ok _ trivial) (hp _ _ _ (ok _ trivial) (hp _ _ _ (ok _ trivial) hm)))
    · exact hm
  | bfly d st p =>
    exact hi _ _ _ (ok _ trivial) (hi _ _ _ (ok _ trivial) (hi _ _ _ (ok _ trivial) (hi _ _ _ (ok _ trivial) h)))
  | hermit =>
    exact forRange_keeps (P := fun r : Memory × Bool => P r.1) h fun n r _ hm =>
      hi _ _ _ (ok _ trivial) (hp _ _ _ (ok _ trivial) hm)
  | window => exact forRange_keeps h fun n m _ hm => hi _ _ _ (ok _ trivial) (hi _ _ _ (ok _ trivial) hm)
  | resample => exact forRange_keeps h fun n m _ hm => hi _ _ _ (ok _ trivial) hm

/-- A leaf keeps the arrays' canonical form. -/
theorem Leaf.run_wf (l : Leaf) {s : State} (h : s.mem.wf = true) : (l.run s).mem.wf = true :=
  l.run_mem_keeps (P := fun m => m.wf = true) h fun _ _ _ _ hm => Memory.put_wf _ _ hm

/-- A leaf never makes known what unlisted bytes read as. -/
@[simp] theorem Leaf.run_mem_cleared (l : Leaf) (s : State) : (l.run s).mem.cleared = s.mem.cleared :=
  l.run_mem_keeps (P := fun m => m.cleared = s.mem.cleared) rfl fun _ _ _ _ hm => hm

/-- A leaf writes neither WIN nor OMEGA (R55, R56). -/
theorem Leaf.run_readByte_tables (l : Leaf) (s : State) {a : Nat} (ha : a < 0x04000000) :
    (l.run s).mem.readByte a = s.mem.readByte a :=
  l.run_mem_keeps (P := fun m => m.readByte a = s.mem.readByte a) rfl fun m e v he hm =>
    (Memory.readByte_put_other m v (by unfold Elem.covers; omega)).trans hm

end Sys2Proof.Machine
end

