-- ==== Sys2Proof/Laws/Duties.lean ====
section
/-! SUPPORT. What the host's duties give (R304, R305, R311): in a run that keeps them, every IOBUF word that a PUSH reads,
issued by the host or run by a PROCESS, has been written, and CMDQ never overflows. -/

namespace Sys2Proof.Machine

/-! ### Everything a command's first step can do -/

/-- The state a first step works on: the one it starts in, or the one a reconfiguration leaves (R225, R233). -/
def State.baseOf (s u : State) : Prop := u = s ∨ u = s.reconfigured ∨ u = s.reconfigureFailed

/-- What a one-leaf command makes of that state before it completes. -/
def State.effectOf (u v : State) : Prop := v = u ∨ (∃ tag, v = markEffect tag u) ∨ ∃ l : Leaf, v = l.run u

/-- A command's first step raises an error, performs an effect and completes, or leaves the command executing, a PROCESS
before its first sample. -/
def State.firstStep (i : Instr) (s t : State) : Prop :=
  ∃ u, s.baseOf u ∧
    ((∃ e, t = u.raiseError e (encode i)) ∨ (∃ v, u.effectOf v ∧ t = v.complete) ∨
      ∃ p, t = u.start (encode i) p ∧ ∀ len j a, p = .process len j a → i = .process len ∧ j = 0 ∧ 0 < len)

/-- Everything `exec` can do. -/
theorem exec_cases {i : Instr} {s t : State} (h : exec i s = .next t) : s.firstStep i t := by
  have leaf : ∀ {j : Instr} {cs : List Check} {f : State → State} {u : State}, s.baseOf u → u.effectOf (f u) →
      leafCommand j cs f u = .next t → j = i → s.firstStep i t := by
    intro j cs f u hu hf hl hj
    subst hj
    obtain ⟨-, rfl⟩ | ⟨e, -, rfl⟩ := leafCommand_cases hl
    · exact ⟨u, hu, .inr (.inl ⟨_, hf, rfl⟩)⟩
    · exact ⟨u, hu, .inl ⟨e, rfl⟩⟩
  have comp : ∀ {j : Instr} {cs : List Check} {p : Progress} {u : State}, s.baseOf u →
      (∀ len k a, p = .process len k a → j = .process len ∧ k = 0 ∧ 0 < len) →
      compositeCommand j cs p u = .next t → j = i → s.firstStep i t := by
    intro j cs p u hu hp hl hj
    subst hj
    obtain ⟨-, rfl⟩ | ⟨e, -, rfl⟩ := compositeCommand_cases hl
    · exact ⟨u, hu, .inr (.inr ⟨p, rfl, hp⟩)⟩
    · exact ⟨u, hu, .inl ⟨e, rfl⟩⟩
  have start : ∀ {len : Nat} {u : State}, s.baseOf u → processStart len u = .next t → .process len = i → s.firstStep i t := by
    intro len u hu hl hi
    unfold processStart at hl
    split at hl
    · exact leaf hu (.inl rfl) hl hi
    · exact comp hu (by rintro _ _ _ ⟨⟩; exact ⟨rfl, rfl, by omega⟩) hl hi
  have here : s.baseOf s := .inl rfl
  have run : ∀ l : Leaf, s.effectOf (l.run s) := fun l => .inr (.inr ⟨l, rfl⟩)
  cases i with
  | nop => exact leaf (cs := []) (f := id) here (.inl rfl) h rfl
  | mark tag => exact leaf (cs := []) (f := markEffect tag) here (.inr (.inl ⟨tag, rfl⟩)) h rfl
  | configure =>
    simp only [exec, execConfigure] at h
    split at h <;> cases h
    · exact ⟨_, .inr (.inl rfl), .inr (.inl ⟨_, .inl rfl, rfl⟩)⟩
    · exact ⟨_, .inr (.inr rfl), .inl ⟨_, rfl⟩⟩
  | process len =>
    simp only [exec, execProcess] at h
    split at h
    · cases h; exact ⟨s, here, .inl ⟨_, rfl⟩⟩
    · split at h
      · split at h
        · exact start (.inr (.inl rfl)) h rfl
        · cases h; exact ⟨_, .inr (.inr rfl), .inl ⟨_, rfl⟩⟩
      · exact start here h rfl
  | cycle => exact comp here (by rintro _ _ _ ⟨⟩) h rfl
  | cycleBegin => exact leaf here (run .cycleBegin) h rfl
  | cycleEnd => exact leaf here (run .cycleEnd) h rfl
  | push j => exact leaf here (run (.push j)) h rfl
  | pop j => exact leaf here (run (.pop j)) h rfl
  | loadframe c => exact leaf here (run (.loadframe c)) h rfl
  | ola c => exact leaf here (run (.ola c)) h rfl
  | pvBin c k => exact leaf here (run (.pvBin c k)) h rfl
  | pvAll c => exact comp here (by rintro _ _ _ ⟨⟩) h rfl
  | bitrev => exact leaf here (run .bitrev) h rfl
  | bfly d st p => exact leaf here (run (.bfly d st p)) h rfl
  | fftStage d st => exact comp here (by rintro _ _ _ ⟨⟩) h rfl
  | fft d => exact comp here (by rintro _ _ _ ⟨⟩) h rfl
  | hermit => exact leaf here (run .hermit) h rfl
  | window => exact leaf here (run .window) h rfl
  | resample => exact leaf here (run .resample) h rfl

/-! ### What every step keeps of the arrays -/

/-- A property of the arrays that element writes and a reconfiguration's clearing keep is kept by a command's first
step. -/
theorem exec_mem_keeps {P : Memory → Prop} {i : Instr} {s t : State} (h : P s.mem)
    (put : ∀ m e v, P m → P (Memory.put m e v)) (clear : ∀ m, P m → P (Memory.clear m)) (hx : exec i s = .next t) :
    P t.mem := by
  obtain ⟨u, hu, ht⟩ := exec_cases hx
  have hP : P u.mem := by
    obtain rfl | rfl | rfl := hu
    · exact h
    · exact forRange_keeps (forRange_keeps (clear _ h) fun _ m _ => put m _ _) fun _ m _ => put m _ _
    · exact h
  obtain ⟨e, rfl⟩ | ⟨v, rfl | ⟨tag, rfl⟩ | ⟨l, rfl⟩, rfl⟩ | ⟨p, rfl, -⟩ := ht
  · exact hP
  · exact hP
  · exact hP
  · exact l.run_mem_keeps hP fun m e v _ => put m e v
  · exact hP

/-- The same of every engine step. -/
theorem engineStep_mem_keeps {P : Memory → Prop} {s t : State} (h : P s.mem)
    (put : ∀ m e v, P m → P (Memory.put m e v)) (clear : ∀ m, P m → P (Memory.clear m)) (hx : engineStep s = .next t) :
    P t.mem := by
  unfold engineStep at hx
  split at hx
  · rename_i r _
    cases hx
    have hl : P (r.progress.leaf.run s).mem := r.progress.leaf.run_mem_keeps h fun m e v _ => put m e v
    unfold continueCommand
    split <;> exact hl
  · split at hx
    · cases hx; exact h
    · split at hx
      · cases hx; exact h
      · rename_i w rest _
        unfold startCommand at hx
        split at hx
        · cases hx; exact h
        · exact exec_mem_keeps (s := { s with cmdq := rest }) h put clear hx

/-- A write of a register writes no array. -/
@[simp] theorem Reg.write_mem (r : Reg) (s : State) (v : Word) : (r.write s v).mem = s.mem := by
  cases r
  case ctrl => simp only [Reg.write, State.writeCtrl]; split_ifs <;> rfl
  case cmd => simp only [Reg.write, State.writeCmd]; split_ifs <;> rfl
  all_goals rfl

/-- A command that still executes after a write of a register executed before it, in the same configuration and build. -/
theorem Reg.write_running {r : Reg} {s : State} {v : Word} {p : Running} (h : (r.write s v).running = some p) :
    s.running = some p ∧ (r.write s v).ch = s.ch := by
  cases r
  case ctrl =>
    simp only [Reg.write, State.writeCtrl] at h ⊢
    split_ifs at h ⊢ <;> first | exact ⟨h, rfl⟩ | cases h
  case cmd =>
    simp only [Reg.write, State.writeCmd] at h ⊢
    split_ifs at h ⊢ <;> exact ⟨h, rfl⟩
  all_goals exact ⟨h, rfl⟩

/-! ### Written words stay written -/

/-- A byte of IOBUF, which nothing but a hardware reset makes unspecified, is listed. -/
def Memory.listed (m : Memory) (a : Nat) : Prop := (findCell m.cells a).isSome = true

theorem Memory.unlisted_iobuf (m : Memory) {a : Nat} (ha : 0x0B000000 ≤ a) : m.unlisted a = none := by
  simp [Memory.unlisted, inReconfigured]
  omega

theorem Memory.listed_writeByte_same (m : Memory) {a : Nat} (b : Byte) (ha : 0x0B000000 ≤ a) :
    (m.writeByte a b).listed a := by
  simp [Memory.listed, Memory.findCell_writeByte_same, m.unlisted_iobuf ha]

theorem Memory.listed_writeByte {m : Memory} {a : Nat} (a' : Nat) (b : Byte) (ha : 0x0B000000 ≤ a) (h : m.listed a) :
    (m.writeByte a' b).listed a := by
  by_cases he : a = a'
  · subst he; exact m.listed_writeByte_same b ha
  · rwa [Memory.listed, Memory.findCell_writeByte_other _ _ he]

theorem Memory.listed_put {m : Memory} {a : Nat} (e : Elem) (v : Word) (ha : 0x0B000000 ≤ a) (h : m.listed a) :
    (m.put e v).listed a := by
  unfold Memory.put Memory.writeWord
  exact listed_writeByte _ _ ha (listed_writeByte _ _ ha (listed_writeByte _ _ ha (listed_writeByte _ _ ha h)))

theorem Memory.listed_clear {m : Memory} {a : Nat} (ha : 0x0B000000 ≤ a) (h : m.listed a) : m.clear.listed a := by
  have hr : inReconfigured a = false := by simp [inReconfigured]; omega
  unfold Memory.listed Memory.clear
  rw [findCell_filter m.cells (fun k => !inReconfigured k) a]
  simpa [hr] using (show (findCell m.cells a).isSome = true from h)

/-- An IOBUF word is written when its four bytes are listed. -/
theorem Memory.written_iobuf {m : Memory} {c i : Nat} :
    m.written (.iobuf c i) = true ↔ ∀ j < 4, m.listed ((Elem.iobuf c i).offset + j) := by
  have hu : ∀ j, m.unlisted ((Elem.iobuf c i).offset + j) = none := fun j =>
    Memory.unlisted_iobuf m (by simp only [Elem.offset]; omega)
  simp only [Memory.written, hu, Option.isSome_none, Bool.or_false, List.all_cons, List.all_nil, Bool.and_true,
    Bool.and_eq_true, Memory.listed]
  constructor
  · rintro ⟨h0, h1, h2, h3⟩ j hj
    interval_cases j <;> assumption
  · exact fun h => ⟨h 0 (by omega), h 1 (by omega), h 2 (by omega), h 3 (by omega)⟩

theorem Memory.written_put {m : Memory} {c i : Nat} (e : Elem) (v : Word) (h : m.written (.iobuf c i) = true) :
    (m.put e v).written (.iobuf c i) = true := by
  rw [Memory.written_iobuf] at h ⊢
  exact fun j hj => Memory.listed_put e v (by simp only [Elem.offset]; omega) (h j hj)

theorem Memory.written_clear {m : Memory} {c i : Nat} (h : m.written (.iobuf c i) = true) :
    m.clear.written (.iobuf c i) = true := by
  rw [Memory.written_iobuf] at h ⊢
  exact fun j hj => Memory.listed_clear (by simp only [Elem.offset]; omega) (h j hj)

/-- What the host writes into IOBUF is written. -/
theorem Memory.written_put_same (m : Memory) (c i : Nat) (v : Word) : (m.put (.iobuf c i) v).written (.iobuf c i) = true := by
  rw [Memory.written_iobuf]
  have ha : 0x0B000000 ≤ (Elem.iobuf c i).offset := by simp only [Elem.offset]; omega
  intro j hj
  unfold Memory.put Memory.writeWord
  generalize (Elem.iobuf c i).offset = a at ha
  interval_cases j
  · exact listed_writeByte _ _ (by omega) (listed_writeByte _ _ (by omega) (listed_writeByte _ _ (by omega)
      (listed_writeByte_same _ _ (by omega))))
  · exact listed_writeByte _ _ (by omega) (listed_writeByte _ _ (by omega) (listed_writeByte_same _ _ (by omega)))
  · exact listed_writeByte _ _ (by omega) (listed_writeByte_same _ _ (by omega))
  · exact listed_writeByte_same _ _ (by omega)

/-! ### One step -/

/-- What a step that is no reset input does to the arrays: an element write, or an engine step. -/
theorem step_mem_keeps {P : Memory → Prop} {s t : State} (h : P s.mem) (put : ∀ m e v, P m → P (Memory.put m e v))
    (clear : ∀ m, P m → P (Memory.clear m)) (noReset : ∀ rest, s.inbox ≠ .hardReset :: rest) (hx : step s = .next t) :
    P t.mem := by
  unfold step at hx
  split at hx
  · exact engineStep_mem_keeps h put clear hx
  · rename_i e rest hin
    cases e with
    | engine => exact engineStep_mem_keeps (s := { s with inbox := rest }) h put clear hx
    | read addr size =>
      simp only [runEvent, hostRead] at hx
      split at hx <;> [split at hx; skip] <;> cases hx <;> exact h
    | write addr size v =>
      simp only [runEvent, hostWrite] at hx
      split at hx <;> [split at hx; skip] <;> cases hx
      · rename_i tgt _
        cases tgt with
        | reg r => simpa only [Target.write, Reg.write_mem] using h
        | elem e => exact put _ _ _ h
        | unlisted => exact h
        | twr j => exact h
        | twi j => exact h
      · exact h
    | hardReset => exact absurd hin (noReset rest)

/-- What an access reaches depends on the build and on BUSY alone. -/
theorem State.reach_congr {s s' : State} (hb : s'.build = s.build) (hr : s'.running = s.running) (addr size : Nat)
    (isWrite : Bool) : s'.reach addr size isWrite = s.reach addr size isWrite := by
  unfold State.reach State.busy
  rw [hb, hr]

/-- A host write that reaches an element stores it. -/
theorem hostWrite_elem {s t : State} {addr size : Nat} {v : Word} {e : Elem}
    (he : s.reach addr size true = some (.elem e)) (hx : hostWrite addr size v s = .next t) : t.mem = s.mem.put e v := by
  unfold hostWrite at hx
  rw [he] at hx
  split at hx <;> cases hx
  rfl

/-- Every IOBUF word of `host` is written in `s`. -/
def State.allWritten (host : List Elem) (s : State) : Prop :=
  ∀ c i, Elem.iobuf c i ∈ host → s.mem.written (.iobuf c i) = true

/-- What the host has written stays written: `hostWritten` follows the arrays. -/
theorem step_allWritten {host : List Elem} {s t : State} (h : s.allWritten host) (hx : step s = .next t) :
    t.allWritten (s.hostWritten host) := by
  intro c i hm
  by_cases hr : ∃ rest, s.inbox = .hardReset :: rest
  · obtain ⟨rest, hr⟩ := hr
    simp [State.hostWritten, hr] at hm
  · have keeps : Elem.iobuf c i ∈ host → t.mem.written (.iobuf c i) = true := fun hh =>
      step_mem_keeps (P := fun m => m.written (.iobuf c i) = true) (h c i hh) (fun m e v => Memory.written_put e v)
        (fun m => Memory.written_clear) (fun rest hin => hr ⟨rest, hin⟩) hx
    unfold State.hostWritten at hm
    split at hm
    · exact keeps hm
    · exact keeps hm
    · exact keeps hm
    · rename_i addr size v rest hin
      split at hm <;> try exact keeps hm
      rename_i e he
      rcases List.mem_cons.mp hm with he' | hm
      · simp only [step, hin, runEvent] at hx
        rw [hostWrite_elem ((State.reach_congr (s := s) (s' := { s with inbox := rest }) rfl rfl addr size true).trans he) hx, ← he']
        exact Memory.written_put_same _ _ _ _
      · exact keeps hm
    · simp at hm

/-! ### A run that keeps the duties -/

/-- Every word the host is held to have written is written: `Memory.written` is what R305's duty gives. -/
theorem DutifulRun.allWritten {start s : State} {host : List Elem} (h : DutifulRun start host s) : s.allWritten host := by
  induction h with
  | launch => simp [State.allWritten]
  | step _ _ next ih => exact step_allWritten ih next

/-- R304's conclusion: "no engine command reads an unspecified value". A PUSH or PROCESS that the engine starts in a
dutiful run reads written IOBUF words only. -/
theorem startReads_written {host : List Elem} {s : State} (hw : s.allWritten host) (hk : s.startKeepsDuty host = true)
    {e : Elem} (he : e ∈ s.startReads) : s.mem.written e = true := by
  simp only [State.startKeepsDuty, Bool.and_eq_true, List.all_eq_true, decide_eq_true_eq] at hk
  have hio : ∃ c i, e = .iobuf c i := by
    unfold State.startReads at he
    split at he <;> [split at he; skip; skip; skip] <;>
      simp only [List.not_mem_nil, State.iobufReads, List.mem_flatMap, List.mem_map] at he
    obtain ⟨c, -, i, -, rfl⟩ := he
    exact ⟨c, i, rfl⟩
  obtain ⟨c, i, rfl⟩ := hio
  exact hw c i (hk.2 _ he)

/-- What a command that starts and is not turned away reads, as `startReads` lists it. -/
theorem startReads_eq {s t : State} {w : Word} {rest : List Word} {i : Instr} (hr : s.running = none)
    (hh : s.halted = false) (hq : s.cmdq = w :: rest) (hd : decode w = .ok i) (hx : engineStep s = .next t)
    (ht : t.halted = false) : s.startReads = t.iobufReads i := by
  have hs : s.starting = some i := by simp [State.starting, State.busy, hr, hh, hq, hd, Except.toOption]
  simp [State.startReads, hs, hx, ht]

theorem State.mem_iobufReads_process {s : State} {len c j : Nat} (hc : c < s.ch) (hj : j < len) :
    Elem.iobuf c j ∈ s.iobufReads (.process len) := by
  simp only [State.iobufReads, iobufIndices, List.mem_flatMap, List.mem_range, List.mem_map]
  exact ⟨c, hc, j, hj, rfl⟩

/-- An executing PROCESS has its next sample in the block, and every IOBUF word of the block is written. -/
def State.blockWritten (s : State) : Prop :=
  ∀ w len i a, s.running = some { word := w, progress := .process len i a } →
    i < len ∧ ∀ c < s.ch, ∀ j < len, s.mem.written (.iobuf c j) = true

theorem State.blockWritten_of_idle {s : State} (h : s.running = none) : s.blockWritten := by
  intro w len i a hr
  rw [h] at hr
  cases hr

/-- The next sample of a PROCESS is a sample of the same block. -/
theorem Progress.next_process {s : State} {p : Progress} {len i : Nat} {a : SampleAt}
    (h : p.next s = some (.process len i a)) : ∃ i' a', p = .process len i' a' ∧ (i' < len → i < len) := by
  cases p with
  | process len' i' a' =>
    refine ⟨i', a', ?_⟩
    cases a' <;> simp only [Progress.next] at h
    · cases h; exact ⟨rfl, id⟩
    · split at h <;> cases h <;> exact ⟨rfl, id⟩
    · split at h <;> cases h
      rename_i hlt
      exact ⟨rfl, fun _ => hlt⟩
  | cycle a' => simp only [Progress.next, Option.map_eq_some_iff] at h; obtain ⟨_, _, ⟨⟩⟩ := h
  | fft d f => simp only [Progress.next, Option.map_eq_some_iff] at h; obtain ⟨_, _, ⟨⟩⟩ := h
  | stage d st q => simp only [Progress.next, Option.map_eq_some_iff] at h; obtain ⟨_, _, ⟨⟩⟩ := h
  | pvAll c k => simp only [Progress.next] at h; split at h <;> cases h

/-- An engine step that keeps the duties keeps an executing PROCESS's block written. -/
theorem engineStep_blockWritten {host : List Elem} {s t : State} (hw : s.allWritten host) (hb : s.blockWritten)
    (hk : s.startKeepsDuty host = true) (hx : engineStep s = .next t) : t.blockWritten := by
  have keeps : ∀ {c j : Nat}, s.mem.written (.iobuf c j) = true → t.mem.written (.iobuf c j) = true := fun {c j} h =>
    engineStep_mem_keeps (P := fun m => m.written (.iobuf c j) = true) h (fun m e v => Memory.written_put e v)
      (fun m => Memory.written_clear) hx
  have hx' := hx
  unfold engineStep at hx
  split at hx
  · rename_i r hr
    cases hx
    unfold continueCommand
    split
    · rename_i p hp
      rintro w len i a hrun
      cases hrun
      obtain ⟨i', a', hq, hlt⟩ := Progress.next_process hp
      obtain ⟨h1, h2⟩ := hb r.word len i' a' (by rw [hr, ← hq])
      exact ⟨hlt h1, fun c hc j hj => r.progress.leaf.run_mem_keeps (P := fun m => m.written (.iobuf c j) = true)
        (h2 c (by simpa using hc) j hj) fun m e v _ => Memory.written_put e v⟩
    · exact State.blockWritten_of_idle rfl
  · rename_i hr
    split at hx
    · cases hx; exact hb
    · rename_i hh
      split at hx
      · cases hx; exact hb
      · rename_i w rest hq
        unfold startCommand at hx
        split at hx
        · cases hx; exact State.blockWritten_of_idle rfl
        · rename_i i hd
          obtain ⟨u, hu, ht⟩ := exec_cases hx
          obtain ⟨e, rfl⟩ | ⟨v, -, rfl⟩ | ⟨p, rfl, hp⟩ := ht
          · exact State.blockWritten_of_idle rfl
          · exact State.blockWritten_of_idle rfl
          · rintro w' len i' a hrun
            cases hrun
            obtain ⟨rfl, rfl, hlen⟩ := hp _ _ _ rfl
            have hht : (u.start (encode (.process len)) (.process len 0 a)).halted = false := by
              obtain rfl | rfl | rfl := hu <;> exact Bool.eq_false_iff.mpr hh
            refine ⟨hlen, fun c hc j hj => keeps (startReads_written hw hk ?_)⟩
            rw [startReads_eq hr (by simpa using hh) hq hd hx' hht]
            exact State.mem_iobufReads_process hc hj

/-- A step that keeps the duties keeps an executing PROCESS's block written. -/
theorem step_blockWritten {host : List Elem} {s t : State} (hw : s.allWritten host) (hb : s.blockWritten)
    (hk : s.keepsDuties host = true) (hx : step s = .next t) : t.blockWritten := by
  unfold State.keepsDuties at hk
  have hx' := hx
  unfold step at hx
  split at hx
  · rename_i hin
    rw [hin] at hk
    exact engineStep_blockWritten hw hb hk hx
  · rename_i e rest hin
    rw [hin] at hk
    cases e with
    | engine => exact engineStep_blockWritten (s := { s with inbox := rest }) hw hb hk hx
    | read addr size =>
      simp only [runEvent, hostRead] at hx
      split at hx <;> [split at hx; skip] <;> cases hx <;> exact hb
    | hardReset => cases hx; exact State.blockWritten_of_idle rfl
    | write addr size v =>
      have keeps : ∀ {c j : Nat}, s.mem.written (.iobuf c j) = true → t.mem.written (.iobuf c j) = true := fun {c j} h =>
        step_mem_keeps (P := fun m => m.written (.iobuf c j) = true) h (fun m e v => Memory.written_put e v)
          (fun m => Memory.written_clear) (fun rest' h' => by rw [hin] at h'; cases h') hx'
      have same : ∀ {p : Running}, t.running = some p → s.running = some p ∧ t.ch = s.ch := by
        intro p hp
        simp only [runEvent, hostWrite] at hx
        split at hx <;> [split at hx; skip] <;> cases hx
        · rename_i tgt _
          cases tgt with
          | reg r => exact Reg.write_running (s := { s with inbox := rest }) hp
          | elem e => exact ⟨hp, rfl⟩
          | unlisted => exact ⟨hp, rfl⟩
          | twr j => exact ⟨hp, rfl⟩
          | twi j => exact ⟨hp, rfl⟩
        · exact ⟨hp, rfl⟩
      intro w len i a hrun
      obtain ⟨h1, h2⟩ := same hrun
      obtain ⟨h3, h4⟩ := hb w len i a h1
      exact ⟨h3, fun c hc j hj => keeps (h4 c (h2 ▸ hc) j hj)⟩

/-- In a dutiful run that starts with the engine idle, every PUSH leaf of an executing command reads written IOBUF words
only (R305). -/
theorem DutifulRun.push_reads_written {start s : State} {host : List Elem} (hi : start.running = none)
    (h : DutifulRun start host s) {r : Running} {i : Nat} (hr : s.running = some r) (hl : r.progress.leaf = .push i)
    {c : Nat} (hc : c < s.ch) : s.mem.written (.iobuf c i) = true := by
  have hb : s.blockWritten := by
    clear hr hl hc
    induction h with
    | launch => exact State.blockWritten_of_idle hi
    | step run duty next ih => exact step_blockWritten run.allWritten ih duty next
  obtain ⟨w, p⟩ := r
  have cyc : ∀ a : CycleAt, a.leaf ≠ .push i := by
    rintro (_ | _ | ⟨_, _ | _⟩ | _ | _ | ⟨_, _ | _⟩ | _ | _ | _ | _) <;> simp [CycleAt.leaf, FftAt.leaf]
  cases p with
  | process len j a =>
    cases a with
    | push =>
      cases hl
      exact (hb w len i .push hr).2 c hc i (hb w len i .push hr).1
    | inCycle a => exact absurd hl (cyc a)
    | pop => cases hl
  | cycle a => exact absurd hl (cyc a)
  | fft d f => cases f <;> cases hl
  | stage d st q => cases hl
  | pvAll c' k => cases hl

/-! ### What an access that keeps the duties does not do -/

/-- An access that keeps R306's duty meets no bus error for BUSY: where it is one, it is one with the engine idle too. -/
theorem State.reach_of_duty {s : State} {addr size : Nat} {isWrite : Bool} (hwin : s.inWindow addr = true)
    (hk : s.arrayAccessWhileBusy addr = false) :
    s.reach addr size isWrite = ({ s with running := none } : State).reach addr size isWrite := by
  simp only [State.arrayAccessWhileBusy, hwin, Bool.true_and] at hk
  unfold State.reach
  simp only [hk, show ({ s with running := none } : State).busy = false from rfl, Bool.and_false]

/-- A host write that keeps the duty never overflows CMDQ (R254). -/
theorem hostWrite_no_overflow {s t : State} {addr size : Nat} {v : Word}
    (hk : s.hostKeepsDuty (.write addr size v) = true) (hx : hostWrite addr size v s = .next t) (ho : t.ovf = true) :
    s.ovf = true := by
  unfold hostWrite at hx
  split at hx <;> [split at hx; skip] <;> cases hx
  · rename_i tgt htgt
    cases tgt with
    | reg r =>
      cases r
      case ctrl =>
        simp only [Target.write, Reg.write, State.writeCtrl] at ho
        split_ifs at ho <;> first | exact ho | cases ho
      case cmd =>
        simp only [State.hostKeepsDuty, State.writeOverflows, htgt, decide_true, Bool.true_and, Bool.and_eq_true,
          Bool.not_eq_true', decide_eq_false_iff_not] at hk
        simpa only [Target.write, Reg.write, State.writeCmd, if_pos (show s.cmdq.length < s.build.cmdqDepth by omega)]
          using ho
      all_goals exact ho
    | elem e => exact ho
    | unlisted => exact ho
    | twr j => exact ho
    | twi j => exact ho
  · exact ho

end Sys2Proof.Machine
end

