-- ==== Sys2Proof/Laws/Encoding.lean ====
section
/-! SUPPORT. The fields of a word put together from its four parts, and of an encoded command. -/

namespace Sys2Proof

/-- The word with OPC, w[23:20], w[19:16] and LO. -/
abbrev wordOf (opc : BitVec 8) (ch st : BitVec 4) (lo : BitVec 16) : Word := opc ++ (ch ++ (st ++ lo))

theorem wordOf_fieldOpc (opc : BitVec 8) (ch st : BitVec 4) (lo : BitVec 16) : fieldOpc (wordOf opc ch st lo) = opc := by
  unfold fieldOpc wordOf
  exact BitVec.extractLsb'_append_eq_left

theorem wordOf_chBits (opc : BitVec 8) (ch st : BitVec 4) (lo : BitVec 16) :
    (wordOf opc ch st lo).extractLsb' 20 4 = ch := by
  unfold wordOf
  apply BitVec.eq_of_getLsbD_eq
  intro i hi
  interval_cases i <;> simp only [BitVec.getLsbD_append, BitVec.getLsbD_extractLsb'] <;> rfl

theorem wordOf_stageBits (opc : BitVec 8) (ch st : BitVec 4) (lo : BitVec 16) :
    (wordOf opc ch st lo).extractLsb' 16 4 = st := by
  unfold wordOf
  apply BitVec.eq_of_getLsbD_eq
  intro i hi
  interval_cases i <;> simp only [BitVec.getLsbD_append, BitVec.getLsbD_extractLsb'] <;> rfl

theorem wordOf_loBits (opc : BitVec 8) (ch st : BitVec 4) (lo : BitVec 16) :
    (wordOf opc ch st lo).extractLsb' 0 16 = lo := by
  unfold wordOf
  apply BitVec.eq_of_getLsbD_eq
  intro i hi
  interval_cases i <;> simp only [BitVec.getLsbD_append, BitVec.getLsbD_extractLsb'] <;> rfl

theorem encode_fieldOpc (i : Instr) : fieldOpc (encode i) = i.opcode := wordOf_fieldOpc _ _ _ _

theorem encode_fieldCh (i : Instr) : fieldCh (encode i) = i.chBits.toNat :=
  congrArg BitVec.toNat (wordOf_chBits _ _ _ _)

theorem encode_fieldDir (i : Instr) : fieldDir (encode i) = if i.chBits.getLsbD 3 then .inverse else .forward := by
  unfold fieldDir encode
  rw [wordOf_chBits]

theorem encode_fieldStage (i : Instr) : fieldStage (encode i) = i.stageBits.toNat :=
  congrArg BitVec.toNat (wordOf_stageBits _ _ _ _)

theorem encode_fieldLo (i : Instr) : fieldLo (encode i) = i.loBits.toNat :=
  congrArg BitVec.toNat (wordOf_loBits _ _ _ _)

theorem wordOf_zero : wordOf 0#8 0#4 0#4 0#16 = 0#32 := by decide

/-- A word masked part by part. -/
theorem wordOf_and (opc opc' : BitVec 8) (ch ch' st st' : BitVec 4) (lo lo' : BitVec 16) :
    wordOf opc ch st lo &&& wordOf opc' ch' st' lo' = wordOf (opc &&& opc') (ch &&& ch') (st &&& st') (lo &&& lo') := by
  have h1 : (st ++ lo) &&& (st' ++ lo') = (st &&& st') ++ (lo &&& lo') := BitVec.and_append
  have h2 : (ch ++ (st ++ lo)) &&& (ch' ++ (st' ++ lo')) = (ch &&& ch') ++ ((st ++ lo) &&& (st' ++ lo')) :=
    BitVec.and_append
  have h3 : (opc ++ (ch ++ (st ++ lo))) &&& (opc' ++ (ch' ++ (st' ++ lo'))) =
      (opc &&& opc') ++ ((ch ++ (st ++ lo)) &&& (ch' ++ (st' ++ lo'))) := BitVec.and_append
  rw [h2, h1] at h3
  exact h3

/-- The parts of the reserved masks of R102. -/
theorem reservedMask_parts (f : Format) :
    reservedMask f =
      match f with
      | .n => wordOf 0 0xF 0xF 0xFFFF
      | .l => wordOf 0 0xF 0xF 0
      | .c => wordOf 0 0 0xF 0xFFFF
      | .ck => wordOf 0 0 0xF 0
      | .b => wordOf 0 0x7 0 0
      | .s => wordOf 0 0x7 0 0xFFFF
      | .d => wordOf 0 0x7 0xF 0xFFFF := by
  cases f <;> decide

theorem Dir.bits_and_seven (d : Dir) : d.bits &&& 0x7#4 = 0#4 := by cases d <;> decide

theorem Dir.bits_top (d : Dir) : (if d.bits.getLsbD 3 then Dir.inverse else Dir.forward) = d := by cases d <;> decide

end Sys2Proof
end

