-- ==== Sys2Proof/Laws/Launch.lean ====
section
/-! SUPPORT. What the clean launch of R313 leaves. -/

namespace Sys2Proof.Machine

/-- The reset input leads to a state right after hardware reset, with a fresh draw (R301, R67). -/
theorem State.hardReset_eq_justReset (s : State) :
    s.hardReset = State.justReset s.build (s.mem.powerOn + 1) s.inbox s.replies := rfl

/-- State.reset is right after hardware reset. -/
theorem State.reset_eq_justReset : State.reset = State.justReset Build.reference 0 [] [] := rfl

/-- A write of a boot register stores to that register alone (R304). -/
theorem Reg.write_bootRegister {r : Reg} (h : r ∈ bootRegisters) (s : State) (v : Word) :
    ∃ cl cc cr pt mo ss ps ie,
      r.write s v =
        { s with
          cfgLog2n := cl, cfgChannels := cc, cfgSampleRate := cr, pitchTarget := pt, mode := mo, smoothShift := ss
          prngSeed := ps, irqEnable := ie } := by
  simp only [bootRegisters, List.mem_cons, List.not_mem_nil, or_false] at h
  rcases h with rfl | rfl | rfl | rfl | rfl | rfl | rfl | rfl <;> exact ⟨_, _, _, _, _, _, _, _, rfl⟩

/-- The host writes of a boot store to the boot registers alone. -/
theorem State.writeRegs_boot {ws : List (Reg × Word)} (h : ∀ w ∈ ws, w.1 ∈ bootRegisters) (s : State) :
    ∃ cl cc cr pt mo ss ps ie,
      s.writeRegs ws =
        { s with
          cfgLog2n := cl, cfgChannels := cc, cfgSampleRate := cr, pitchTarget := pt, mode := mo, smoothShift := ss
          prngSeed := ps, irqEnable := ie } := by
  induction ws generalizing s with
  | nil => exact ⟨_, _, _, _, _, _, _, _, rfl⟩
  | cons w rest ih =>
    obtain ⟨cl, cc, cr, pt, mo, ss, ps, ie, h1⟩ := Reg.write_bootRegister (h w (by simp)) s w.2
    obtain ⟨cl', cc', cr', pt', mo', ss', ps', ie', h2⟩ := ih (fun x hx => h x (by simp [hx])) (w.1.write s w.2)
    refine ⟨cl', cc', cr', pt', mo', ss', ps', ie', ?_⟩
    rw [State.writeRegs, h2, h1]

/-- A byte outside WIN and OMEGA is not one the tables' writing changes. -/
theorem Memory.readByte_writeTables (m : Memory) {n a : Nat} (hn : n ≤ 2 ^ 15) (ha : 0x04000000 ≤ a) :
    (m.writeTables n).readByte a = m.readByte a := by
  unfold Memory.writeTables
  rw [forRange_readByte, forRange_readByte]
  · intro i m hi
    exact Memory.readByte_put_other _ _ (by unfold Elem.covers; simp only [Elem.offset]; omega)
  · intro i m hi
    exact Memory.readByte_put_other _ _ (by unfold Elem.covers; simp only [Elem.offset]; omega)

/-- An element all of whose bytes are 0 reads 0. -/
theorem Memory.get_eq_zero {m : Memory} {e : Elem} (h : ∀ a, e.covers a → m.readByte a = 0#8) : m.get e = 0#32 := by
  unfold Memory.get Memory.readWord
  rw [h _ (by simp [Elem.covers]), h _ (by simp [Elem.covers]), h _ (by simp [Elem.covers]), h _ (by simp [Elem.covers])]
  rfl

/-- WIN after a reconfiguration: the table below `n`, 0 from there on (R55). -/
theorem Memory.get_win_writeTables (m : Memory) {n i : Nat} (hi : i < 2 ^ 15) :
    (m.clear.writeTables n).get (.win i) = if i < n then BitVec.ofNat 32 (winCoeff n i) else 0#32 := by
  have apart : ∀ j, j ≠ i → (Elem.win j).Apart (.win i) := fun j hj => by
    unfold Elem.Apart; simp only [Elem.offset]; omega
  unfold Memory.writeTables
  split
  · rename_i h
    exact forRange_get_written (get := fun m : Memory => m.get (.win i)) h (Memory.get_put_same _ _ _)
      fun j m h1 _ => Memory.get_put_apart _ _ (apart j (by omega))
  · rw [forRange_get_apart fun j m hj => Memory.get_put_apart _ _ (apart j (by omega)), forRange_get_apart]
    · refine Memory.get_eq_zero fun a ha => ?_
      rw [Memory.readByte_clear, if_pos]
      simp only [Elem.covers, Elem.offset] at ha
      simp only [inReconfigured, Bool.and_eq_true, decide_eq_true_eq]
      omega
    · intro j m hj
      exact Memory.get_put_apart _ _ (by unfold Elem.Apart; simp only [Elem.offset]; omega)

/-- OMEGA after a reconfiguration: the table up to `n / 2`, 0 from there on (R56). -/
theorem Memory.get_omega_writeTables (m : Memory) {n k : Nat} (hn : n ≤ 2 ^ 15) (hk : k < 2 ^ 15) :
    (m.clear.writeTables n).get (.omega k) = if k ≤ n / 2 then BitVec.ofNat 32 (k * 2 ^ 32 / n) else 0#32 := by
  have apart : ∀ j, j ≠ k → (Elem.omega j).Apart (.omega k) := fun j hj => by
    unfold Elem.Apart; simp only [Elem.offset]; omega
  unfold Memory.writeTables
  rw [forRange_get_apart fun j m hj => Memory.get_put_apart _ _
    (by unfold Elem.Apart; simp only [Elem.offset]; omega)]
  split
  · rename_i h
    exact forRange_get_written (get := fun m : Memory => m.get (.omega k)) (by omega) (Memory.get_put_same _ _ _)
      fun j m h1 _ => Memory.get_put_apart _ _ (apart j (by omega))
  · rw [forRange_get_apart fun j m hj => Memory.get_put_apart _ _ (apart j (by omega))]
    refine Memory.get_eq_zero fun a ha => ?_
    rw [Memory.readByte_clear, if_pos]
    simp only [Elem.covers, Elem.offset] at ha
    simp only [inReconfigured, Bool.and_eq_true, decide_eq_true_eq]
    omega

/-- A successful reconfiguration, and its command's completion, leave the state of R224. -/
theorem State.reconfigured_isReconfigured {s : State} (hb : s.build.legal) (hv : s.configValid = true) :
    s.reconfigured.complete.isReconfigured := by
  simp only [State.configValid, Bool.and_eq_true, decide_eq_true_eq] at hv
  have hl : s.build.log2nmax ≤ 15 := hb.2.1
  have hn : 2 ^ s.cfgLog2n.toNat ≤ 2 ^ 15 := Nat.pow_le_pow_right (by norm_num) (by omega)
  have hN : s.build.nmax ≤ 2 ^ 15 := Nat.pow_le_pow_right (by norm_num) hl
  refine ⟨⟨rfl, rfl⟩, ⟨rfl, rfl, rfl⟩, ⟨rfl, rfl, rfl⟩, ⟨rfl, rfl, rfl, rfl, rfl⟩, ⟨rfl, rfl, rfl, rfl⟩, ⟨rfl, rfl, rfl⟩,
    ⟨rfl, rfl, rfl⟩, fun _ => ⟨fun i hi => ?_, fun k hk => ?_⟩, fun a h1 h2 => ?_⟩
  · exact Memory.get_win_writeTables s.mem (lt_of_lt_of_le hi hN)
  · exact Memory.get_omega_writeTables s.mem hn
      (by have : k < s.build.nmax / 2 + 1 := hk; omega)
  · refine (Memory.readByte_writeTables s.mem.clear hn h1).trans ?_
    rw [Memory.readByte_clear, if_pos]
    simp only [inReconfigured, Bool.and_eq_true, decide_eq_true_eq]
    omega

/-- What R313 says of a clean launch: the state of R224; HALTED = 0, CMDQ empty, nothing executing, IRQ_STATUS = RECONF |
DONE, SATFLAGS = 0 and ERR_CODE = 0; and of the registers R313 does not list, those that only later commands, bus errors
and overflows write stand at their reset values, CMD_COUNT apart, which has counted CONFIGURE. -/
theorem State.cleanLaunch_state {s : State} (h : s.cleanLaunch) :
    s.isReconfigured ∧ s.halted = false ∧ s.cmdq = [] ∧ s.running = none ∧ s.irqStatus = irqReconf ||| irqDone ∧
      s.satFlags = 0#3 ∧ s.errCode = .noError ∧ s.errCmd = 0#32 ∧ s.ovf = false ∧ s.cmdCount = 1#32 ∧
      s.markTag = 0#16 ∧ s.buserrAddr = 0#28 := by
  obtain ⟨b, draw, inbox, replies, ws, hb, hw, hs, hh⟩ := h
  obtain ⟨cl, cc, cr, pt, mo, ss, ps, ie, hboot⟩ := State.writeRegs_boot hw (State.justReset b draw inbox replies)
  rw [hboot] at hs
  generalize hB : ({ (State.justReset b draw inbox replies) with
    cfgLog2n := cl, cfgChannels := cc, cfgSampleRate := cr, pitchTarget := pt, mode := mo, smoothShift := ss
    prngSeed := ps, irqEnable := ie } : State) = boot at hs
  have hbuild : boot.build = b := by rw [← hB]; rfl
  have hq : boot.cmdq = [] := by rw [← hB]; rfl
  have hwr : boot.writeCmd (encode .configure) = { boot with cmdq := [encode .configure] } := by
    unfold State.writeCmd
    rw [if_pos (by rw [hq, hbuild]; exact hb.2.2.2.2.2.2.1), hq]
    rfl
  have hcq : ({ boot with halted := false, cmdq := [], running := none } : State) = boot := by rw [← hB]; rfl
  have hrun : boot.running = none := by rw [← hB]; rfl
  have hnh : boot.halted = false := by rw [← hB]; rfl
  have hdec : decode (encode .configure) = .ok .configure := by decide
  have hstep : engineStep (boot.writeCmd (encode .configure)) = exec .configure boot := by
    rw [hwr]
    simp only [engineStep, hrun, hnh, Bool.false_eq_true, if_false, startCommand, hdec]
    rw [hcq]
  rw [hstep] at hs
  have hc : boot.configValid = true := by
    by_contra hc
    have : s = boot.reconfigureFailed.raiseError .configInvalid (encode .configure) := by
      have : exec .configure boot = .next (boot.reconfigureFailed.raiseError .configInvalid (encode .configure)) :=
        if_neg hc
      rw [this] at hs
      injection hs with hs
      exact hs.symm
    rw [this] at hh
    exact Bool.noConfusion hh
  have hS : s = boot.reconfigured.complete := by
    have : exec .configure boot = .next boot.reconfigured.complete := if_pos hc
    rw [this] at hs
    injection hs with hs
    exact hs.symm
  rw [hS]
  refine ⟨State.reconfigured_isReconfigured (by rw [hbuild]; exact hb) hc, ?_⟩
  subst hB
  have hirq : (0#5 ||| irqReconf) ||| irqDone = irqReconf ||| irqDone := by decide
  exact ⟨rfl, rfl, rfl, hirq, rfl, rfl, rfl, rfl, rfl, rfl, rfl⟩

end Sys2Proof.Machine
end

