-- ==== Sys2Proof/Laws/Numeric.lean ====
section
/-! SUPPORT. The bounds of the arctangent's series: how far the approximations can lie, and so in which octant `atan2b`'s
rounded value does. -/

namespace Sys2Proof.Machine

theorem rshr_le {v b : Int} {p : Nat} (h : v + 2 ^ (p - 1) < (b + 1) * 2 ^ p) : rshr v p ≤ b := by
  unfold rshr
  have := (Int.ediv_lt_iff_lt_mul (show (0 : Int) < 2 ^ p by positivity)).2 h
  omega

theorem le_rshr {v b : Int} {p : Nat} (h : b * 2 ^ p ≤ v + 2 ^ (p - 1)) : b ≤ rshr v p :=
  (Int.le_ediv_iff_mul_le (show (0 : Int) < 2 ^ p by positivity)).2 h

theorem arctanInvSeries_succ_of_pos (q2 f d : Nat) {t : Nat} (h : 0 < t) :
    arctanInvSeries q2 (f + 1) d t = ((t / d : Nat) : Int) - arctanInvSeries q2 f (d + 2) (t / q2) := by
  rw [arctanInvSeries, if_neg (by omega)]

/-- An alternating series of shrinking terms lies between 0 and its first term. -/
theorem arctanInvSeries_bounds (q2 f d t : Nat) (hd : 0 < d) :
    0 ≤ arctanInvSeries q2 f d t ∧ arctanInvSeries q2 f d t ≤ (t / d : Nat) := by
  induction f generalizing d t with
  | zero => exact ⟨le_refl 0, Int.natCast_nonneg _⟩
  | succ f ih =>
    have h0 : (0 : Int) ≤ ((t / d : Nat) : Int) := Int.natCast_nonneg _
    simp only [arctanInvSeries]
    split
    · omega
    · have h := ih (d + 2) (t / q2) (by omega)
      have h1 : t / q2 / (d + 2) ≤ t / d :=
        (Nat.div_le_div_right (Nat.div_le_self t q2)).trans (Nat.div_le_div_left (by omega) hd)
      omega

/-- pi is above 3. -/
theorem three_mul_le_piFix {p : Nat} (hp : 128 ≤ p) : 3 * 2 ^ p ≤ piFix p := by
  obtain ⟨f, rfl⟩ : ∃ f, p = f + 1 := ⟨p - 1, by omega⟩
  have hX : 2 ^ 128 ≤ 2 ^ (f + 1) := Nat.pow_le_pow_right (by norm_num) hp
  have h1 := arctanInvSeries_bounds 25 f 3 (2 ^ (f + 1) / 5 / 25) (by norm_num)
  have h2 := arctanInvSeries_bounds 57121 (f + 1) 1 (2 ^ (f + 1) / 239) (by norm_num)
  unfold piFix
  rw [arctanInvSeries_succ_of_pos 25 f 1 (t := 2 ^ (f + 1) / 5) (by omega)]
  have hc : ((2 : Int) ^ (f + 1)) = ((2 ^ (f + 1) : Nat) : Int) := by push_cast; rfl
  rw [hc]
  generalize 2 ^ (f + 1) = X at *
  simp only [Nat.reduceAdd] at *
  omega

theorem div_mul_le (a b k : Nat) : a / b * k ≤ a * k / b := by
  rw [Nat.mul_comm (a / b), Nat.mul_comm a]
  exact Nat.mul_div_le_mul_div_assoc k a b

/-- Where each term is at most half the one before, the series is at most twice its first term. -/
theorem arctanSeries_le {u d : Nat} (hd : 0 < d) (hu : 2 * u ≤ d) (f n t : Nat) : arctanSeries u d f n t ≤ 2 * t := by
  induction f generalizing n t with
  | zero => simp only [arctanSeries]; omega
  | succ f ih =>
    simp only [arctanSeries]
    split
    · omega
    · have h := ih (n + 1) (t * (2 * n + 2) * u / ((2 * n + 3) * d))
      have h1 : t * (2 * n + 2) * u / ((2 * n + 3) * d) ≤ t / 2 := by
        rw [Nat.le_div_iff_mul_le (by norm_num)]
        have h2 : t * (2 * n + 2) * u * 2 ≤ t * ((2 * n + 3) * d) := by
          calc t * (2 * n + 2) * u * 2 = t * ((2 * n + 2) * (2 * u)) := by ring
            _ ≤ t * ((2 * n + 3) * d) := Nat.mul_le_mul_left _ (Nat.mul_le_mul (by omega) hu)
        calc t * (2 * n + 2) * u / ((2 * n + 3) * d) * 2 ≤ t * (2 * n + 2) * u * 2 / ((2 * n + 3) * d) :=
              div_mul_le _ _ _
          _ ≤ t * ((2 * n + 3) * d) / ((2 * n + 3) * d) := Nat.div_le_div_right h2
          _ = t := Nat.mul_div_cancel _ (by positivity)
      omega

/-- The arctangent of a ratio below 1 is at most 1. -/
theorem arctanFix_le {p y x : Nat} (h : y < x) : arctanFix p y x ≤ 2 ^ p := by
  unfold arctanFix
  have hd : 0 < x * x + y * y := by have : 0 < x * x := Nat.mul_pos (by omega) (by omega); omega
  have hy : y * y ≤ x * x := Nat.mul_le_mul h.le h.le
  have hxy : 2 * (x * y) ≤ x * x + y * y := by nlinarith [sq_nonneg ((x : Int) - y)]
  refine (arctanSeries_le hd (by omega) _ _ _).trans ?_
  have : 2 ^ p * (x * y) / (x * x + y * y) ≤ 2 ^ p / 2 := by
    rw [Nat.le_div_iff_mul_le (by norm_num)]
    calc 2 ^ p * (x * y) / (x * x + y * y) * 2 ≤ 2 ^ p * (x * y) * 2 / (x * x + y * y) := div_mul_le _ _ _
      _ ≤ 2 ^ p * (x * x + y * y) / (x * x + y * y) := Nat.div_le_div_right (by
          calc 2 ^ p * (x * y) * 2 = 2 ^ p * (2 * (x * y)) := by ring
            _ ≤ _ := Nat.mul_le_mul_left _ hxy)
      _ = 2 ^ p := Nat.mul_div_cancel _ hd
  omega

/-- What is between two bounds at every precision from `p` on stays between them when rounded by `roundExact`. -/
theorem roundExact_bounds {approx : Nat → Int} {err : Nat → Nat} {lo hi : Int} (fuel : Nat) {p : Nat} (hp : 128 ≤ p)
    (hlo : ∀ q, 128 ≤ q → lo ≤ rshr (approx q - err q) q) (hhi : ∀ q, 128 ≤ q → rshr (approx q) q ≤ hi) :
    lo ≤ roundExact approx err fuel p ∧ roundExact approx err fuel p ≤ hi := by
  have mono : ∀ q, rshr (approx q - err q) q ≤ rshr (approx q) q := fun q =>
    Int.ediv_le_ediv (by positivity) (by omega)
  induction fuel generalizing p with
  | zero => exact ⟨(hlo p hp).trans (mono p), hhi p hp⟩
  | succ f ih =>
    simp only [roundExact]
    split
    · exact ⟨hlo p hp, (mono p).trans (hhi p hp)⟩
    · exact ih (by omega)

/-- An angle of the first octant lies between 0 and a quarter turn. -/
theorem roundArctanOctant_bounds {y x : Nat} (h : y < x) :
    0 ≤ roundArctanOctant y x ∧ roundArctanOctant y x ≤ 2 ^ 30 := by
  have quot : ∀ q, 128 ≤ q →
      0 ≤ (arctanFix q y x : Int) * 2 ^ 31 * 2 ^ q / piFix q ∧
        (arctanFix q y x : Int) * 2 ^ 31 * 2 ^ q / piFix q ≤ 715827883 * 2 ^ q := by
    intro q hq
    have hpi := three_mul_le_piFix hq
    have hX : (0 : Int) < 2 ^ q := by positivity
    have ha : (arctanFix q y x : Int) ≤ 2 ^ q := by exact_mod_cast arctanFix_le h
    refine ⟨Int.ediv_nonneg (by positivity) (by omega), Int.ediv_le_of_le_mul (by omega) ?_⟩
    calc (arctanFix q y x : Int) * 2 ^ 31 * 2 ^ q ≤ 2 ^ q * 2 ^ 31 * 2 ^ q := by gcongr
      _ ≤ 715827883 * 2 ^ q * (3 * 2 ^ q) := by nlinarith [mul_pos hX hX]
      _ ≤ 715827883 * 2 ^ q * piFix q := by gcongr
  refine roundExact_bounds _ (le_refl 128) (fun q hq => le_rshr ?_) fun q hq => rshr_le ?_
  · have herr : (2 : Int) ^ 33 * 2 ^ (q / 4) ≤ 2 ^ (q - 1) := by
      rw [← pow_add]
      exact pow_le_pow_right₀ (by norm_num) (by omega)
    have hc : ((2 ^ 33 * 2 ^ (q / 4) : Nat) : Int) = 2 ^ 33 * 2 ^ (q / 4) := by push_cast; rfl
    rw [hc]
    linarith [(quot q hq).1]
  · have e : (2 : Int) ^ q = 2 * 2 ^ (q - 1) := by rw [← pow_succ']; congr 1; omega
    have hX : (0 : Int) < 2 ^ (q - 1) := by positivity
    have := (quot q hq).2
    rw [e] at this ⊢
    omega

/-- An angle of the first quadrant lies between 0 and a quarter turn. -/
theorem roundArctanQuadrant_bounds (y x : Nat) : 0 ≤ roundArctanQuadrant y x ∧ roundArctanQuadrant y x ≤ 2 ^ 30 := by
  unfold roundArctanQuadrant
  split
  · omega
  · split
    · omega
    · split
      · omega
      · split
        · exact roundArctanOctant_bounds ‹_›
        · have := roundArctanOctant_bounds (y := x) (x := y) (by omega)
          omega

end Sys2Proof.Machine
end

