-- ==== Sys2Proof/Laws/PerInstr.lean ====
section
/-! SUPPORT. Family ReservedBitsClear: every bit of a command word that is no field of its format is 0 (R102). -/

namespace Sys2Proof.Laws.ReservedBitsClear

/-- The word of the instruction has no reserved bit set. -/
def Statement (i : Instr) : Prop := encode i &&& reservedMask i.format = 0#32

theorem nop : Statement .nop := by unfold Statement; decide

theorem mark (tag : Nat) : Statement (.mark tag) := by
  unfold Statement
  rw [reservedMask_parts]
  exact (wordOf_and _ _ _ _ _ _ _ _).trans (by simp [wordOf_zero, Instr.opcode, Instr.chBits, Instr.stageBits])

theorem configure : Statement .configure := by unfold Statement; decide

theorem process (len : Nat) : Statement (.process len) := by
  unfold Statement
  rw [reservedMask_parts]
  exact (wordOf_and _ _ _ _ _ _ _ _).trans (by simp [wordOf_zero, Instr.opcode, Instr.chBits, Instr.stageBits])

theorem cycle : Statement .cycle := by unfold Statement; decide

theorem cycleBegin : Statement .cycleBegin := by unfold Statement; decide

theorem cycleEnd : Statement .cycleEnd := by unfold Statement; decide

theorem push (i : Nat) : Statement (.push i) := by
  unfold Statement
  rw [reservedMask_parts]
  exact (wordOf_and _ _ _ _ _ _ _ _).trans (by simp [wordOf_zero, Instr.opcode, Instr.chBits, Instr.stageBits])

theorem pop (i : Nat) : Statement (.pop i) := by
  unfold Statement
  rw [reservedMask_parts]
  exact (wordOf_and _ _ _ _ _ _ _ _).trans (by simp [wordOf_zero, Instr.opcode, Instr.chBits, Instr.stageBits])

theorem loadframe (ch : Nat) : Statement (.loadframe ch) := by
  unfold Statement
  rw [reservedMask_parts]
  exact (wordOf_and _ _ _ _ _ _ _ _).trans (by simp [wordOf_zero, Instr.opcode, Instr.stageBits, Instr.loBits])

theorem ola (ch : Nat) : Statement (.ola ch) := by
  unfold Statement
  rw [reservedMask_parts]
  exact (wordOf_and _ _ _ _ _ _ _ _).trans (by simp [wordOf_zero, Instr.opcode, Instr.stageBits, Instr.loBits])

theorem pvBin (ch k : Nat) : Statement (.pvBin ch k) := by
  unfold Statement
  rw [reservedMask_parts]
  exact (wordOf_and _ _ _ _ _ _ _ _).trans (by simp [wordOf_zero, Instr.opcode, Instr.stageBits])

theorem pvAll (ch : Nat) : Statement (.pvAll ch) := by
  unfold Statement
  rw [reservedMask_parts]
  exact (wordOf_and _ _ _ _ _ _ _ _).trans (by simp [wordOf_zero, Instr.opcode, Instr.stageBits, Instr.loBits])

theorem bitrev : Statement .bitrev := by unfold Statement; decide

theorem bfly (dir : Dir) (stage p : Nat) : Statement (.bfly dir stage p) := by
  unfold Statement
  rw [reservedMask_parts]
  exact (wordOf_and _ _ _ _ _ _ _ _).trans (by simp [wordOf_zero, Instr.opcode, Instr.chBits, Dir.bits_and_seven])

theorem fftStage (dir : Dir) (stage : Nat) : Statement (.fftStage dir stage) := by
  unfold Statement
  rw [reservedMask_parts]
  exact (wordOf_and _ _ _ _ _ _ _ _).trans (by simp [wordOf_zero, Instr.opcode, Instr.chBits, Instr.loBits, Dir.bits_and_seven])

theorem fft (dir : Dir) : Statement (.fft dir) := by unfold Statement; cases dir <;> decide

theorem hermit : Statement .hermit := by unfold Statement; decide

theorem window : Statement .window := by unfold Statement; decide

theorem resample : Statement .resample := by unfold Statement; decide

end Sys2Proof.Laws.ReservedBitsClear
end

