-- ==== Sys2Proof/Machine/Assembler.lean ====
section
/-! DEFINITION. The assembler syntax of R107 and the pseudo-commands of R108, on lists of characters: one command per
line, comma-separated operands in decimal or `0x` hexadecimal, `;` starts a comment. -/

namespace Sys2Proof.Machine

/-- The line up to its comment. -/
def beforeComment : List Char → List Char
  | [] => []
  | c :: rest => if c = ';' then [] else c :: beforeComment rest

/-- Drops leading blanks. -/
def dropBlanks : List Char → List Char
  | [] => []
  | c :: rest => if c = ' ' ∨ c = '\t' then dropBlanks rest else c :: rest

/-- Drops blanks at both ends. -/
def trimBlanks (l : List Char) : List Char := (dropBlanks (dropBlanks l).reverse).reverse

/-- The first word of a trimmed line, and the rest. -/
def splitWord : List Char → List Char × List Char
  | [] => ([], [])
  | c :: rest =>
    if c = ' ' ∨ c = '\t' then ([], rest)
    else ((c :: (splitWord rest).1), (splitWord rest).2)

/-- The pieces between commas. -/
def splitCommas : List Char → List (List Char)
  | [] => [[]]
  | c :: rest =>
    if c = ',' then [] :: splitCommas rest
    else
      match splitCommas rest with
      | [] => [[c]]
      | p :: ps => (c :: p) :: ps

/-- The value of a digit in a base up to 16. -/
def digitValue (base : Nat) (c : Char) : Option Nat :=
  let v :=
    if '0'.toNat ≤ c.toNat ∧ c.toNat ≤ '9'.toNat then some (c.toNat - '0'.toNat)
    else if 'a'.toNat ≤ c.toNat ∧ c.toNat ≤ 'f'.toNat then some (c.toNat - 'a'.toNat + 10)
    else if 'A'.toNat ≤ c.toNat ∧ c.toNat ≤ 'F'.toNat then some (c.toNat - 'A'.toNat + 10)
    else none
  match v with
  | some d => if d < base then some d else none
  | none => none

/-- Reads digits, most significant first, after the value `acc`. -/
def readDigits (base : Nat) : List Char → Nat → Option Nat
  | [], acc => some acc
  | c :: rest, acc =>
    match digitValue base c with
    | some d => readDigits base rest (acc * base + d)
    | none => none

/-- A number in decimal or `0x` hexadecimal (R107). -/
def readNumber : List Char → Option Nat
  | '0' :: 'x' :: d :: ds => readDigits 16 (d :: ds) 0
  | d :: ds => readDigits 10 (d :: ds) 0
  | [] => none

/-- The operands after the mnemonic. -/
def readOperands (l : List Char) : Option (List Nat) :=
  match trimBlanks l with
  | [] => some []
  | c :: rest => (splitCommas (c :: rest)).mapM (fun p => readNumber (trimBlanks p))

/-- The command a mnemonic and its operands name (R107), the pseudo-commands among them: `IFFT` is `FFT.I`, and
`WAIT_MARK tag` assembles to `MARK tag` (R108). -/
def namedCommand (name : List Char) (ops : List Nat) : Option Instr :=
  match name, ops with
  | ['N', 'O', 'P'], [] => some .nop
  | ['M', 'A', 'R', 'K'], [t] => some (.mark t)
  | ['W', 'A', 'I', 'T', '_', 'M', 'A', 'R', 'K'], [t] => some (.mark t)
  | ['C', 'O', 'N', 'F', 'I', 'G', 'U', 'R', 'E'], [] => some .configure
  | ['P', 'R', 'O', 'C', 'E', 'S', 'S'], [n] => some (.process n)
  | ['C', 'Y', 'C', 'L', 'E'], [] => some .cycle
  | ['C', 'Y', 'C', 'L', 'E', '_', 'B', 'E', 'G', 'I', 'N'], [] => some .cycleBegin
  | ['C', 'Y', 'C', 'L', 'E', '_', 'E', 'N', 'D'], [] => some .cycleEnd
  | ['P', 'U', 'S', 'H'], [i] => some (.push i)
  | ['P', 'O', 'P'], [i] => some (.pop i)
  | ['L', 'O', 'A', 'D', 'F', 'R', 'A', 'M', 'E'], [c] => some (.loadframe c)
  | ['O', 'L', 'A'], [c] => some (.ola c)
  | ['P', 'V', '_', 'B', 'I', 'N'], [c, k] => some (.pvBin c k)
  | ['P', 'V', '_', 'A', 'L', 'L'], [c] => some (.pvAll c)
  | ['B', 'I', 'T', 'R', 'E', 'V'], [] => some .bitrev
  | ['B', 'F', 'L', 'Y', '.', 'F'], [s, p] => some (.bfly .forward s p)
  | ['B', 'F', 'L', 'Y', '.', 'I'], [s, p] => some (.bfly .inverse s p)
  | ['F', 'F', 'T', '_', 'S', 'T', 'A', 'G', 'E', '.', 'F'], [s] => some (.fftStage .forward s)
  | ['F', 'F', 'T', '_', 'S', 'T', 'A', 'G', 'E', '.', 'I'], [s] => some (.fftStage .inverse s)
  | ['F', 'F', 'T', '.', 'F'], [] => some (.fft .forward)
  | ['F', 'F', 'T', '.', 'I'], [] => some (.fft .inverse)
  | ['I', 'F', 'F', 'T'], [] => some (.fft .inverse)
  | ['H', 'E', 'R', 'M', 'I', 'T'], [] => some .hermit
  | ['W', 'I', 'N', 'D', 'O', 'W'], [] => some .window
  | ['R', 'E', 'S', 'A', 'M', 'P', 'L', 'E'], [] => some .resample
  | _, _ => none

/-- One assembler line (R107): the command, if the line is one whose operands fit their fields. -/
def assembleLine (line : List Char) : Option Instr :=
  let l := splitWord (trimBlanks (beforeComment line))
  match readOperands l.2 with
  | some ops =>
    match namedCommand l.1 ops with
    | some i => if i.wellFormed then some i else none
    | none => none
  | none => none

end Sys2Proof.Machine
end

