-- ==== Sys2Proof/Tests/Slice0.lean ====
section
/-! SUPPORT. Tests on fixed values, with expected results from the spec (its worked examples, R109, and the vectors of
95_test_vectors.md), and for every obligation with hypotheses a witness that meets them all. -/

open Sys2Proof Sys2Proof.Machine

namespace Sys2Proof.Tests

set_option Elab.async false

/-! ### Helpers -/

/-- The state a step answers; a stop answers the reset state, which no test expects. -/
def after (o : Host.Outcome State Fault Refusal) : State :=
  match o with
  | .next s => s
  | .fault _ => State.reset
  | .refused _ => State.reset

/-- A small legal build. -/
def tinyBuild : Build := { log2nmax := 6, chmax := 2, bmax := 16, cmdqDepth := 4, baseIndex := 4, irqLine := 0 }

/-- Arrays of which every byte but IOBUF's is known to be 0. -/
def zeroed : Memory := { cells := [], cleared := true, powerOn := 0 }

/-- A configured state with transform size `2^l`, one channel, unity ratio, zeroed arrays and the registers a test names. -/
def ready (l : BitVec 4) : State :=
  { State.resetOf tinyBuild with configured := true, actLog2n := l, actChannels := 1#5, mem := zeroed }

/-- Sets a word of an array. -/
def State.with (s : State) (e : Elem) (x : Int) : State := s.setMem (s.mem.putInt e x)

/-- The scratch array's real parts, from index 0. -/
def scratchRe (s : State) (n : Nat) : List Int := (List.range n).map (fun k => s.mem.getInt (.scrRe k))

/-- Reset, then CFG_LOG2N = 4 (R225's example). -/
def beforeConfigure : State := { State.resetOf tinyBuild with cfgLog2n := 4#4 }

/-- R313 with R225's example: hardware reset, CFG_LOG2N written, CONFIGURE written to CMD and run. -/
def launched : State :=
  after (engineStep (((State.justReset tinyBuild 0 [] []).writeRegs [(.cfgLog2n, 4#32)]).writeCmd (encode .configure)))

/-! ### WellFormed refuses what no word expresses -/

theorem test_wellFormed_channel : (Instr.loadframe 16).wellFormed = false ∧ (Instr.loadframe 15).wellFormed = true := by
  decide

theorem test_wellFormed_stage : (Instr.fftStage .forward 16).wellFormed = false ∧
    (Instr.fftStage .forward 15).wellFormed = true := by decide

theorem test_wellFormed_lo : (Instr.push 65536).wellFormed = false ∧ (Instr.push 65535).wellFormed = true := by decide

theorem test_wellFormed_two_operands : (Instr.pvBin 16 0).wellFormed = false ∧ (Instr.pvBin 0 65536).wellFormed = false ∧
    (Instr.bfly .inverse 16 0).wellFormed = false ∧ (Instr.bfly .inverse 0 65536).wellFormed = false := by decide

/-! ### Decoding words written out bit by bit from R101 to R103 -/

/-- SEQ: PROCESS, OPC 0x03, `LO` = 256. -/
theorem test_decode_process : decode 0b00000011_0000_0000_0000000100000000#32 = .ok (.process 256) := by decide

/-- SEQ: MARK, OPC 0x01, every bit of `LO`; CONFIGURE, CYCLE, CYCLE_BEGIN, CYCLE_END and NOP by their opcodes. -/
theorem test_decode_sequencer :
    decode 0b00000001_0000_0000_1111111111111111#32 = .ok (.mark 65535) ∧ decode 0b00000000_0000_0000_0000000000000000#32 = .ok .nop ∧
      decode 0b00000010_0000_0000_0000000000000000#32 = .ok .configure ∧
      decode 0b00000100_0000_0000_0000000000000000#32 = .ok .cycle ∧
      decode 0b00000101_0000_0000_0000000000000000#32 = .ok .cycleBegin ∧
      decode 0b00000110_0000_0000_0000000000000000#32 = .ok .cycleEnd := by decide

/-- RAG: PUSH and POP with `I` = 5, LOADFRAME and OLA with `CH` = 9. -/
theorem test_decode_ring :
    decode 0b00010000_0000_0000_0000000000000101#32 = .ok (.push 5) ∧
      decode 0b00010001_0000_0000_0000000000000101#32 = .ok (.pop 5) ∧
      decode 0b00010010_1001_0000_0000000000000000#32 = .ok (.loadframe 9) ∧
      decode 0b00010011_1001_0000_0000000000000000#32 = .ok (.ola 9) := by decide

/-- PAU: PV_BIN with `CH` = 1 and `K` = 5, PV_ALL with `CH` = 15. -/
theorem test_decode_phase :
    decode 0b00100000_0001_0000_0000000000000101#32 = .ok (.pvBin 1 5) ∧
      decode 0b00100001_1111_0000_0000000000000000#32 = .ok (.pvAll 15) := by decide

/-- FFTU: DIR at bit 23, S at bits 19 to 16, P in `LO`. -/
theorem test_decode_transform :
    decode 0b00110000_0000_0000_0000000000000000#32 = .ok .bitrev ∧
      decode 0b00110001_1000_0011_0000000000000010#32 = .ok (.bfly .inverse 3 2) ∧
      decode 0b00110001_0000_0001_0000000000000000#32 = .ok (.bfly .forward 1 0) ∧
      decode 0b00110010_0000_0010_0000000000000000#32 = .ok (.fftStage .forward 2) ∧
      decode 0b00110011_1000_0000_0000000000000000#32 = .ok (.fft .inverse) ∧
      decode 0b00110100_0000_0000_0000000000000000#32 = .ok .hermit := by decide

/-- RSU. -/
theorem test_decode_resampler :
    decode 0b01000000_0000_0000_0000000000000000#32 = .ok .window ∧
      decode 0b01000001_0000_0000_0000000000000000#32 = .ok .resample := by decide

/-- R108's pseudo-commands, and R107's comments, spaces and number forms. -/
theorem test_assemble :
    (assembleLine ['I', 'F', 'F', 'T']).map encode = some 0x33800000#32 ∧
      assembleLine ['W', 'A', 'I', 'T', '_', 'M', 'A', 'R', 'K', ' ', '0', 'x', '1', '0'] = some (.mark 16) ∧
      (assembleLine ['P', 'V', '_', 'B', 'I', 'N', ' ', '1', ',', ' ', '5', ' ', ';', 'x']).map encode =
        some 0x20100005#32 := by decide

/-! ### Numeric primitives and tables (R7, R20; 95_test_vectors.md section 2.1) -/

theorem test_rshr : rshr 3 1 = 2 ∧ rshr (-3) 1 = -1 ∧ rshr 5 2 = 1 := by decide

/-- The twiddle table's rows at LOG2NMAX = 12. -/
theorem test_twiddle :
    [0, 1, 512, 1024, 1536, 2047].map (fun j => (twiddleRe { tinyBuild with log2nmax := 12 } j,
        twiddleIm { tinyBuild with log2nmax := 12 } j)) =
      [(1073741824, 0), (1073740561, -1647099), (759250125, -759250125), (0, -1073741824), (-759250125, -759250125),
        (-1073740561, -1647099)] := by decide +kernel

theorem test_window :
    (List.range 16).map (winCoeff 16) =
      [0, 3488179, 6823909, 9861400, 12467901, 14529495, 15956081, 16685309, 16685309, 15956081, 14529495, 12467901,
        9861400, 6823909, 3488179, 0] := by decide +kernel

/-- V13 and V20's measured phases, and R11's two corners. -/
theorem test_atan2b :
    atan2b 5 (-2 ^ 24) = 0x7FFFFF34 ∧ atan2b (4 * 2 ^ 20) (3 * 2 ^ 20) = 0x25C80A3B ∧ atan2b 0 (-2 ^ 24) = -2 ^ 31 ∧
      atan2b 0 0 = 0 := by decide +kernel

/-- y < 0, by hand from R11: a diagonal, V13 reflected in the real axis, and 2^31 - 1/pi, which rounds to half a turn on
both sides of the negative real axis. -/
theorem test_atan2b_below_axis :
    atan2b (-7) (-7) = -(3 * 2 ^ 29) ∧ atan2b (-5) (-2 ^ 24) = -0x7FFFFF34 ∧ atan2b 1 (-2 ^ 31) = -2 ^ 31 ∧
      atan2b (-1) (-2 ^ 31) = -2 ^ 31 := by decide +kernel

/-- The first three draws from the reset seed (95_test_vectors.md section 1.5). -/
theorem test_xorshift : xorshift32 0x9E3779B9#32 = 0x510C4619#32 ∧ xorshift32 0x510C4619#32 = 0xE02E553E#32 ∧
    xorshift32 0xE02E553E#32 = 0x7BB98F3A#32 := by decide

/-! ### One step of each instruction -/

/-- R222's example: CMDQ = [NOP]. -/
theorem test_nop : let t := after (step { State.resetOf tinyBuild with cmdq := [0#32] })
    t.cmdq = [] ∧ t.cmdCount = 1#32 ∧ t.irqStatus = 0b00001#5 := by decide

/-- R223's example, with another command still queued: no DONE. -/
theorem test_mark : let t := after (step { State.resetOf tinyBuild with cmdq := [0x0100BEEF#32, 0#32] })
    t.markTag = 0xBEEF#16 ∧ t.irqStatus = 0b00010#5 := by decide

/-- R225's example. -/
theorem test_configure : let t := after (exec .configure beforeConfigure)
    t.ha = 4#32 ∧ t.ringCap = 64#32 ∧ t.outRd = 32#32 ∧ t.wss = 2111062348682380#64 ∧ t.hs = 4#32 ∧ t.rlen = 16#32 ∧
      t.norm = 572662300#32 ∧ t.configured = true ∧ t.irqStatus = 0b01001#5 := by decide +kernel

/-- A failed CONFIGURE clears CONFIGURED and PENDING and halts (R224, R252): CFG_LOG2N = 7 with LOG2NMAX = 6. -/
theorem test_configure_invalid : let t := after (exec .configure { ready 4#4 with cfgLog2n := 7#4, pending := true })
    t.configured = false ∧ t.pending = false ∧ t.errCode = .configInvalid ∧ t.actLog2n = 4#4 ∧ t.irqStatus = 0b00100#5 := by
  decide

/-- R234: PROCESS unconfigured raises NOT_CONFIGURED; LEN above BMAX is reported before that (R251). -/
theorem test_process_errors :
    (after (exec (.process 16) (State.resetOf tinyBuild))).errCode = .notConfigured ∧
      (after (exec (.process 17) (State.resetOf tinyBuild))).errCode = .badIndex := by decide

/-- R234: PROCESS starts at the PUSH of its first sample. -/
theorem test_process_starts : (after (exec (.process 3) (ready 4#4))).running =
    some { word := 0x03000003#32, progress := .process 3 0 .push } := by decide

/-- V11: CYCLE with ACC = 3 and HA = 4. -/
theorem test_cycle_underflow : (after (exec .cycle { ready 4#4 with inAcc := 3#32 })).errCode = .accUnderflow := by decide

/-- R231: CYCLE starts at CYCLE_BEGIN with ACC = HA. -/
theorem test_cycle_starts : (after (exec .cycle { ready 4#4 with inAcc := 4#32 })).running =
    some { word := 0x04000000#32, progress := .cycle .start } := by decide

/-- R228's example. -/
theorem test_cycleBegin :
    let t := after (exec .cycleBegin { ready 4#4 with pitchTarget := 0x20000000#32, wss := 2111062348682380#64 })
    t.pitchCurrent = 0x14000000#32 ∧ t.cycRatio = 0x14000000#32 ∧ t.hs = 5#32 ∧ t.rlen = 12#32 ∧ t.norm = 715827875#32 := by
  decide

/-- R158's example. -/
theorem test_cycleEnd : let t := after (exec .cycleEnd { ready 4#4 with inRd := 60#32, outWr := 60#32, inAcc := 5#32 })
    t.inRd = 0#32 ∧ t.outWr = 0#32 ∧ t.inAcc = 1#32 ∧ t.cycleCount = 1#32 := by decide

/-- R142's example: the cursor wraps. -/
theorem test_push :
    let t := after (exec (.push 7) (State.with { ready 4#4 with inWr := 63#32, inAcc := 3#32 } (.iobuf 0 7) 0x00800000))
    t.mem.getInt (.inring 0 63) = 0x00800000 ∧ t.inWr = 0#32 ∧ t.inAcc = 4#32 := by decide +kernel

/-- V2: ACC = ACCMAX. -/
theorem test_push_overrun : let t := after (exec (.push 0) { ready 4#4 with inWr := 52#32, inAcc := 52#32 })
    t.errCode = .inOverrun ∧ t.halted = true ∧ t.errCmd = 0x10000000#32 ∧ t.irqStatus = 4#5 ∧ t.inAcc = 52#32 := by decide

/-- V5: the slot is delivered and cleared, and the cursor wraps. -/
theorem test_pop : let t := after (exec (.pop 2) (State.with { ready 4#4 with outRd := 63#32 } (.outring 0 63) (-7)))
    t.mem.getInt (.iobuf 0 2) = -7 ∧ t.mem.getInt (.outring 0 63) = 0 ∧ t.outRd = 0#32 := by decide +kernel

/-- R152's example. -/
theorem test_loadframe :
    let t := after (exec (.loadframe 0)
      (State.with (State.with { ready 4#4 with inRd := 4#32 } (.inring 0 0) (2 ^ 24)) (.win 8) 16685309))
    t.mem.getInt (.scrRe 8) = 16685309 ∧ t.mem.getInt (.scrIm 8) = 0 := by decide +kernel

/-- R156's example. -/
theorem test_ola :
    let t := after (exec (.ola 0)
      (State.with { ready 4#4 with cycMode := .robotize, norm := 572662300#32 } (.scrRe 0) (2 ^ 24)))
    t.mem.getInt (.outring 0 52) = 8947848 ∧ t.satFlags = 0#3 := by decide +kernel

/-- V8: the sum saturates. -/
theorem test_ola_saturates :
    let t := after (exec (.ola 0) (State.with (State.with { ready 4#4 with cycMode := .robotize, norm := 572662300#32 }
      (.scrRe 0) (2 ^ 31 - 1)) (.outring 0 52) 0x7FFFFF00))
    t.mem.getInt (.outring 0 52) = 2 ^ 31 - 1 ∧ t.satFlags = 4#3 := by decide +kernel

/-- R166's example: ratio 2. -/
theorem test_pvBin :
    let t := after (exec (.pvBin 0 1) (State.with { ready 4#4 with cycRatio := 0x20000000#32 } (.scrIm 1) (2 ^ 24)))
    t.mem.getInt (.scrRe 1) = -2 ^ 24 ∧ t.mem.getInt (.scrIm 1) = 0 ∧ t.mem.getInt (.synph 0 1) = -2 ^ 31 ∧
      t.mem.getInt (.phprev 0 1) = 2 ^ 30 ∧ t.mem.getInt (.mag 0 1) = 2 ^ 24 := by decide +kernel

/-- V20: Whisperize. -/
theorem test_pvBin_whisperize :
    let t := after (exec (.pvBin 0 2) (State.with (State.with { ready 4#4 with cycMode := .whisperize } (.scrRe 2) (3 * 2 ^ 20))
      (.scrIm 2) (4 * 2 ^ 20)))
    t.prngState = 0x510C4619#32 ∧ t.mem.getInt (.mag 0 2) = 5242880 ∧ t.mem.getInt (.scrRe 2) = -2130270 ∧
      t.mem.getInt (.scrIm 2) = 4790589 := by decide +kernel

/-- V22, and R170: PV_ALL starts at bin 0. -/
theorem test_pvAll : (after (exec (.pvAll 1) (ready 4#4))).errCode = .badChannel ∧
    (after (exec (.pvAll 0) (ready 4#4))).running = some { word := 0x21000000#32, progress := .pvAll 0 0 } := by decide

/-- R181's example: N = 8, SCR[k] = (k, 0). -/
theorem test_bitrev :
    scratchRe (after (exec .bitrev (forRange 8 (fun k s => State.with s (.scrRe k) k) (ready 3#4)))) 8 =
      [0, 4, 2, 6, 1, 5, 3, 7] := by decide +kernel

/-- R183's example. -/
theorem test_bfly :
    let t := after (exec (.bfly .forward 1 0) (State.with (State.with (ready 4#4) (.scrRe 0) 0x01000000) (.scrRe 1) 0x00800000))
    scratchRe t 2 = [0x00C00000, 0x00400000] ∧ t.satFlags = 0#3 := by decide +kernel

/-- V27: the forward halving rounds ties up. -/
theorem test_bfly_rounds :
    scratchRe (after (exec (.bfly .forward 1 0) (State.with (ready 4#4) (.scrRe 0) (-3)))) 2 = [-1, -1] := by decide +kernel

/-- R185's example: N = 4, the whole stage. -/
theorem test_fftStage : scratchRe (stageEffect .forward 1 (State.with (ready 2#4) (.scrRe 0) (2 ^ 24))) 4 =
    [2 ^ 23, 2 ^ 23, 0, 0] := by decide +kernel

/-- R251: S = 0 is BAD_STAGE, not BAD_INDEX. -/
theorem test_fftStage_bad : (after (exec (.fftStage .forward 0) (ready 4#4))).errCode = .badStage ∧
    (after (exec (.bfly .forward 0 1) (ready 4#4))).errCode = .badStage := by decide

/-- R186's example: N = 4, forward. -/
theorem test_fft_forward : scratchRe (fftEffect .forward (State.with (ready 2#4) (.scrRe 0) 0x01000000)) 4 =
    [0x00400000, 0x00400000, 0x00400000, 0x00400000] := by decide +kernel

/-- R186's example: N = 4, inverse. -/
theorem test_fft_inverse :
    scratchRe (fftEffect .inverse (forRange 4 (fun k s => State.with s (.scrRe k) 0x00400000) (ready 2#4))) 4 =
      [0x01000000, 0, 0, 0] := by decide +kernel

/-- R188's example: N = 8, with the one negation that clips. -/
theorem test_hermit :
    let t := after (exec .hermit (State.with (State.with (State.with (State.with (ready 3#4) (.scrRe 1) 5) (.scrIm 1) 7)
      (.scrIm 3) (-2 ^ 31)) (.scrRe 2) (-3)))
    t.mem.getInt (.scrRe 7) = 5 ∧ t.mem.getInt (.scrIm 7) = -7 ∧ t.mem.getInt (.scrRe 6) = -3 ∧
      t.mem.getInt (.scrIm 5) = 2 ^ 31 - 1 ∧ t.satFlags = 1#3 := by decide +kernel

/-- R201's example. -/
theorem test_window_step :
    let t := after (exec .window (State.with (State.with (State.with (ready 4#4) (.scrRe 4) (2 ^ 24)) (.scrIm 4) 0x123)
      (.win 4) 12467901))
    t.mem.getInt (.scrRe 4) = 12467901 ∧ t.mem.getInt (.scrIm 4) = 0 := by decide +kernel

/-- R203's example: ratio 1.5. -/
theorem test_resample :
    let t := after (exec .resample (forRange 16 (fun k s => State.with s (.scrRe k) (k * 2 ^ 20))
      { ready 4#4 with cycRatio := 0x18000000#32, rlen := 10#32 }))
    t.mem.getInt (.rs 1) = 1572864 ∧ t.mem.getInt (.rs 9) = 14155776 := by decide +kernel

/-! ### The clean launch (R313) -/

/-- A clean launch exists. -/
theorem test_clean_launch : launched.cleanLaunch :=
  ⟨tinyBuild, 0, [], [], [(.cfgLog2n, 4#32)], by decide, by decide, rfl, rfl⟩

/-- R225's worked example from reset: N = 16, OUT_RD = 32, HS = 4, RLEN = 16; R313: IRQ_STATUS = RECONF | DONE. -/
theorem test_clean_launch_registers :
    launched.actLog2n = 4#4 ∧ launched.outRd = 32#32 ∧ launched.hs = 4#32 ∧ launched.rlen = 16#32 ∧
      launched.irqStatus = 0b01001#5 := by decide +kernel

/-! ### Decoding errors, the host's accesses -/

/-- R251's last example: RESERVED_FIELD even when unconfigured. -/
theorem test_reserved : let t := after (step { State.resetOf tinyBuild with cmdq := [0x31100000#32] })
    t.errCode = .reservedField ∧ t.errCmd = 0x31100000#32 ∧ t.cmdq = [] ∧ t.cmdCount = 0#32 := by decide

/-- A host write of CMD, then of CTRL.FLUSH and RESUME in one write (R35, R39). -/
theorem test_host_writes :
    (after (hostWrite 0x40000028 4 7#32 (ready 4#4))).cmdq = [7#32] ∧
      (after (hostWrite 0x40000010 4 6#32 { ready 4#4 with cmdq := [7#32], halted := true, ovf := true })) = ready 4#4 := by
  decide +kernel

/-- R76: an array access while BUSY, an unaligned one, and one of another size are bus errors; a register is not. -/
theorem test_bus_errors :
    (after (hostRead 0x47000000 4 { ready 4#4 with running := some { word := 0#32, progress := .cycle .start } })).irqStatus =
        0b10000#5 ∧
      (after (hostRead 0x40000002 4 (ready 4#4))).buserrAddr = 2#28 ∧
      (after (hostRead 0x40000000 2 (ready 4#4))).replies = [0#32] ∧
      (after (hostRead 0x40000000 4 (ready 4#4))).replies = [0x50564531#32] := by decide +kernel

/-- An access outside the window is none of this device's. -/
theorem test_outside_window : hostRead 0x50000000 4 (ready 4#4) = .fault (.hostOutsideWindow 0x50000000) := by
  have h : (ready 4#4).inWindow 0x50000000 = false := by decide +kernel
  simp [hostRead, h]

/-! ### Witnesses: for every obligation with hypotheses, states and operands that meet all of them together

`small` is the state a CONFIGURE with N = 4 reaches from reset in a small build; `smallWith` names the registers a witness
moves to the boundary of a clause. -/

/-- Reset, CFG_LOG2N = 2, CONFIGURE (R304), written out: WIN = 0, 14529495, 14529495, 0 and OMEGA = 0, 2^30, 2^31. -/
def small : State :=
  { State.resetOf tinyBuild with
    cfgLog2n := 2#4, configured := true, actLog2n := 2#4, actChannels := 1#5, actSampleRate := 44100#32
    ha := 1#32, ringCap := 16#32, wss := 422212449910050#64, hs := 1#32, rlen := 4#32, norm := 715827908#32
    outRd := 8#32, cmdCount := 1#32, irqStatus := 0b01001#5
    mem :=
      { cells := [(0x02000004, 0xD7#8), (0x02000005, 0xB3#8), (0x02000006, 0xDD#8), (0x02000008, 0xD7#8),
          (0x02000009, 0xB3#8), (0x0200000A, 0xDD#8), (0x03000007, 0x40#8), (0x0300000B, 0x80#8)]
        cleared := true, powerOn := 0 } }

/-- The invariant, decided. -/
def invHolds (s : State) : Bool := decide s.Inv

theorem inv_of_invHolds {s : State} (h : invHolds s = true) : s.Inv := of_decide_eq_true h

theorem small_is_configured : after (exec .configure { State.resetOf tinyBuild with cfgLog2n := 2#4 }) = small := by
  decide +kernel

/-- `small` with ACC and IN_WR as after `k` pushes. -/
def pushed (k : Nat) : State :=
  { small with inAcc := BitVec.ofNat 32 k, inWr := BitVec.ofNat 32 (k % 16), pushCount := BitVec.ofNat 32 k }

/-- `small` with one command queued. -/
def queued (i : Instr) : State := { small with cmdq := [encode i] }

/-- A bus access of 4 bytes at an offset of the window. -/
def at' (off : Nat) : Nat := tinyBuild.base + off

theorem small_inv : small.Inv ∧ small.configured = true := ⟨inv_of_invHolds (by decide +kernel), rfl⟩

theorem small_tables : small.TablesInv := by decide +kernel

/-- The invariant at the largest ACC a PUSH may meet, and at the one it refuses (R143). -/
theorem pushed_inv : (pushed 12).Inv ∧ (pushed 13).Inv ∧ (pushed 1).Inv ∧ (pushed 12).inAcc.toNat < 3 * small.n + small.n / 4 ∧
    3 * small.n + small.n / 4 ≤ (pushed 13).inAcc.toNat :=
  ⟨inv_of_invHolds (by decide +kernel), inv_of_invHolds (by decide +kernel),
    inv_of_invHolds (by decide +kernel), by decide +kernel⟩

/-- An executing command, one leaf before its end. -/
def executing : State := { pushed 1 with running := some { word := encode .cycle, progress := .cycle .finish } }

/-! ### The host's duties (R311) -/

/-- Each duty kept and broken: a PROCESS on an engine that is not configured (R304), its pending reconfiguration or not;
a PUSH and a PROCESS of IOBUF words of which the host has written one only (R305), and a PROCESS that is turned away. -/
theorem test_duties_of_commands :
    State.startKeepsDuty [] { State.resetOf tinyBuild with cmdq := [encode (.process 0)], pending := true } = false ∧
      (queued (.process 0)).startKeepsDuty [] = true ∧
      (queued (.push 1)).startKeepsDuty [.iobuf 0 0] = false ∧ (queued (.push 0)).startKeepsDuty [.iobuf 0 0] = true ∧
      (queued (.process 2)).startKeepsDuty [.iobuf 0 0] = false ∧
      (queued (.process 2)).startKeepsDuty [.iobuf 0 1, .iobuf 0 0] = true ∧
      (queued (.process 17)).startKeepsDuty [] = true := by decide +kernel

/-- Array accesses while BUSY, of any size (R306), and a CMD write to a full CMDQ; no breach are registers while BUSY,
and unpopulated, unaligned and ROM accesses. -/
theorem test_duties_of_accesses :
    executing.hostKeepsDuty (.read (at' 0x0B000000) 4) = false ∧
      executing.hostKeepsDuty (.write (at' 0x01000002) 2 0#32) = false ∧
      State.hostKeepsDuty { small with cmdq := [0#32, 0#32, 0#32, 0#32] } (.write (at' 0x28) 4 0#32) = false ∧
      State.hostKeepsDuty { small with cmdq := [0#32, 0#32, 0#32] } (.write (at' 0x28) 4 0#32) = true ∧
      executing.hostKeepsDuty (.write (at' 0x10) 4 8#32) = true ∧ small.hostKeepsDuty (.read (at' 0x400) 4) = true ∧
      small.hostKeepsDuty (.read (at' 0x0B000001) 2) = true ∧ small.hostKeepsDuty (.write (at' 0x01000000) 4 0#32) = true := by
  decide +kernel

/-- The host writes IOBUF[0][0], then CMD with PUSH 0; then the engine steps. -/
def dutiful : State :=
  { small with inbox := [.write (at' 0x0B000000) 4 7#32, .write (at' 0x28) 4 (encode (.push 0)), .engine] }

/-- One more step of a dutiful run, by its decided facts. -/
theorem dutiful_step {start s : State} {host host' : List Elem} (run : DutifulRun start host s)
    (h : s.keepsDuties host = true ∧ s.hostWritten host = host' ∧
      (match step s with | .next _ => true | .fault _ => false | .refused _ => false) = true) :
    DutifulRun start host' (after (step s)) := by
  obtain ⟨duty, rfl, hn⟩ := h
  cases hs : step s with
  | next t => exact run.step duty hs
  | fault f => simp [hs] at hn
  | refused r => simp [hs] at hn

/-- A run that keeps the duties, and in which the PUSH is performed. -/
theorem test_dutiful_run : ∃ t, DutifulRun dutiful [.iobuf 0 0] t ∧ t.pushCount = 1#32 ∧ t.halted = false := by
  have r1 := dutiful_step (host' := [.iobuf 0 0]) (.launch (start := dutiful)) (by decide +kernel)
  have r2 := dutiful_step (host' := [.iobuf 0 0]) r1 (by decide +kernel)
  have r3 := dutiful_step (host' := [.iobuf 0 0]) r2 (by decide +kernel)
  exact ⟨_, r3, by decide +kernel⟩

/-- The same host with the IOBUF write left out breaks R305's duty, and nothing is claimed of it. -/
theorem test_undutiful_run :
    State.keepsDuties [] { small with inbox := [.engine], cmdq := [encode (.push 0)] } = false := by decide +kernel

/-! ### The statements' witnesses -/

theorem witness_DecodeOfEncode : (Instr.bfly .inverse 15 65535).wellFormed = true ∧ (Instr.pvBin 15 65535).wellFormed = true := by
  decide

theorem witness_EncodeOfDecode : decode 0x31830002#32 = .ok (.bfly .inverse 3 2) := by decide

/-- The engine's turn, with nothing to come and before a later host read: each of the next four statements holds of
both. -/
theorem witness_engineTurn (s : State) (addr : Nat) :
    ({ s with inbox := [] } : State).inbox = [] ∧
      ∃ later, ({ s with inbox := [.engine, .read addr 4] } : State).inbox = .engine :: later := ⟨rfl, _, rfl⟩

theorem witness_StepRunsDecodedCommand :
    (queued .hermit).inbox = [] ∧ (queued .hermit).running = none ∧ (queued .hermit).halted = false ∧
      (queued .hermit).cmdq = [encode .hermit] ∧ decode (encode .hermit) = .ok .hermit := by decide +kernel

theorem witness_StepRaisesDecodingErrors :
    small.inbox = [] ∧ small.running = none ∧ small.halted = false ∧ decode 0x07000000#32 = .error .illegalOpcode ∧
      decode 0x31100000#32 = .error .reservedField := by decide +kernel

theorem witness_StoppedEngineStartsNothing :
    small.inbox = [] ∧ small.running = none ∧ small.cmdq = [] ∧ ({ queued .nop with halted := true } : State).halted = true ∧
      ({ queued .nop with halted := true } : State).running = none := by decide +kernel

theorem witness_HaltDoesNotDisturbExecutingCommand :
    executing.inbox = [] ∧ executing.running = some { word := encode .cycle, progress := .cycle .finish } ∧
      executing.halted = false ∧ ∃ t, step executing = .next t := ⟨rfl, rfl, rfl, _, rfl⟩

theorem witness_StepsTakeEventsInOrder (e : HostEvent) : ({ small with inbox := [e] } : State).inbox = e :: [] := rfl

theorem witness_ErrorProcedureRecordsTheFirstError : small.halted = false ∧ ({ small with halted := true } : State).halted = true := by
  decide +kernel

theorem witness_CompletionCountsAndRaisesDone : small.cmdq = [] ∧ (queued .nop).cmdq ≠ [] := by decide +kernel

/-- I = BMAX and BMAX - 1, ACC = ACCMAX, CH = ACT_CHANNELS, ACC = HA - 1. -/
theorem witness_RingCommandErrors :
    (State.resetOf tinyBuild).configured = false ∧ (pushed 13).configured = true ∧ (pushed 13).build.bmax ≤ 16 ∧
      15 < (pushed 13).build.bmax ∧ 3 * (pushed 13).n + (pushed 13).n / 4 ≤ (pushed 13).inAcc.toNat ∧
      (pushed 13).actChannels.toNat ≤ 1 ∧ small.inAcc.toNat < small.n / 4 := by decide +kernel

/-- CH = ACT_CHANNELS, K = N/2 + 1, S = 0 and L + 1, P = N and an odd P at stage 1. -/
theorem witness_SpectralCommandErrors :
    small.configured = true ∧ small.actChannels.toNat ≤ 1 ∧ 0 < small.actChannels.toNat ∧ small.n / 2 < 3 ∧
      small.actLog2n.toNat < 3 ∧ 2 ≤ small.actLog2n.toNat ∧ small.n ≤ 4 ∧ Nat.testBit 1 (1 - 1) = true := by decide +kernel

/-- LEN = BMAX and BMAX + 1, PENDING, ACC = ACCMAX, CFG_LOG2N = LOG2NMAX + 1. -/
theorem witness_SequencerCommandErrors :
    (State.resetOf tinyBuild).pending = false ∧ 16 ≤ (pushed 13).build.bmax ∧ (pushed 13).build.bmax < 17 ∧
      (pushed 13).pending = false ∧ 3 * (pushed 13).n + (pushed 13).n / 4 ≤ (pushed 13).inAcc.toNat ∧
      small.inAcc.toNat < small.n / 4 ∧ ({ small with cfgLog2n := 7#4, pending := true } : State).pending = true ∧
      ¬ (2 ≤ (7#4).toNat ∧ (7#4).toNat ≤ small.build.log2nmax) := by decide +kernel

theorem witness_MarkRecordsItsTag : 65535 < 65536 := by decide

/-- CFG_LOG2N = 2 and LOG2NMAX, CFG_CHANNELS = 1 and CHMAX. -/
theorem witness_ConfigureInstallsTheConfiguration :
    tinyBuild.legal ∧ ∀ l ∈ [2#4, 6#4], ∀ c ∈ [1#5, 2#5],
      2 ≤ ({ State.resetOf tinyBuild with cfgLog2n := l, cfgChannels := c } : State).cfgLog2n.toNat ∧
        l.toNat ≤ tinyBuild.log2nmax ∧ 1 ≤ c.toNat ∧ c.toNat ≤ tinyBuild.chmax := by decide +kernel

/-- `small` with another target. -/
def towards (target : Word) : State := { small with pitchTarget := target }

/-- A target above, and one below, the current ratio: the forced step of 1 and the floored negative step. -/
theorem witness_CycleBeginSmoothsAndLatches :
    (towards 0x10000001#32).Inv ∧ (towards 0x0FFFFFFF#32).Inv ∧ small.configured = true ∧
      smoothRatio 0x10000001 0x10000000 2 = (0x10000001 : Nat) ∧ smoothRatio 0x0FFFFFFF 0x10000000 2 = (0x0FFFFFFF : Nat) :=
  ⟨inv_of_invHolds (by decide +kernel), inv_of_invHolds (by decide +kernel), rfl, by decide, by decide⟩

theorem witness_SmootherMovesTowardTheTarget : 0x10000000 ≤ 0x10000001 ∧ 0x08000000 ≤ 0x10000000 := by decide

theorem witness_LatchedParametersAreBounded : small.Inv ∧ small.configured = true := small_inv

/-- CH = 0 of one, S = 1 and L, ACC = HA, LEN = 1 and BMAX, ACC = ACCMAX - 1. -/
theorem witness_CompositeCommandsStartAtTheirFirstLeaf :
    (pushed 12).configured = true ∧ 0 < (pushed 12).actChannels.toNat ∧ 2 ≤ (pushed 12).actLog2n.toNat ∧
      (pushed 1).n / 4 ≤ (pushed 1).inAcc.toNat ∧ 16 ≤ (pushed 12).build.bmax ∧ (pushed 12).pending = false ∧
      (pushed 12).inAcc.toNat < 3 * (pushed 12).n + (pushed 12).n / 4 := by decide +kernel

theorem witness_PendingReconfigurationRunsInProcess :
    let s := { State.resetOf tinyBuild with cfgLog2n := 6#4, cfgChannels := 2#5, pending := true }
    s.pending = true ∧ 16 ≤ s.build.bmax ∧ 2 ≤ s.cfgLog2n.toNat ∧ s.cfgLog2n.toNat ≤ s.build.log2nmax ∧
      1 ≤ s.cfgChannels.toNat ∧ s.cfgChannels.toNat ≤ s.build.chmax := by decide

theorem witness_PushAppendsOneSamplePerChannel :
    (pushed 12).Inv ∧ (pushed 12).configured = true ∧ 15 < (pushed 12).build.bmax ∧
      (pushed 12).inAcc.toNat < 3 * (pushed 12).n + (pushed 12).n / 4 :=
  ⟨pushed_inv.1, by decide +kernel⟩

theorem witness_PopDeliversAndClearsOneSlot : small.Inv ∧ small.configured = true ∧ 15 < small.build.bmax :=
  ⟨small_inv.1, by decide +kernel⟩

theorem witness_FrameAddressesAreDistinctRingAddresses : 0 < 4 * small.n ∧ 15 < 4 * small.n := by decide +kernel

theorem witness_LoadframeWindowsTheFrame : small.configured = true ∧ 0 < small.actChannels.toNat := by decide +kernel

/-- `small` with its mode latched. -/
def inMode (m : Mode) : State := { small with cycMode := m }

/-- Every mode, with the frame of that mode. -/
theorem witness_OlaAccumulatesTheFrame (m : Mode) :
    (inMode m).Inv ∧ (inMode m).configured = true ∧ 0 < (inMode m).actChannels.toNat := by
  cases m <;> exact ⟨inv_of_invHolds (by decide +kernel), by decide +kernel⟩

/-- One slot whose sum clips, beside slots whose sums do not. -/
theorem witness_OlaAccumulatesTheFrame_clips :
    let s := State.with (State.with (inMode .robotize) (.scrRe 1) (2 ^ 31 - 1))
      (.outring 0 ((inMode .robotize).frameAddr small.outWr 1)) (2 ^ 31 - 1)
    2 ^ 31 - 1 < s.mem.getInt (.outring 0 (s.frameAddr s.outWr 1)) + rshr (s.mem.getInt (.scrRe 1) * s.norm.toNat) 30 := by
  decide +kernel

theorem witness_CycleEndAdvancesOneHop : (pushed 1).configured = true ∧ (pushed 1).n / 4 ≤ (pushed 1).inAcc.toNat := by
  decide +kernel

/-- Every mode; bins 0, 1 and N/2. -/
theorem witness_PvBinRunsTheRecurrence (m : Mode) :
    (inMode m).Inv ∧ (inMode m).configured = true ∧ 0 < (inMode m).actChannels.toNat ∧
      ∀ k ∈ [0, 1, 2], k ≤ (inMode m).n / 2 := by
  cases m <;> exact ⟨inv_of_invHolds (by decide +kernel), by decide +kernel⟩

theorem witness_XorshiftNeverYieldsZero : 0x80000000#32 ≠ 0#32 := by decide

theorem witness_OnlyWhisperizeDependsOnTheGenerator : (inMode .robotize).cycMode ≠ .whisperize ∧
    (inMode .pitchShift).cycMode ≠ .whisperize := by decide +kernel

theorem witness_OnlyCycleBeginWritesLatchedParameters : Leaf.cycleEnd ≠ .cycleBegin := by decide

theorem witness_BitrevPermutesTheScratch : small.configured = true ∧ 3 < small.n := by decide +kernel

theorem witness_ReverseBitsReversesAndIsAnInvolution : 32767 < 2 ^ 15 ∧ 0 < 2 ^ 0 := by decide

/-- Both directions; the first and the last stage, the first and the last upper index. -/
theorem witness_BflyComputesOneButterfly :
    small.configured = true ∧ ∀ stp ∈ [(1, 0), (1, 2), (2, 1)],
      1 ≤ stp.1 ∧ stp.1 ≤ small.actLog2n.toNat ∧ stp.2 < small.n ∧ Nat.testBit stp.2 (stp.1 - 1) = false := by decide +kernel

/-- A butterfly of which one result clips: SCR[0] = SCR[1] = 2^31 - 1, inverse, stage 1. -/
theorem witness_BflyComputesOneButterfly_clips : clips ((2 ^ 31 - 1) + rshr ((2 ^ 31 - 1) * 2 ^ 30 - 0) 30) = true := by decide

/-- The bin whose negation clips, and one whose does not. -/
theorem witness_HermitCompletesTheSpectrum :
    small.configured = true ∧ 1 < small.n / 2 ∧ (State.with small (.scrIm 1) (-2 ^ 31)).mem.getInt (.scrIm 1) = -2 ^ 31 ∧
      small.mem.getInt (.scrIm 1) ≠ -2 ^ 31 := by decide +kernel

theorem witness_WindowScalesTheFrame : small.configured = true ∧ 3 < small.n := by decide +kernel

theorem witness_ResampleInterpolatesLinearly : small.Inv ∧ small.configured = true ∧ 3 < small.rlen.toNat :=
  ⟨small_inv.1, by decide +kernel⟩

theorem witness_TransformsRunTheirLoops :
    (queued (.fftStage .inverse 2)).Inv ∧ (queued (.fft .forward)).Inv ∧
      (queued (.fftStage .inverse 2)).configured = true ∧ (queued (.fft .forward)).inbox = [] ∧ (queued (.fft .forward)).running = none ∧ (queued (.fft .forward)).halted = false ∧
      2 ≤ (queued (.fftStage .inverse 2)).actLog2n.toNat :=
  ⟨inv_of_invHolds (by decide +kernel), inv_of_invHolds (by decide +kernel), by decide +kernel⟩

theorem witness_PvAllRunsEveryBin :
    (queued (.pvAll 0)).Inv ∧ (queued (.pvAll 0)).configured = true ∧ (queued (.pvAll 0)).inbox = [] ∧
      (queued (.pvAll 0)).running = none ∧ (queued (.pvAll 0)).halted = false ∧
      0 < (queued (.pvAll 0)).actChannels.toNat :=
  ⟨inv_of_invHolds (by decide +kernel), by decide +kernel⟩

theorem witness_CycleRunsTheCycleBody :
    let s := { pushed 1 with cmdq := [encode .cycle] }
    s.Inv ∧ s.configured = true ∧ s.inbox = [] ∧ s.running = none ∧ s.halted = false ∧ s.n / 4 ≤ s.inAcc.toNat :=
  ⟨inv_of_invHolds (by decide +kernel), by decide +kernel⟩

/-- LEN = BMAX, with the largest backlog a PROCESS accepts. -/
theorem witness_ProcessRunsTheBlockLoop :
    let s := { pushed 12 with cmdq := [encode (.process 16)] }
    s.Inv ∧ s.configured = true ∧ s.inbox = [] ∧ s.running = none ∧ s.halted = false ∧ s.pending = false ∧
      16 ≤ s.build.bmax ∧ s.inAcc.toNat < 3 * s.n + s.n / 4 :=
  ⟨inv_of_invHolds (by decide +kernel), by decide +kernel⟩

/-- A configured state with a command executing. -/
theorem witness_EveryStepKeepsTheInvariant : executing.Inv ∧ ∃ t, step executing = .next t :=
  ⟨inv_of_invHolds (by decide +kernel), _, rfl⟩

theorem witness_EveryStepKeepsTheTables :
    small.Inv ∧ small.TablesInv ∧ step small = .next small := ⟨small_inv.1, small_tables, rfl⟩

theorem witness_CursorDistanceAfterPop : small.Inv ∧ small.configured = true ∧ small.popCount = small.pushCount :=
  ⟨small_inv.1, rfl, rfl⟩

theorem witness_RegistersReadTheirResetValues : tinyBuild.legal ∧
    ({ tinyBuild with log2nmax := 15, chmax := 16, bmax := 65535, cmdqDepth := 256 } : Build).legal := by decide

theorem witness_StatusShowsItsFields : (List.replicate 256 0#32 : List Word).length ≤ 256 := by
  rw [List.length_replicate]

/-- A legal build, and the first and last error code and mode. -/
theorem witness_StatusShowsItsFields_reads :
    small.build.legal ∧ (ErrCode.fifoOverflow, 11) ∈ [(ErrCode.noError, 0), (.fifoOverflow, 11)] ∧
      (Mode.whisperize, 2) ∈ [(Mode.pitchShift, 0), (.whisperize, 2)] := by decide +kernel

/-- The first and last word of each unlisted range of the register block (R32); the words beside them are listed. -/
theorem witness_registerBlock_unlisted :
    ([0x04C, 0x07C, 0x0B8, 0x0BC, 0x0D4, 0x0DC, 0x0F8, 0x3FC].map fun off => (regAt off).isSome) =
        [false, false, false, false, false, false, false, false] ∧
      ([0x048, 0x080, 0x0B4, 0x0C0, 0x0D0, 0x0E0, 0x0F4].map fun off => (regAt off).isSome) =
        [true, true, true, true, true, true, true] := by decide

theorem witness_ControlRegisterWrites : (7#32).toNat % 4 = 3 ∧ (4#32).toNat % 4 = 0 ∧ Reg.id ∉ [Reg.ctrl, .cmd] := by decide

theorem witness_CtrlWriteActsInOrder : (8#32).getLsbD 3 = true ∧ (7#32).getLsbD 3 = false := by decide

/-- FIFO_COUNT = CMDQ_DEPTH - 1 and CMDQ_DEPTH, halted and not. -/
theorem witness_CmdWriteQueuesOrOverflows :
    let s := { small with cmdq := [0#32, 0#32, 0#32, 0#32] }
    ({ small with cmdq := [0#32, 0#32, 0#32] } : State).cmdq.length < small.build.cmdqDepth ∧
      s.cmdq.length = s.build.cmdqDepth ∧ s.halted = false ∧ ({ s with halted := true } : State).halted = true := by
  decide +kernel

/-- The window's first and last byte. -/
theorem witness_BusErrorsAreTheAccessesOfR76 :
    small.build.legal ∧ small.inWindow (at' 0) = true ∧ small.inWindow (at' (2 ^ 28 - 1)) = true := by decide +kernel

/-- The register block ends at 0x3FF; the twiddle ROM, WIN, OMEGA, PHPREV, SCR, RS, INRING and IOBUF end where R73 says. -/
theorem witness_BusErrorsAreTheAccessesOfR76_boundaries :
    ∀ ok ∈ [(0x3FC, true), (0x400, false), (0x010000FC, true), (0x01000100, false), (0x020000FC, true), (0x02000100, false),
      (0x03000080, true), (0x03000084, false), (0x04020080, true), (0x04020084, false), (0x04040000, false),
      (0x070001FC, true), (0x07000200, false), (0x080001FC, true), (0x08000200, false), (0x090803FC, true),
      (0x09080400, false), (0x0B04003C, true), (0x0B040040, false), (0x0C000000, false)],
      (small.reach (at' ok.1) 4 false).isSome = ok.2 := by decide +kernel

theorem witness_BusErrorEffects : small.inWindow (at' 0x02000000) = true ∧ small.reach (at' 0x02000000) 4 true = none ∧
    small.reach (at' 0x400) 4 false = none := by decide +kernel

theorem witness_ArrayWordsReadBack : small.build.legal ∧ small.inWindow (at' 0x0B04003C) = true ∧
    small.reach (at' 0x0B04003C) 4 true = some (.elem (.iobuf 1 15)) := by decide +kernel

/-- The last words of WIN, of TWR and of TWI in this build. -/
theorem witness_ArrayWordsReadBack_reads :
    small.inWindow (at' 0x020000FC) = true ∧ small.reach (at' 0x020000FC) 4 false = some (.elem (.win 63)) ∧
      small.reach (at' 0x010000F8) 4 false = some (.twr 31) ∧ small.reach (at' 0x010000FC) 4 false = some (.twi 31) := by
  decide +kernel

/-- Each clause about atan2b: an argument beside the negative real axis that rounds to -2^31, and one that does not. -/
theorem witness_TrigonometricQuadrants :
    atan2b 1 (-2 ^ 31) = -2 ^ 31 ∧ atan2b (-1) 1 ≠ -2 ^ 31 ∧ (0 : Int) < 1 := by decide +kernel

/-- The model's own use for WIN[1] of N = 4, whose real value is 2^24 * sqrt(3/4) (R55): the sine series keeps its bound
at 128 bits, and the test settles there. -/
theorem witness_RoundingIsExactWhereItSettles :
    let approx : Nat → Int := fun q => 2 ^ 24 * sinFix q (angleFix q (min 1 (4 - 1 - 1)) (4 - 1))
    let err : Nat → Nat := fun q => 2 ^ 24 * 2 ^ (q / 4)
    1 ≤ 128 ∧
      ∃ j < roundFuel,
        rshr (approx (2 ^ j * 128) - err (2 ^ j * 128)) (2 ^ j * 128) =
            rshr (approx (2 ^ j * 128) + err (2 ^ j * 128)) (2 ^ j * 128) ∧
          ∀ i ≤ j, |(approx (2 ^ i * 128) : ℝ) - 2 ^ 24 * Real.sqrt (3 / 4) * 2 ^ (2 ^ i * 128)| ≤ ((err (2 ^ i * 128) : Nat) : ℝ) := by
  have value : 2 ^ 24 * sinFix 128 (angleFix 128 1 3) = 4944131037504349260632974206930542381735346176 := by decide +kernel
  refine ⟨by decide, 0, by decide, by decide +kernel, fun i hi => ?_⟩
  obtain rfl : i = 0 := by omega
  have lo : (4944131037504349260632974206930542381735346176 - 2 ^ 56) / 2 ^ 152 ≤ Real.sqrt (3 / 4) :=
    Real.le_sqrt_of_sq_le (by norm_num)
  have hi : Real.sqrt (3 / 4) ≤ (4944131037504349260632974206930542381735346176 + 2 ^ 56) / 2 ^ 152 :=
    Real.sqrt_le_iff.2 ⟨by norm_num, by norm_num⟩
  rw [div_le_iff₀ (by norm_num)] at lo
  rw [le_div_iff₀ (by norm_num)] at hi
  show |((2 ^ 24 * sinFix 128 (angleFix 128 1 3) : Int) : ℝ) - 2 ^ 24 * Real.sqrt (3 / 4) * 2 ^ 128| ≤
    ((2 ^ 24 * 2 ^ (128 / 4) : Nat) : ℝ)
  rw [value, abs_le]
  push_cast
  generalize Real.sqrt (3 / 4) = t at *
  constructor <;> linarith

end Sys2Proof.Tests
end

/-! The numeric primitives of 00_scope.md: the rounding shift and the exact rounding built on it (R7, R9), the wrapped
and the saturated word (R8), the rounded square root (R10). -/

namespace Sys2Proof.Machine

/-! ### The rounding shift (R7) -/

theorem rshr_mul_le (x : Int) (k : Nat) : rshr x k * 2 ^ k ≤ x + 2 ^ (k - 1) :=
  Int.ediv_mul_le _ (by positivity)

theorem lt_rshr_add_one_mul (x : Int) (k : Nat) : x + 2 ^ (k - 1) < (rshr x k + 1) * 2 ^ k :=
  Int.lt_ediv_add_one_mul_self _ (by positivity)

/-! ### The wrapped word (R8) -/

theorem le_wrap32 (x : Int) : -2 ^ 31 ≤ wrap32 x := Int.le_bmod (by norm_num)

theorem wrap32_lt (x : Int) : wrap32 x < 2 ^ 31 := Int.bmod_lt (by norm_num)

theorem wrap32_sub_self_emod (x : Int) : (wrap32 x - x) % 2 ^ 32 = 0 :=
  Int.emod_eq_emod_iff_emod_sub_eq_zero.mp (Int.bmod_emod (x := x) (m := 2 ^ 32))

/-- `wrap32 x` is the only integer of the word's range that is congruent to `x`. -/
theorem wrap32_eq {x y : Int} (hlo : -2 ^ 31 ≤ y) (hhi : y < 2 ^ 31) (hmod : (y - x) % 2 ^ 32 = 0) : wrap32 x = y := by
  have := le_wrap32 x
  have := wrap32_lt x
  have := wrap32_sub_self_emod x
  omega

theorem wrap32_eq_wrap32 {x y : Int} (h : (y - x) % 2 ^ 32 = 0) : wrap32 x = wrap32 y := by
  have := wrap32_sub_self_emod y
  exact wrap32_eq (le_wrap32 y) (wrap32_lt y) (by omega)

/-! ### The saturated word (R8) -/

theorem clips_eq_true_iff (x : Int) : clips x = true ↔ 2 ^ 31 - 1 < x ∨ x < -2 ^ 31 := by
  rw [clips, Bool.or_eq_true, decide_eq_true_eq, decide_eq_true_eq, satMax, satMin]

theorem clips_iff_sat32_ne (x : Int) : clips x = true ↔ sat32 x ≠ x := by
  rw [clips_eq_true_iff, sat32, satMax, satMin]
  split_ifs <;> omega

theorem State.flagSat_clips (s : State) (F : BitVec 3) (x : Int) :
    s.flagSat F (clips x) = if 2 ^ 31 - 1 < x ∨ x < -2 ^ 31 then { s with satFlags := s.satFlags ||| F } else s := by
  simp only [State.flagSat, clips_eq_true_iff]
  split_ifs <;> rfl

/-! ### The rounded square root (R10) -/

/-- From a root that is too small by less than `2^b`, the remaining `b` digits give the floor of the square root. -/
theorem isqrtFrom_bounds {n b r : Nat} (hlo : r * r ≤ n) (hhi : n < (r + 2 ^ b) * (r + 2 ^ b)) :
    isqrtFrom n b r * isqrtFrom n b r ≤ n ∧ n < (isqrtFrom n b r + 1) * (isqrtFrom n b r + 1) := by
  induction b generalizing r with
  | zero => exact ⟨hlo, hhi⟩
  | succ b ih =>
    rw [isqrtFrom]
    split_ifs with h
    · exact ih h (by rwa [add_assoc, ← two_mul, ← pow_succ'])
    · exact ih hlo (not_le.mp h)

theorem isqrt_bounds (n : Nat) : isqrt n * isqrt n ≤ n ∧ n < (isqrt n + 1) * (isqrt n + 1) := by
  refine isqrtFrom_bounds (Nat.zero_le _) ?_
  calc n < 2 ^ (n.log2 + 1) := Nat.lt_log2_self
    _ ≤ 2 ^ (n.log2 / 2 + 1 + (n.log2 / 2 + 1)) := Nat.pow_le_pow_right (by norm_num) (by omega)
    _ = (0 + 2 ^ (n.log2 / 2 + 1)) * (0 + 2 ^ (n.log2 / 2 + 1)) := by rw [pow_add, zero_add]

/-- `n` lies in the interval of the integers whose square root is nearest to `rsqrt n`: above `(r - 1/2)^2`. -/
theorem rsqrt_mul_pred_lt {n : Nat} (hn : 0 < n) : rsqrt n * (rsqrt n - 1) < n := by
  obtain ⟨hlo, -⟩ := isqrt_bounds n
  rw [rsqrt]
  split_ifs with h
  · rw [Nat.add_sub_cancel, Nat.add_one_mul]
    omega
  · obtain h0 | hpos := Nat.eq_zero_or_pos (isqrt n)
    · rwa [h0, Nat.zero_mul]
    · exact ((Nat.mul_lt_mul_left hpos).mpr (Nat.sub_one_lt hpos.ne')).trans_le hlo

/-- And below `(r + 1/2)^2`. -/
theorem le_rsqrt_mul_succ (n : Nat) : n ≤ rsqrt n * (rsqrt n + 1) := by
  obtain ⟨-, hhi⟩ := isqrt_bounds n
  rw [rsqrt]
  split_ifs with h
  · exact hhi.le.trans (Nat.mul_le_mul_left _ (by omega))
  · rw [Nat.mul_add_one]
    omega

theorem rsqrt_zero : rsqrt 0 = 0 := by decide

/-- Settles O58: the spec of each primitive, put together. -/
theorem numericPrimitives : Obligations.NumericPrimitives := by
  refine ⟨fun x k _ => ⟨rshr_mul_le x k, lt_rshr_add_one_mul x k⟩,
    fun x => ⟨le_wrap32 x, wrap32_lt x, wrap32_sub_self_emod x⟩,
    fun x => ⟨rfl, clips_iff_sat32_ne x⟩, State.flagSat_clips, fun m => ⟨?_, le_rsqrt_mul_succ m⟩⟩
  obtain rfl | hm := Nat.eq_zero_or_pos m
  · exact .inl ⟨rfl, rsqrt_zero⟩
  · exact .inr (rsqrt_mul_pred_lt hm)

/-! ### Exact rounding (R9) -/

/-- Half a unit of the last of `p` fraction bits, as a real number. -/
theorem half_mul_two_pow {p : Nat} (hp : 1 ≤ p) : (1 / 2 : ℝ) * 2 ^ p = 2 ^ (p - 1) := by
  rw [← pow_sub_one_mul (Nat.one_le_iff_ne_zero.mp hp)]
  ring

theorem rshr_le_floor {x : ℝ} {v : Int} {p : Nat} (hp : 1 ≤ p) (h : (v : ℝ) ≤ x * 2 ^ p) : rshr v p ≤ ⌊x + 1 / 2⌋ := by
  have hr : (rshr v p : ℝ) * 2 ^ p ≤ v + 2 ^ (p - 1) := by exact_mod_cast rshr_mul_le v p
  refine Int.le_floor.mpr (le_of_mul_le_mul_right ?_ (show (0 : ℝ) < 2 ^ p by positivity))
  rw [add_mul, half_mul_two_pow hp]
  linarith

theorem floor_le_rshr {x : ℝ} {v : Int} {p : Nat} (hp : 1 ≤ p) (h : x * 2 ^ p ≤ v) : ⌊x + 1 / 2⌋ ≤ rshr v p := by
  have hf : (⌊x + 1 / 2⌋ : ℝ) * 2 ^ p ≤ v + 2 ^ (p - 1) := by
    calc (⌊x + 1 / 2⌋ : ℝ) * 2 ^ p ≤ (x + 1 / 2) * 2 ^ p := by gcongr; exact Int.floor_le _
      _ = x * 2 ^ p + 2 ^ (p - 1) := by rw [add_mul, half_mul_two_pow hp]
      _ ≤ v + 2 ^ (p - 1) := by linarith
  exact le_rshr (by exact_mod_cast hf)

/-- Where both ends of the error interval round alike, that is what every number of the interval rounds to. -/
theorem rshr_eq_floor_of_settled {x : ℝ} {a : Int} {e p : Nat} (hp : 1 ≤ p) (hs : rshr (a - e) p = rshr (a + e) p)
    (he : |(a : ℝ) - x * 2 ^ p| ≤ e) : rshr (a - e) p = ⌊x + 1 / 2⌋ := by
  obtain ⟨hlo, hhi⟩ := abs_le.mp he
  refine le_antisymm (rshr_le_floor hp ?_) (hs ▸ floor_le_rshr hp ?_)
  · push_cast
    linarith
  · push_cast
    linarith

/-- Settles O59, by induction on the fuel: at the first precision that settles the interval holds the real number; at
one that does not, what is left is the same search from the doubled precision. -/
theorem roundingIsExactWhereItSettles : Obligations.RoundingIsExactWhereItSettles := by
  intro x approx err fuel
  induction fuel with
  | zero => rintro p - ⟨j, hj, -⟩; exact absurd hj (Nat.not_lt_zero j)
  | succ f ih =>
    rintro p hp ⟨j, hj, hsettle, hbound⟩
    rw [roundExact]
    split_ifs with hnow
    · have hp0 := hbound 0 (Nat.zero_le j)
      rw [pow_zero, one_mul] at hp0
      exact rshr_eq_floor_of_settled hp hnow hp0
    · cases j with
      | zero => rw [pow_zero, one_mul] at hsettle; exact absurd hsettle hnow
      | succ j =>
        have hdouble : ∀ i, 2 ^ (i + 1) * p = 2 ^ i * (2 * p) := fun i => by ring
        refine ih (2 * p) (by omega) ⟨j, by omega, hdouble j ▸ hsettle, fun i hi => ?_⟩
        rw [← hdouble]
        exact hbound (i + 1) (by omega)

end Sys2Proof.Machine

/-! The quadrants of the trigonometric products (R20) and of the binary arctangent (R11). -/

namespace Sys2Proof.Machine

/-! ### Sine and cosine: one quarter turn gives all the others -/

theorem turn_add_quarter_mod (theta : Int) : turn (theta + 2 ^ 30) % 2 ^ 30 = turn theta % 2 ^ 30 := by
  unfold turn
  omega

theorem turn_add_quarter_div (theta : Int) : turn (theta + 2 ^ 30) / 2 ^ 30 = (turn theta / 2 ^ 30 + 1) % 4 := by
  unfold turn
  omega

theorem turn_div_lt (theta : Int) : turn theta / 2 ^ 30 < 4 := by
  unfold turn
  omega

theorem msin_add_quarter (m : Nat) (theta : Int) : msin m (theta + 2 ^ 30) = mcos m theta := by
  have hq := turn_div_lt theta
  simp only [msin, mcos, turn_add_quarter_mod, turn_add_quarter_div]
  generalize turn theta / 2 ^ 30 = q at hq
  match q, hq with
  | 0, _ | 1, _ | 2, _ | 3, _ => rfl

theorem mcos_add_quarter (m : Nat) (theta : Int) : mcos m (theta + 2 ^ 30) = -msin m theta := by
  have hq := turn_div_lt theta
  simp only [msin, mcos, turn_add_quarter_mod, turn_add_quarter_div]
  generalize turn theta / 2 ^ 30 = q at hq
  match q, hq with
  | 0, _ | 1, _ => rfl
  | 2, _ | 3, _ => exact (neg_neg _).symm

theorem mcos_add_half (m : Nat) (theta : Int) : mcos m (theta + 2 ^ 31) = -mcos m theta := by
  rw [show theta + 2 ^ 31 = theta + 2 ^ 30 + 2 ^ 30 by ring, mcos_add_quarter, msin_add_quarter]

theorem msin_add_half (m : Nat) (theta : Int) : msin m (theta + 2 ^ 31) = -msin m theta := by
  rw [show theta + 2 ^ 31 = theta + 2 ^ 30 + 2 ^ 30 by ring, msin_add_quarter, mcos_add_quarter]

theorem mcos_add_whole (m : Nat) (theta : Int) : mcos m (theta + 2 ^ 32) = mcos m theta := by
  rw [show theta + 2 ^ 32 = theta + 2 ^ 31 + 2 ^ 31 by ring, mcos_add_half, mcos_add_half, neg_neg]

theorem mcos_zero (m : Nat) : mcos m 0 = m := rfl

theorem msin_zero (m : Nat) : msin m 0 = 0 := rfl

theorem mcos_quarter (m : Nat) : mcos m (2 ^ 30) = 0 := by
  rw [← zero_add (2 ^ 30), mcos_add_quarter, msin_zero, neg_zero]

theorem msin_quarter (m : Nat) : msin m (2 ^ 30) = m := by
  rw [← zero_add (2 ^ 30), msin_add_quarter, mcos_zero]

theorem mcos_neg_quarter (m : Nat) : mcos m (-2 ^ 30) = 0 := by
  rw [← msin_add_quarter, neg_add_cancel, msin_zero]

theorem msin_neg_quarter (m : Nat) : msin m (-2 ^ 30) = -m := by
  rw [← mcos_zero m, ← neg_add_cancel (2 ^ 30), mcos_add_quarter, neg_neg]

theorem mcos_neg_half (m : Nat) : mcos m (-2 ^ 31) = -m := by
  rw [← mcos_zero m, ← neg_add_cancel (2 ^ 31), mcos_add_half, neg_neg]

theorem msin_neg_half (m : Nat) : msin m (-2 ^ 31) = 0 := by
  rw [← neg_neg (msin m _), ← msin_add_half, neg_add_cancel, msin_zero, neg_zero]

/-! ### The arctangent of the first quadrant -/

@[simp] theorem roundArctanQuadrant_zero_left (x : Nat) : roundArctanQuadrant 0 x = 0 := if_pos rfl

theorem roundArctanQuadrant_zero_right {y : Nat} (h : 0 < y) : roundArctanQuadrant y 0 = 2 ^ 30 := by
  rw [roundArctanQuadrant, if_neg h.ne', if_pos rfl]

theorem roundArctanQuadrant_self {x : Nat} (h : 0 < x) : roundArctanQuadrant x x = 2 ^ 29 := by
  rw [roundArctanQuadrant, if_neg h.ne', if_neg h.ne', if_pos rfl]

theorem roundArctanQuadrant_of_lt {y x : Nat} (hy : 0 < y) (h : y < x) :
    roundArctanQuadrant y x = roundArctanOctant y x := by
  rw [roundArctanQuadrant, if_neg hy.ne', if_neg (by omega), if_neg h.ne, if_pos h]

theorem roundArctanQuadrant_of_gt {y x : Nat} (hx : 0 < x) (h : x < y) :
    roundArctanQuadrant y x = 2 ^ 30 - roundArctanOctant x y := by
  rw [roundArctanQuadrant, if_neg (by omega), if_neg hx.ne', if_neg h.ne', if_neg h.not_gt]

/-- Exchanging the two legs reflects the angle in the diagonal. -/
theorem roundArctanQuadrant_swap {y x : Nat} (hy : 0 < y) (hx : 0 < x) :
    roundArctanQuadrant x y = 2 ^ 30 - roundArctanQuadrant y x := by
  obtain h | rfl | h := lt_trichotomy y x
  · rw [roundArctanQuadrant_of_gt hy h, roundArctanQuadrant_of_lt hy h]
  · rw [roundArctanQuadrant_self hy]
    norm_num
  · rw [roundArctanQuadrant_of_lt hx h, roundArctanQuadrant_of_gt hx h, sub_sub_cancel]

/-! ### The arctangent of the whole plane: one equation per quadrant -/

theorem atan2b_of_nonneg_nonneg {y x : Int} (hx : 0 ≤ x) (hy : 0 ≤ y) :
    atan2b y x = roundArctanQuadrant y.natAbs x.natAbs := by
  simp only [atan2b, if_pos hx, if_pos hy]

theorem atan2b_of_nonneg_neg {y x : Int} (hx : 0 ≤ x) (hy : y < 0) :
    atan2b y x = -roundArctanQuadrant y.natAbs x.natAbs := by
  simp only [atan2b, if_pos hx, if_neg hy.not_ge]

theorem atan2b_of_neg_nonneg {y x : Int} (hx : x < 0) (hy : 0 ≤ y) :
    atan2b y x = wrap32 (2 ^ 31 - roundArctanQuadrant y.natAbs x.natAbs) := by
  simp only [atan2b, if_neg hx.not_ge, if_pos hy]

theorem atan2b_of_neg_neg {y x : Int} (hx : x < 0) (hy : y < 0) :
    atan2b y x = wrap32 (roundArctanQuadrant y.natAbs x.natAbs - 2 ^ 31) := by
  simp only [atan2b, if_neg hx.not_ge, if_neg hy.not_ge]

/-- Right of the vertical axis, the axis included, the angle is at most a quarter turn. -/
theorem atan2b_bounds_of_nonneg {x : Int} (hx : 0 ≤ x) (y : Int) : -2 ^ 30 ≤ atan2b y x ∧ atan2b y x ≤ 2 ^ 30 := by
  have ha := roundArctanQuadrant_bounds y.natAbs x.natAbs
  obtain hy | hy := le_or_gt 0 y
  · rw [atan2b_of_nonneg_nonneg hx hy]
    omega
  · rw [atan2b_of_nonneg_neg hx hy]
    omega

theorem atan2b_range (y x : Int) : -2 ^ 31 ≤ atan2b y x ∧ atan2b y x < 2 ^ 31 := by
  obtain hx | hx := le_or_gt 0 x
  · have := atan2b_bounds_of_nonneg hx y
    omega
  · obtain hy | hy := le_or_gt 0 y
    · rw [atan2b_of_neg_nonneg hx hy]
      exact ⟨le_wrap32 _, wrap32_lt _⟩
    · rw [atan2b_of_neg_neg hx hy]
      exact ⟨le_wrap32 _, wrap32_lt _⟩

/-- Reflection in the vertical axis takes the angle to its supplement. -/
theorem atan2b_neg_right {x : Int} (hx : 0 < x) (y : Int) : atan2b y (-x) = wrap32 (2 ^ 31 - atan2b y x) := by
  obtain hy | hy := le_or_gt 0 y
  · rw [atan2b_of_neg_nonneg (by omega) hy, atan2b_of_nonneg_nonneg hx.le hy, Int.natAbs_neg]
  · rw [atan2b_of_neg_neg (by omega) hy, atan2b_of_nonneg_neg hx.le hy, Int.natAbs_neg]
    exact wrap32_eq_wrap32 (by omega)

/-- Right of the vertical axis, reflection in the horizontal one negates the angle. -/
theorem atan2b_neg_left_of_nonneg {x : Int} (hx : 0 ≤ x) (y : Int) : atan2b (-y) x = -atan2b y x := by
  obtain hy | rfl | hy := lt_trichotomy y 0
  · rw [atan2b_of_nonneg_nonneg hx (by omega), atan2b_of_nonneg_neg hx hy, Int.natAbs_neg, neg_neg]
  · simp [atan2b_of_nonneg_nonneg hx le_rfl]
  · rw [atan2b_of_nonneg_neg hx (by omega), atan2b_of_nonneg_nonneg hx hy.le, Int.natAbs_neg]

/-- In the whole plane it negates the angle modulo a turn. -/
theorem atan2b_neg_left (y x : Int) : atan2b (-y) x = wrap32 (-atan2b y x) := by
  obtain hx | hx := le_or_gt 0 x
  · have := atan2b_bounds_of_nonneg hx y
    rw [atan2b_neg_left_of_nonneg hx]
    exact (wrap32_eq (by omega) (by omega) (by omega)).symm
  · obtain ⟨x, rfl⟩ : ∃ x', x = -x' := ⟨-x, (neg_neg x).symm⟩
    have hx' : 0 < x := by omega
    rw [atan2b_neg_right hx', atan2b_neg_right hx', atan2b_neg_left_of_nonneg hx'.le]
    have := wrap32_sub_self_emod (2 ^ 31 - atan2b y x)
    exact wrap32_eq_wrap32 (by omega)

theorem atan2b_neg_left_of_ne {y x : Int} (h : atan2b y x ≠ -2 ^ 31) : atan2b (-y) x = -atan2b y x := by
  have := atan2b_range y x
  rw [atan2b_neg_left]
  exact wrap32_eq (by omega) (by omega) (by omega)

/-- Half a turn is its own negative. -/
theorem atan2b_neg_left_of_eq {y x : Int} (h : atan2b y x = -2 ^ 31) : atan2b (-y) x = -2 ^ 31 := by
  rw [atan2b_neg_left, h]
  exact wrap32_eq (by norm_num) (by norm_num) (by norm_num)

/-- In the first quadrant, exchanging the coordinates reflects the angle in the diagonal. -/
theorem atan2b_swap {y x : Int} (hx : 0 < x) (hy : 0 < y) : atan2b x y = 2 ^ 30 - atan2b y x := by
  rw [atan2b_of_nonneg_nonneg hy.le hx.le, atan2b_of_nonneg_nonneg hx.le hy.le]
  exact roundArctanQuadrant_swap (Int.natAbs_pos.mpr hy.ne') (Int.natAbs_pos.mpr hx.ne')

theorem atan2b_nonneg {y x : Int} (hx : 0 ≤ x) (hy : 0 ≤ y) : 0 ≤ atan2b y x := by
  rw [atan2b_of_nonneg_nonneg hx hy]
  exact (roundArctanQuadrant_bounds _ _).1

/-! ### The axes and the diagonals -/

theorem atan2b_zero_left {x : Int} (hx : 0 ≤ x) : atan2b 0 x = 0 := by
  rw [atan2b_of_nonneg_nonneg hx le_rfl, Int.natAbs_zero, roundArctanQuadrant_zero_left]

theorem atan2b_zero_right {y : Int} (hy : 0 < y) : atan2b y 0 = 2 ^ 30 := by
  rw [atan2b_of_nonneg_nonneg le_rfl hy.le, Int.natAbs_zero, roundArctanQuadrant_zero_right (Int.natAbs_pos.mpr hy.ne')]

theorem atan2b_self {x : Int} (hx : 0 < x) : atan2b x x = 2 ^ 29 := by
  rw [atan2b_of_nonneg_nonneg hx.le hx.le, roundArctanQuadrant_self (Int.natAbs_pos.mpr hx.ne')]

theorem atan2b_axes {x : Int} (hx : 0 < x) :
    atan2b 0 x = 0 ∧ atan2b x 0 = 2 ^ 30 ∧ atan2b 0 (-x) = -2 ^ 31 ∧ atan2b (-x) 0 = -2 ^ 30 := by
  refine ⟨atan2b_zero_left hx.le, atan2b_zero_right hx, ?_, ?_⟩
  · rw [atan2b_neg_right hx, atan2b_zero_left hx.le]
    exact wrap32_eq (by norm_num) (by norm_num) (by norm_num)
  · rw [atan2b_neg_left_of_nonneg le_rfl, atan2b_zero_right hx]

theorem atan2b_diagonals {x : Int} (hx : 0 < x) :
    atan2b x x = 2 ^ 29 ∧ atan2b x (-x) = 3 * 2 ^ 29 ∧ atan2b (-x) (-x) = -(3 * 2 ^ 29) ∧ atan2b (-x) x = -2 ^ 29 := by
  have hupper : atan2b x (-x) = 3 * 2 ^ 29 := by
    rw [atan2b_neg_right hx, atan2b_self hx]
    exact wrap32_eq (by norm_num) (by norm_num) (by norm_num)
  refine ⟨atan2b_self hx, hupper, ?_, ?_⟩
  · rw [atan2b_neg_left_of_ne (by rw [hupper]; norm_num), hupper]
  · rw [atan2b_neg_left_of_nonneg hx.le, atan2b_self hx]

/-- Settles O60: sine and cosine by quarter turns from the angle 0, the arctangent by its three reflections from the
first octant. -/
theorem trigonometricQuadrants : Obligations.TrigonometricQuadrants := by
  refine ⟨fun m theta => ⟨?_, mcos_add_half m theta, msin_add_half m theta, msin_add_quarter m theta, mcos_add_whole m theta⟩,
    atan2b_zero_left le_rfl, fun x hx => ⟨atan2b_axes hx, atan2b_diagonals hx⟩, fun y x => ?_⟩
  · exact ⟨mcos_zero m, msin_zero m, mcos_quarter m, msin_quarter m, mcos_neg_half m, msin_neg_half m,
      mcos_neg_quarter m, msin_neg_quarter m⟩
  · exact ⟨atan2b_range y x, atan2b_neg_left_of_ne, atan2b_neg_left_of_eq, fun hx => atan2b_neg_right hx y, fun hx hy =>
      ⟨atan2b_swap hx hy, atan2b_nonneg hx.le hy.le, (atan2b_bounds_of_nonneg hx.le y).2⟩⟩

end Sys2Proof.Machine

/-! The invariants of the state (10_state.md R40 to R65, 44_sequencer.md R226 to R234): reset and reconfiguration establish
them, and every leaf, every command's first step and every host access keeps them. -/

namespace Sys2Proof.Machine

theorem toNat_ofNat_word {x : Nat} (h : x < 2 ^ 32) : (BitVec.ofNat 32 x).toNat = x := by
  rw [BitVec.toNat_ofNat, Nat.mod_eq_of_lt h]

/-! ### The active configuration's sizes (R5, R46) -/

theorem State.n_pos (s : State) : 0 < s.n := Nat.two_pow_pos _

theorem State.n_le (s : State) : s.n ≤ 2 ^ 15 :=
  Nat.pow_le_pow_right (by norm_num) (Nat.le_of_lt_succ s.actLog2n.isLt)

/-- A ring's size divides the range of a word, so that a wrapped counter keeps its ring address. -/
theorem State.cap_dvd (s : State) : s.cap ∣ 2 ^ 32 := by
  have hcap : s.cap = 2 ^ (s.actLog2n.toNat + 2) := by
    rw [State.cap, State.n, pow_add, Nat.mul_comm, Nat.pow_two]
  rw [hcap]
  exact pow_dvd_pow 2 (by have := s.actLog2n.isLt; omega)

theorem State.toNat_advance (s : State) (w : Word) (k : Nat) : (s.advance w k).toNat = (w.toNat + k) % s.cap := by
  have hlt : (w.toNat + k) % s.cap < s.cap := Nat.mod_lt _ (Nat.mul_pos (by norm_num) s.n_pos)
  have hcap : s.cap ≤ 2 ^ 32 := Nat.le_of_dvd (by norm_num) s.cap_dvd
  exact toNat_ofNat_word (hlt.trans_le hcap)

/-! ### The generator and the smoother stay in their ranges (R50, R168, R226) -/

theorem eq_zero_of_xor_shiftLeft {x : Word} {k : Nat} (hk : 0 < k) (h : x ^^^ (x <<< k) = 0#32) : x = 0#32 := by
  have hx : x = x <<< k := BitVec.xor_eq_zero_iff.mp h
  have hiter : ∀ j, x = x <<< (k * j) := by
    intro j
    induction j with
    | zero => simp
    | succ j ih => rw [Nat.mul_succ, BitVec.shiftLeft_add, ← ih, ← hx]
  rw [hiter 32]
  exact BitVec.shiftLeft_eq_zero (Nat.le_mul_of_pos_left 32 hk)

theorem eq_zero_of_xor_shiftRight {x : Word} {k : Nat} (hk : 0 < k) (h : x ^^^ (x >>> k) = 0#32) : x = 0#32 := by
  have hx : x.toNat = x.toNat / 2 ^ k := by
    have := congrArg BitVec.toNat (BitVec.xor_eq_zero_iff.mp h)
    rwa [BitVec.toNat_ushiftRight, Nat.shiftRight_eq_div_pow] at this
  refine BitVec.eq_of_toNat_eq ?_
  by_contra hne
  exact absurd hx.symm (Nat.div_lt_self (Nat.pos_of_ne_zero hne) (Nat.one_lt_two_pow hk.ne')).ne

/-- Each of the generator's three steps is injective at 0. -/
theorem xorshift32_ne_zero {x : Word} (hx : x ≠ 0#32) : xorshift32 x ≠ 0#32 := fun h =>
  hx (eq_zero_of_xor_shiftLeft (by norm_num) (eq_zero_of_xor_shiftRight (by norm_num)
    (eq_zero_of_xor_shiftLeft (by norm_num) h)))

/-- The smoother's new value lies between the current one and the target. -/
theorem smoothRatio_bounds {target current lo hi : Nat} (shift : Nat) (ht : lo ≤ target ∧ target ≤ hi)
    (hc : lo ≤ current ∧ current ≤ hi) :
    (lo : Int) ≤ smoothRatio target current shift ∧ smoothRatio target current shift ≤ hi := by
  have hpow : (0 : Int) < 2 ^ shift := by positivity
  have hdiv : ((target : Int) - current) / 2 ^ shift * 2 ^ shift ≤ target - current := Int.ediv_mul_le _ hpow.ne'
  have hrem := Int.lt_ediv_add_one_mul_self ((target : Int) - current) hpow
  simp only [smoothRatio]
  generalize ((target : Int) - current) / 2 ^ shift = q at *
  generalize (2 : Int) ^ shift = p at *
  obtain hneg | hzero | hpos := lt_trichotomy q 0
  · rw [if_neg (by omega)]
    constructor <;> nlinarith
  · split_ifs <;> omega
  · rw [if_neg (by omega)]
    constructor <;> nlinarith

theorem legalRatio_smoothRatio {target current : Word} (shift : Nat) (ht : legalRatio target) (hc : legalRatio current) :
    legalRatio (BitVec.ofInt 32 (smoothRatio target.toNat current.toNat shift)) := by
  obtain ⟨hlo, hhi⟩ := smoothRatio_bounds shift ht hc
  rw [legalRatio, BitVec.toNat_ofInt]
  omega

theorem legalRatio_clampRatio (v : Word) : legalRatio (clampRatio v) := by
  rw [legalRatio, clampRatio, BitVec.toNat_ofNat]
  omega

/-! ### What of the latched parameters a leaf writes (R49, R169) -/

theorem Leaf.run_latched {l : Leaf} (hl : l ≠ .cycleBegin) (s : State) :
    (l.run s).cycMode = s.cycMode ∧ (l.run s).cycRatio = s.cycRatio ∧ (l.run s).hs = s.hs ∧ (l.run s).rlen = s.rlen ∧
      (l.run s).norm = s.norm ∧ (l.run s).pitchCurrent = s.pitchCurrent := by
  cases l
  case cycleBegin => exact absurd rfl hl
  all_goals exact ⟨rfl, rfl, rfl, rfl, rfl, rfl⟩

/-- Settles O33, leaf by leaf. -/
theorem onlyCycleBeginWritesLatchedParameters : Obligations.OnlyCycleBeginWritesLatchedParameters := fun l s =>
  ⟨⟨l.run_actLog2n s, l.run_actChannels s, l.run_actSampleRate s, l.run_configured s⟩, fun hl => Leaf.run_latched hl s⟩

/-! ### The invariant, its part about an executing command apart -/

/-- The invariant but for the executing command. -/
abbrev State.Sound (s : State) : Prop := s.RegisterInv ∧ (s.configured = true → s.ConfigInv ∧ s.CursorInv)

/-- The active configuration is valid, and the registers that depend on it alone hold their values: `ConfigInv` but for
the latched cycle parameters (R46, R47). -/
abbrev State.ActiveConfig (s : State) : Prop :=
  2 ≤ s.actLog2n.toNat ∧ s.actLog2n.toNat ≤ s.build.log2nmax ∧ 1 ≤ s.ch ∧ s.ch ≤ s.build.chmax ∧
    s.ha.toNat = s.hop ∧ s.ringCap.toNat = s.cap ∧ s.mem.cleared = true ∧
    s.wss = BitVec.ofNat 64 (windowSumSquares s.n)

/-- The latched cycle parameters hold the values R227 derives from CYC_RATIO. -/
abbrev State.LatchedParameters (s : State) : Prop :=
  s.hs.toNat = synthesisHop s.hop s.cycRatio.toNat ∧ s.rlen.toNat = resampledLength s.n s.cycRatio.toNat ∧
    s.norm = BitVec.ofNat 32 (normFactor s.hs.toNat s.wss.toNat)

theorem State.configInv_iff (s : State) : s.ConfigInv ↔ s.ActiveConfig ∧ s.LatchedParameters := by
  simp only [and_assoc]

/-- With a legal ratio the hop and the resampled length fit their registers (R227). -/
theorem State.latch_latchedParameters {s : State} (hr : legalRatio s.pitchCurrent) : s.latch.LatchedParameters := by
  have hn := s.n_le
  have hhop : synthesisHop s.hop s.pitchCurrent.toNat < 2 ^ 32 := by
    have : s.hop * s.pitchCurrent.toNat ≤ 2 ^ 15 * 0x20000000 := Nat.mul_le_mul ((Nat.div_le_self _ _).trans hn) hr.2
    rw [synthesisHop]
    omega
  have hlen : resampledLength s.n s.pitchCurrent.toNat < 2 ^ 32 := by
    rw [resampledLength, Nat.div_lt_iff_lt_mul (by omega)]
    omega
  have hhs : s.latch.hs.toNat = synthesisHop s.hop s.pitchCurrent.toNat := toNat_ofNat_word hhop
  have hrlen : s.latch.rlen.toNat = resampledLength s.n s.pitchCurrent.toNat := toNat_ofNat_word hlen
  exact ⟨hhs, hrlen, by rw [hhs]; rfl⟩

/-! ### What each leaf keeps -/

/-- What a leaf needs of ACC to keep it in its bounds: the checks of PUSH and of CYCLE_END (R142, R158). -/
def Leaf.allowed (s : State) : Leaf → Prop
  | .push _ => s.inAcc.toNat < s.accMax
  | .cycleEnd => s.hop ≤ s.inAcc.toNat
  | .pop _ | .cycleBegin | .loadframe _ | .ola _ | .pvBin _ _ | .bitrev | .bfly _ _ _ | .hermit | .window | .resample => True

theorem Leaf.run_prngState_ne_zero (l : Leaf) {s : State} (h : s.prngState ≠ 0#32) : (l.run s).prngState ≠ 0#32 := by
  cases l
  case pvBin ch k =>
    show binDraw s ≠ 0#32
    rw [binDraw]
    split
    · exact h
    · exact h
    · exact xorshift32_ne_zero h
  all_goals exact h

theorem Leaf.run_legalRatios (l : Leaf) {s : State} (ht : legalRatio s.pitchTarget) (hp : legalRatio s.pitchCurrent)
    (hr : legalRatio s.cycRatio) : legalRatio (l.run s).pitchCurrent ∧ legalRatio (l.run s).cycRatio := by
  by_cases hl : l = .cycleBegin
  · subst hl
    have := legalRatio_smoothRatio s.smoothShift.toNat ht hp
    exact ⟨this, this⟩
  · obtain ⟨-, hratio, -, -, -, hpitch⟩ := Leaf.run_latched hl s
    rw [hratio, hpitch]
    exact ⟨hp, hr⟩

theorem Leaf.run_registerInv (l : Leaf) {s : State} (h : s.RegisterInv) : (l.run s).RegisterInv := by
  obtain ⟨hbuild, hmem, hcmdq, hovf, hseed, hprng, htarget, hpitch, hratio⟩ := h
  have hlegal := l.run_legalRatios htarget hpitch hratio
  refine ⟨?_, l.run_wf hmem, ?_, ?_, ?_, l.run_prngState_ne_zero hprng, ?_, hlegal.1, hlegal.2⟩
  · rwa [l.run_build]
  · rwa [l.run_cmdq, l.run_build]
  · rwa [l.run_ovf, l.run_halted]
  · rwa [l.run_prngSeed]
  · rwa [l.run_pitchTarget]

theorem Leaf.run_activeConfig (l : Leaf) {s : State} (h : s.ActiveConfig) : (l.run s).ActiveConfig := by
  simpa only [State.ActiveConfig, Leaf.run_actLog2n, Leaf.run_build, Leaf.run_ch, Leaf.run_ha, Leaf.run_hop,
    Leaf.run_ringCap, Leaf.run_cap, Leaf.run_mem_cleared, Leaf.run_wss, Leaf.run_n] using h

theorem Leaf.run_latchedParameters (l : Leaf) {s : State} (hreg : s.RegisterInv) (h : s.LatchedParameters) :
    (l.run s).LatchedParameters := by
  by_cases hl : l = .cycleBegin
  · subst hl
    obtain ⟨-, -, -, -, -, -, htarget, hpitch, -⟩ := hreg
    exact State.latch_latchedParameters (s := { s with pitchCurrent := _ }) (legalRatio_smoothRatio _ htarget hpitch)
  · obtain ⟨-, hratio, hhs, hrlen, hnorm, -⟩ := Leaf.run_latched hl s
    simpa only [State.LatchedParameters, hratio, hhs, hrlen, hnorm, Leaf.run_hop, Leaf.run_n, Leaf.run_wss] using h

theorem pushEffect_cursorInv {i : Nat} {s : State} (h : s.CursorInv) (hroom : s.inAcc.toNat < s.accMax) :
    (pushEffect i s).CursorInv := by
  obtain ⟨hwr, hout, hrd, how, hacc, hdist⟩ := h
  have hmax : s.accMax < 2 ^ 32 := by
    have := s.n_le
    rw [State.accMax, State.hop]
    omega
  have hacc' : (pushEffect i s).inAcc.toNat = s.inAcc.toNat + 1 := by
    show (s.inAcc + 1#32).toNat = _
    rw [BitVec.toNat_add_of_lt] <;> simp; omega
  have hwr' : (pushEffect i s).inWr.toNat = (s.inWr.toNat + 1) % s.cap := s.toNat_advance s.inWr 1
  refine ⟨?_, hout, hrd, how, ?_, ?_⟩
  · show (pushEffect i s).inWr.toNat = (s.pushCount + 1#32).toNat % s.cap
    rw [hwr', hwr, BitVec.toNat_add, Nat.mod_mod_of_dvd _ s.cap_dvd, Nat.mod_add_mod]
    rfl
  · rw [hacc']
    exact hroom
  · rw [hwr', hacc', hdist, Nat.mod_add_mod, Nat.add_assoc]
    rfl

theorem popEffect_cursorInv {i : Nat} {s : State} (h : s.CursorInv) : (popEffect i s).CursorInv := by
  obtain ⟨hwr, hout, hrest⟩ := h
  refine ⟨hwr, ?_, hrest⟩
  show (s.advance s.outRd 1).toNat = (2 * s.n + (s.popCount + 1#32).toNat) % s.cap
  rw [s.toNat_advance, hout, BitVec.toNat_add, Nat.mod_add_mod, Nat.add_mod (2 * s.n), Nat.mod_mod_of_dvd _ s.cap_dvd,
    ← Nat.add_mod, Nat.add_assoc]
  rfl

theorem cycleEndEffect_cursorInv {s : State} (h : s.CursorInv) (hhop : s.hop ≤ s.inAcc.toNat) :
    (cycleEndEffect s).CursorInv := by
  obtain ⟨hwr, hout, hrd, how, hacc, hdist⟩ := h
  have hacc' : (cycleEndEffect s).inAcc.toNat = s.inAcc.toNat - s.hop :=
    toNat_ofNat_word ((Nat.sub_le _ _).trans_lt s.inAcc.isLt)
  have hrd' : (cycleEndEffect s).inRd.toNat = (s.inRd.toNat + s.hop) % s.cap := s.toNat_advance s.inRd s.hop
  refine ⟨hwr, hout, ?_, ?_, ?_, ?_⟩
  · show (cycleEndEffect s).inRd.toNat = (s.cycleCount + 1#32).toNat * s.hop % s.cap
    rw [hrd', hrd, BitVec.toNat_add, Nat.mod_add_mod, Nat.mul_mod, Nat.mod_mod_of_dvd _ s.cap_dvd, ← Nat.mul_mod,
      Nat.add_mul]
    simp
  · show s.advance s.outWr s.hop = s.advance s.inRd s.hop
    rw [how]
  · rw [hacc']
    exact (Nat.sub_le _ _).trans hacc
  · show s.inWr.toNat = _
    rw [hrd', hacc', hdist]
    show _ = _ % s.cap
    rw [Nat.mod_add_mod, Nat.add_assoc, Nat.add_sub_cancel' hhop]

theorem Leaf.run_cursorInv {l : Leaf} {s : State} (h : s.CursorInv) (ha : l.allowed s) : (l.run s).CursorInv := by
  cases l
  case push i => exact pushEffect_cursorInv h ha
  case pop i => exact popEffect_cursorInv h
  case cycleEnd => exact cycleEndEffect_cursorInv h ha
  all_goals exact h

theorem Leaf.run_sound {l : Leaf} {s : State} (h : s.Sound) (ha : l.allowed s) : (l.run s).Sound := by
  obtain ⟨hreg, hact⟩ := h
  refine ⟨l.run_registerInv hreg, fun hc => ?_⟩
  obtain ⟨hconfig, hcursor⟩ := hact (by rwa [l.run_configured] at hc)
  obtain ⟨hactive, hlatched⟩ := s.configInv_iff.mp hconfig
  exact ⟨(l.run s).configInv_iff.mpr ⟨l.run_activeConfig hactive, l.run_latchedParameters hreg hlatched⟩,
    Leaf.run_cursorInv hcursor ha⟩

/-! ### The executing command's next leaf stays legal (R65, R231, R234) -/

theorem FftAt.ok_congr {s t : State} (hl : t.actLog2n = s.actLog2n) (f : FftAt) : f.ok t = true ↔ f.ok s = true := by
  cases f <;> simp only [FftAt.ok, Bool.and_eq_true, decide_eq_true_eq]
  simp only [State.n, hl]

theorem CycleAt.ok_congr {s t : State} (hl : t.actLog2n = s.actLog2n) (hc : t.actChannels = s.actChannels) (a : CycleAt) :
    a.ok t = true ↔ a.ok s = true := by
  cases a <;> simp only [CycleAt.ok, Bool.and_eq_true, decide_eq_true_eq] <;>
    simp only [State.ch, State.n, FftAt.ok_congr hl, hl, hc]

theorem SampleAt.ok_congr {s t : State} (hl : t.actLog2n = s.actLog2n) (hc : t.actChannels = s.actChannels)
    (ha : t.inAcc = s.inAcc) (i : Nat) (a : SampleAt) : a.ok t i = true ↔ a.ok s i = true := by
  cases a <;> simp only [SampleAt.ok, Bool.and_eq_true, Bool.or_eq_true, decide_eq_true_eq] <;>
    simp only [State.accMax, State.hop, State.n, CycleAt.ok_congr hl hc, hl, ha]

theorem Progress.ok_congr {s t : State} (hl : t.actLog2n = s.actLog2n) (hc : t.actChannels = s.actChannels)
    (ha : t.inAcc = s.inAcc) (hb : t.build = s.build) (p : Progress) : p.ok t = true ↔ p.ok s = true := by
  cases p <;> simp only [Progress.ok, Bool.and_eq_true, decide_eq_true_eq] <;>
    simp only [State.hop, State.ch, State.n, FftAt.ok_congr hl, CycleAt.ok_congr hl hc, SampleAt.ok_congr hl hc ha, hl, hc,
      ha, hb]

theorem State.runningOk_iff (s : State) :
    s.runningOk = true ↔
      ∀ r, s.running = some r → s.configured = true ∧ r.progress.ok s = true ∧ r.word = encode r.progress.command := by
  rw [State.runningOk]
  split <;> rename_i hr <;> simp [hr, and_assoc]

theorem State.runningOk_of_idle {s : State} (h : s.running = none) : s.runningOk = true :=
  s.runningOk_iff.mpr fun r hr => by rw [h] at hr; cases hr

/-- The next butterfly of a stage is one of the stage's. -/
theorem State.nextUpper_ok {s : State} {st p p' : Nat} (h : s.nextUpper st p = some p') :
    p' < s.n ∧ p'.testBit (st - 1) = false := by
  simp only [State.nextUpper, Option.ite_none_right_eq_some, Option.some.injEq] at h
  obtain ⟨hlt, rfl⟩ := h
  refine ⟨hlt, ?_⟩
  split_ifs with hbit
  · rw [halfSpan, Nat.add_comm, Nat.testBit_two_pow_add_eq, hbit]
    rfl
  · exact Bool.eq_false_iff.mpr hbit

theorem FftAt.ok_bfly_iff (s : State) (st p : Nat) :
    (FftAt.bfly st p).ok s = true ↔ (1 ≤ st ∧ st ≤ s.actLog2n.toNat) ∧ p < s.n ∧ p.testBit (st - 1) = false := by
  simp [FftAt.ok, and_assoc]

theorem FftAt.ok_bfly_zero {s : State} {st : Nat} (h1 : 1 ≤ st) (hl : st ≤ s.actLog2n.toNat) :
    (FftAt.bfly st 0).ok s = true :=
  (FftAt.ok_bfly_iff s st 0).mpr ⟨⟨h1, hl⟩, s.n_pos, Nat.zero_testBit _⟩

theorem FftAt.ok_bfly_nextUpper {s : State} {st p p' : Nat} (h : (FftAt.bfly st p).ok s = true)
    (hn : s.nextUpper st p = some p') : (FftAt.bfly st p').ok s = true :=
  (FftAt.ok_bfly_iff s st p').mpr ⟨((FftAt.ok_bfly_iff s st p).mp h).1, State.nextUpper_ok hn⟩

theorem FftAt.next_ok {s : State} {f f' : FftAt} (h : f.ok s = true) (hn : f.next s = some f') : f'.ok s = true := by
  cases f with
  | bitrev =>
    simp only [FftAt.next, Option.ite_none_right_eq_some, Option.some.injEq] at hn
    obtain ⟨hl, rfl⟩ := hn
    exact FftAt.ok_bfly_zero le_rfl hl
  | bfly st p =>
    simp only [FftAt.next] at hn
    split at hn
    · rename_i p' hp'
      cases hn
      exact FftAt.ok_bfly_nextUpper h hp'
    · simp only [Option.ite_none_right_eq_some, Option.some.injEq] at hn
      obtain ⟨hl, rfl⟩ := hn
      exact FftAt.ok_bfly_zero (Nat.le_add_left 1 st) hl

theorem CycleAt.channel_ok (s : State) (c : Nat) : (CycleAt.channel s c).ok s = true := by
  rw [CycleAt.channel]
  split_ifs with hc
  · exact decide_eq_true hc
  · rfl

theorem CycleAt.next_ok {s : State} {a a' : CycleAt} (h : a.ok s = true) (hn : a.next s = some a') : a'.ok s = true := by
  cases a with
  | start => cases hn; exact CycleAt.channel_ok s 0
  | load c => cases hn; simpa [CycleAt.ok, FftAt.ok] using h
  | forward c f =>
    obtain ⟨hc, hf⟩ : c < s.ch ∧ f.ok s = true := by simpa [CycleAt.ok] using h
    simp only [CycleAt.next] at hn
    split at hn <;> cases hn
    · rename_i f' hf'
      simp [CycleAt.ok, hc, FftAt.next_ok hf hf']
    · simp [CycleAt.ok, hc]
  | bin c k =>
    obtain ⟨hc, hk⟩ : c < s.ch ∧ k ≤ s.n / 2 := by simpa [CycleAt.ok] using h
    simp only [CycleAt.next] at hn
    split at hn <;> cases hn
    · rename_i hlt
      simpa [CycleAt.ok, hc] using hlt
    · simp [CycleAt.ok, hc]
  | hermit c => cases hn; simpa [CycleAt.ok, FftAt.ok] using h
  | inverse c f =>
    obtain ⟨hc, hf⟩ : c < s.ch ∧ f.ok s = true := by simpa [CycleAt.ok] using h
    simp only [CycleAt.next] at hn
    split at hn <;> cases hn
    · rename_i f' hf'
      simp [CycleAt.ok, hc, FftAt.next_ok hf hf']
    · simp [CycleAt.ok, hc]
  | window c =>
    simp only [CycleAt.next] at hn
    split at hn <;> cases hn <;> exact h
  | resample c => cases hn; exact h
  | ola c => cases hn; exact CycleAt.channel_ok s (c + 1)
  | finish => cases hn

theorem FftAt.leaf_run_inAcc (dir : Dir) (f : FftAt) (s : State) : ((f.leaf dir).run s).inAcc = s.inAcc := by
  cases f <;> rfl

/-- Inside a cycle ACC does not move: only its last leaf, CYCLE_END, takes a hop from it. -/
theorem CycleAt.leaf_run_inAcc {a : CycleAt} (h : a ≠ .finish) (s : State) : (a.leaf.run s).inAcc = s.inAcc := by
  cases a
  case forward c f => exact f.leaf_run_inAcc _ s
  case inverse c f => exact f.leaf_run_inAcc _ s
  case finish => exact absurd rfl h
  all_goals rfl

theorem FftAt.leaf_allowed (dir : Dir) (f : FftAt) (s : State) : (f.leaf dir).allowed s := by
  cases f <;> trivial

theorem CycleAt.leaf_allowed {a : CycleAt} {s : State} (h : s.hop ≤ s.inAcc.toNat) : a.leaf.allowed s := by
  cases a
  case forward c f => exact f.leaf_allowed _ s
  case inverse c f => exact f.leaf_allowed _ s
  case finish => exact h
  all_goals trivial

/-- A leaf of a cycle, and the place after it, which stands in the state it leaves: that place is legal and ACC still
holds a hop. -/
theorem CycleAt.next_run_ok {s : State} {a a' : CycleAt} (h : a.ok s = true) (hacc : s.hop ≤ s.inAcc.toNat)
    (hn : a.next (a.leaf.run s) = some a') :
    a'.ok (a.leaf.run s) = true ∧ (a.leaf.run s).hop ≤ (a.leaf.run s).inAcc.toNat := by
  have hne : a ≠ .finish := by rintro rfl; cases hn
  rw [CycleAt.leaf_run_inAcc hne, Leaf.run_hop]
  exact ⟨CycleAt.next_ok ((CycleAt.ok_congr (Leaf.run_actLog2n _ s) (Leaf.run_actChannels _ s) a).mpr h) hn, hacc⟩

theorem SampleAt.afterPush_ok (s : State) (i : Nat) : (SampleAt.afterPush s).ok s i = true := by
  rw [SampleAt.afterPush]
  split_ifs with h
  · simp [SampleAt.ok, CycleAt.ok, h]
  · simpa [SampleAt.ok] using h

theorem Progress.leaf_allowed {p : Progress} {s : State} (h : p.ok s = true) : p.leaf.allowed s := by
  cases p with
  | process len i a =>
    cases a <;> simp only [Progress.ok, SampleAt.ok, Bool.and_eq_true, decide_eq_true_eq] at h
    case push => exact h.2.1
    case inCycle a => exact CycleAt.leaf_allowed h.2.2
    case pop => trivial
  | cycle a =>
    simp only [Progress.ok, Bool.and_eq_true, decide_eq_true_eq] at h
    exact CycleAt.leaf_allowed h.2
  | fft dir f => exact f.leaf_allowed dir s
  | stage dir st p => trivial
  | pvAll c k => trivial

theorem Progress.next_command {s : State} {p p' : Progress} (h : p.next s = some p') : p'.command = p.command := by
  cases p with
  | process len i a =>
    cases a <;> simp only [Progress.next] at h
    case inCycle a => split at h <;> cases h <;> rfl
    case pop => split at h <;> cases h; rfl
    case push => cases h; rfl
  | cycle a => simp only [Progress.next, Option.map_eq_some_iff] at h; obtain ⟨_, _, rfl⟩ := h; rfl
  | fft dir f => simp only [Progress.next, Option.map_eq_some_iff] at h; obtain ⟨_, _, rfl⟩ := h; rfl
  | stage dir st p => simp only [Progress.next, Option.map_eq_some_iff] at h; obtain ⟨_, _, rfl⟩ := h; rfl
  | pvAll c k => simp only [Progress.next] at h; split at h <;> cases h; rfl

/-- One sample of a PROCESS: the place after a leaf is legal in the state the leaf leaves. -/
theorem Progress.next_process_ok {s : State} {len i : Nat} {a : SampleAt} {p' : Progress}
    (h : (Progress.process len i a).ok s = true)
    (hn : (Progress.process len i a).next ((Progress.process len i a).leaf.run s) = some p') :
    p'.ok ((Progress.process len i a).leaf.run s) = true := by
  simp only [Progress.ok, Bool.and_eq_true, decide_eq_true_eq] at h
  obtain ⟨⟨hi, hlen⟩, ha⟩ := h
  cases a with
  | push =>
    cases hn
    simpa [Progress.ok, hi, Progress.leaf, hlen] using SampleAt.afterPush_ok _ i
  | inCycle a =>
    simp only [SampleAt.ok, Bool.and_eq_true, decide_eq_true_eq] at ha
    simp only [Progress.next, Progress.leaf] at hn ⊢
    split at hn <;> cases hn
    · rename_i a' hn
      simpa [Progress.ok, SampleAt.ok, hi, hlen] using CycleAt.next_run_ok ha.1 ha.2 hn
    · simpa [Progress.ok, hi, hlen] using SampleAt.afterPush_ok _ i
  | pop =>
    simp only [SampleAt.ok, decide_eq_true_eq] at ha
    simp only [Progress.next, Option.ite_none_right_eq_some, Option.some.injEq] at hn
    obtain ⟨hlt, rfl⟩ := hn
    have hroom : s.inAcc.toNat < s.accMax := by rw [State.accMax]; omega
    have hacc : ((Leaf.pop i).run s).inAcc = s.inAcc := rfl
    simp [Progress.ok, SampleAt.ok, Progress.leaf, hacc, hlt, hlen, ha, hroom]

theorem Progress.next_ok {s : State} {p p' : Progress} (h : p.ok s = true) (hn : p.next (p.leaf.run s) = some p') :
    p'.ok (p.leaf.run s) = true := by
  have hlog : ∀ l : Leaf, (l.run s).actLog2n = s.actLog2n := fun l => l.run_actLog2n s
  cases p with
  | process len i a => exact Progress.next_process_ok h hn
  | cycle a =>
    simp only [Progress.ok, Bool.and_eq_true, decide_eq_true_eq] at h
    simp only [Progress.next, Option.map_eq_some_iff] at hn
    obtain ⟨a', hn, rfl⟩ := hn
    simpa [Progress.ok, Progress.leaf] using CycleAt.next_run_ok h.1 h.2 hn
  | fft dir f =>
    simp only [Progress.next, Option.map_eq_some_iff] at hn
    obtain ⟨f', hn, rfl⟩ := hn
    exact FftAt.next_ok ((FftAt.ok_congr (hlog _) f).mpr h) hn
  | stage dir st q =>
    simp only [Progress.next, Option.map_eq_some_iff] at hn
    obtain ⟨q', hn, rfl⟩ := hn
    exact FftAt.ok_bfly_nextUpper ((FftAt.ok_congr (hlog _) (.bfly st q)).mpr h) hn
  | pvAll c k =>
    simp only [Progress.ok, Bool.and_eq_true, decide_eq_true_eq] at h
    simp only [Progress.next, Option.ite_none_right_eq_some, Option.some.injEq] at hn
    obtain ⟨hlt, rfl⟩ := hn
    simp only [Leaf.run_n] at hlt
    simp [Progress.ok, h.1, hlt]

/-- One engine step of an executing command keeps the invariant. -/
theorem continueCommand_inv {s : State} {r : Running} (h : s.Inv) (hr : s.running = some r) : (continueCommand r s).Inv := by
  obtain ⟨hreg, hact, hrun⟩ := h
  obtain ⟨hconf, hok, hword⟩ := s.runningOk_iff.mp hrun r hr
  obtain ⟨hreg', hact'⟩ := Leaf.run_sound ⟨hreg, hact⟩ (Progress.leaf_allowed hok)
  rw [continueCommand]
  split
  · rename_i p' hn
    refine ⟨hreg', hact', (State.runningOk_iff _).mpr ?_⟩
    rintro r' ⟨⟩
    exact ⟨(Leaf.run_configured _ s).trans hconf,
      (Progress.ok_congr (t := State.start _ _ _) rfl rfl rfl rfl p').mpr (Progress.next_ok hok hn),
      hword.trans (by rw [Progress.next_command hn])⟩
  · exact ⟨hreg', hact', State.runningOk_of_idle rfl⟩

/-! ### Reset and reconfiguration establish the invariant (R66, R224, R301, R302) -/

/-- The reset registers over any arrays in canonical form, of any legal build. -/
theorem State.resetOf_inv {b : Build} {m : Memory} (hb : b.legal) (hm : m.wf = true) (inbox : List HostEvent)
    (replies : List Word) : ({ State.resetOf b with mem := m, inbox := inbox, replies := replies } : State).Inv := by
  have hratio : legalRatio 0x10000000#32 := by decide
  have hseed : 0x9E3779B9#32 ≠ 0#32 := by decide
  exact ⟨⟨hb, hm, Nat.zero_le _, fun h => absurd h Bool.false_ne_true, hseed, hseed, hratio, hratio, hratio⟩,
    fun h => absurd h Bool.false_ne_true, rfl⟩

theorem State.reconfigureFailed_sound {s : State} (h : s.RegisterInv) : s.reconfigureFailed.Sound :=
  ⟨h, fun hc => by cases hc⟩

theorem State.reconfigureBase_activeConfig {s : State} (hv : s.configValid = true) : s.reconfigureBase.ActiveConfig := by
  simp only [State.configValid, Bool.and_eq_true, decide_eq_true_eq] at hv
  obtain ⟨⟨⟨hlo, hhi⟩, hch⟩, hchmax⟩ := hv
  have hn := s.reconfigureBase.n_le
  exact ⟨hlo, hhi, hch, hchmax, toNat_ofNat_word (x := s.reconfigureBase.n / 4) (by omega),
    toNat_ofNat_word (x := 4 * s.reconfigureBase.n) (by omega), Memory.writeTables_cleared _ _, rfl⟩

theorem State.reconfigureBase_cursorInv (s : State) : s.reconfigureBase.CursorInv := by
  have hn := s.reconfigureBase.n_le
  have hpos := s.reconfigureBase.n_pos
  have hout : s.reconfigureBase.outRd.toNat = 2 * s.reconfigureBase.n :=
    toNat_ofNat_word (x := 2 * s.reconfigureBase.n) (by omega)
  have hlt : 2 * s.reconfigureBase.n < s.reconfigureBase.cap := by rw [State.cap]; omega
  have hrd : 0 = 0 * s.reconfigureBase.hop % s.reconfigureBase.cap := by rw [Nat.zero_mul, Nat.zero_mod]
  exact ⟨(Nat.zero_mod _).symm, hout.trans (Nat.mod_eq_of_lt hlt).symm, hrd, rfl, Nat.zero_le _, (Nat.zero_mod _).symm⟩

theorem State.reconfigured_sound {s : State} (h : s.RegisterInv) (hv : s.configValid = true) : s.reconfigured.Sound := by
  obtain ⟨hbuild, hmem, hcmdq, hovf, hseed, -, htarget, -, -⟩ := h
  exact ⟨⟨hbuild, Memory.writeTables_wf _ (Memory.clear_wf hmem), hcmdq, hovf, hseed, hseed, htarget, htarget, htarget⟩,
    fun _ => ⟨s.reconfigured.configInv_iff.mpr
      ⟨State.reconfigureBase_activeConfig hv, State.latch_latchedParameters (s := s.reconfigureBase) htarget⟩,
      s.reconfigureBase_cursorInv⟩⟩

/-! ### A command's first step -/

theorem clear_of_firstError {l : List Check} {c : Check} (h : firstError l = none) (hc : c ∈ l) : c.1 = false :=
  (firstError_eq_none_iff l).mp h c hc

theorem State.raiseError_inv {s : State} (h : s.Sound) (e : ErrCode) (w : Word) : (s.raiseError e w).Inv := by
  obtain ⟨⟨hbuild, hmem, hcmdq, -, hrest⟩, hact⟩ := h
  exact ⟨⟨hbuild, hmem, hcmdq, fun _ => rfl, hrest⟩, hact, State.runningOk_of_idle rfl⟩

theorem State.complete_inv {s : State} (h : s.Sound) : s.complete.Inv := ⟨h.1, h.2, State.runningOk_of_idle rfl⟩

theorem State.start_inv {s : State} {p : Progress} (h : s.Sound) (hc : s.configured = true) (hp : p.ok s = true) :
    (s.start (encode p.command) p).Inv := by
  refine ⟨h.1, h.2, (State.runningOk_iff _).mpr ?_⟩
  rintro r ⟨⟩
  exact ⟨hc, (Progress.ok_congr (t := s.start _ _) rfl rfl rfl rfl p).mpr hp, rfl⟩

theorem leafCommand_inv {i : Instr} {checks : List Check} {effect : State → State} {s t : State} (h : s.Sound)
    (heffect : firstError checks = none → (effect s).Sound) (hx : leafCommand i checks effect s = .next t) : t.Inv := by
  obtain ⟨hclear, rfl⟩ | ⟨e, -, rfl⟩ := leafCommand_cases hx
  · exact State.complete_inv (heffect hclear)
  · exact State.raiseError_inv h e _

theorem compositeCommand_inv {checks : List Check} {p : Progress} {s t : State} (h : s.Sound)
    (hc : s.needConfigured ∈ checks) (hp : firstError checks = none → p.ok s = true)
    (hx : compositeCommand p.command checks p s = .next t) : t.Inv := by
  obtain ⟨hclear, rfl⟩ | ⟨e, -, rfl⟩ := compositeCommand_cases hx
  · exact State.start_inv h (s.needConfigured_clear.mp (clear_of_firstError hclear hc)) (hp hclear)
  · exact State.raiseError_inv h e _

theorem processStart_inv {len : Nat} {s t : State} (h : s.Sound) (hlen : len ≤ s.build.bmax)
    (hx : processStart len s = .next t) : t.Inv := by
  rw [processStart] at hx
  split_ifs at hx with h0
  · exact leafCommand_inv h (fun _ => h) hx
  · refine compositeCommand_inv (p := .process len 0 .push) h (by simp) (fun hclear => ?_) hx
    have hroom := s.needRoom_clear.mp (clear_of_firstError hclear (c := s.needRoom) (by simp))
    simp [Progress.ok, SampleAt.ok, Nat.pos_of_ne_zero h0, hlen, hroom]

theorem execConfigure_inv {s t : State} (h : s.Sound) (hx : execConfigure s = .next t) : t.Inv := by
  rw [execConfigure] at hx
  split_ifs at hx with hv <;> cases hx
  · exact State.complete_inv (State.reconfigured_sound h.1 hv)
  · exact State.raiseError_inv (State.reconfigureFailed_sound h.1) _ _

theorem execProcess_inv {len : Nat} {s t : State} (h : s.Sound) (hx : execProcess len s = .next t) : t.Inv := by
  rw [execProcess] at hx
  split_ifs at hx with hlen hpend hv
  · cases hx
    exact State.raiseError_inv h _ _
  · exact processStart_inv (State.reconfigured_sound h.1 hv)
      ((s.needBlockLength_clear len).mp (Bool.eq_false_iff.mpr hlen)) hx
  · cases hx
    exact State.raiseError_inv (State.reconfigureFailed_sound h.1) _ _
  · exact processStart_inv h ((s.needBlockLength_clear len).mp (Bool.eq_false_iff.mpr hlen)) hx

/-- The first engine step of every command establishes the invariant. -/
theorem exec_inv {i : Instr} {s t : State} (h : s.Sound) (hx : exec i s = .next t) : t.Inv := by
  have leaf : ∀ {j : Instr} {cs : List Check} (l : Leaf), (firstError cs = none → l.allowed s) →
      leafCommand j cs l.run s = .next t → t.Inv :=
    fun _ ha hl => leafCommand_inv h (fun hclear => Leaf.run_sound h (ha hclear)) hl
  cases i with
  | nop => exact leafCommand_inv (i := .nop) (checks := []) (effect := id) h (fun _ => h) hx
  | mark tag => exact leafCommand_inv (i := .mark tag) (checks := []) (effect := markEffect tag) h (fun _ => h) hx
  | configure => exact execConfigure_inv h hx
  | process len => exact execProcess_inv h hx
  | cycle =>
    refine compositeCommand_inv (p := .cycle .start) h (by simp) (fun hclear => ?_) hx
    have hhop := s.needHop_clear.mp (clear_of_firstError hclear (c := s.needHop) (by simp))
    simp [Progress.ok, CycleAt.ok, hhop]
  | cycleBegin => exact leaf .cycleBegin (fun _ => trivial) hx
  | cycleEnd =>
    exact leaf .cycleEnd (fun hclear => s.needHop_clear.mp (clear_of_firstError hclear (c := s.needHop) (by simp))) hx
  | push j =>
    exact leaf (.push j) (fun hclear => s.needRoom_clear.mp (clear_of_firstError hclear (c := s.needRoom) (by simp))) hx
  | pop j => exact leaf (.pop j) (fun _ => trivial) hx
  | loadframe c => exact leaf (.loadframe c) (fun _ => trivial) hx
  | ola c => exact leaf (.ola c) (fun _ => trivial) hx
  | pvBin c k => exact leaf (.pvBin c k) (fun _ => trivial) hx
  | pvAll c =>
    refine compositeCommand_inv (p := .pvAll c 0) h (by simp) (fun hclear => ?_) hx
    have hch := (s.needChannel_clear c).mp (clear_of_firstError hclear (c := s.needChannel c) (by simp))
    simp [Progress.ok, hch]
  | bitrev => exact leaf .bitrev (fun _ => trivial) hx
  | bfly d st p => exact leaf (.bfly d st p) (fun _ => trivial) hx
  | fftStage d st =>
    refine compositeCommand_inv (p := .stage d st 0) h (by simp) (fun hclear => ?_) hx
    obtain ⟨h1, hl⟩ := (s.needStage_clear st).mp (clear_of_firstError hclear (c := s.needStage st) (by simp))
    exact FftAt.ok_bfly_zero h1 hl
  | fft d => exact compositeCommand_inv (p := .fft d .bitrev) h (by simp) (fun _ => rfl) hx
  | hermit => exact leaf .hermit (fun _ => trivial) hx
  | window => exact leaf .window (fun _ => trivial) hx
  | resample => exact leaf .resample (fun _ => trivial) hx

/-! ### What one step can do -/

/-- Everything an engine step can do (R220, R221). -/
theorem engineStep_cases {s t : State} (h : engineStep s = .next t) :
    (∃ r, s.running = some r ∧ t = continueCommand r s) ∨ t = s ∨
      ∃ w rest, s.cmdq = w :: rest ∧
        ((∃ e, t = State.raiseError { s with cmdq := rest } e w) ∨ ∃ i, exec i { s with cmdq := rest } = .next t) := by
  unfold engineStep at h
  split at h
  · rename_i r hr
    cases h
    exact .inl ⟨r, hr, rfl⟩
  · split at h
    · cases h
      exact .inr (.inl rfl)
    · split at h
      · cases h
        exact .inr (.inl rfl)
      · rename_i w rest hq
        unfold startCommand at h
        split at h
        · cases h
          exact .inr (.inr ⟨w, rest, hq, .inl ⟨_, rfl⟩⟩)
        · exact .inr (.inr ⟨w, rest, hq, .inr ⟨_, h⟩⟩)

/-- Everything a host access or the reset input can do. -/
inductive State.HostEffect (s : State) : State → Prop
  /-- A read, a bus error, or a write that is ignored. -/
  | record (irq : BitVec 5) (addr : BitVec 28) (replies : List Word) :
      s.HostEffect { s with irqStatus := irq, buserrAddr := addr, replies := replies }
  /-- A write of a register. -/
  | register (r : Reg) (v : Word) : s.HostEffect (r.write s v)
  /-- A write of an array that the host may write (R76). -/
  | element (e : Elem) (v : Word) (writable : (Target.elem e).readOnlyArray = false) : s.HostEffect (s.setMem (s.mem.put e v))
  /-- The reset input. -/
  | reset : s.HostEffect s.hardReset

theorem State.HostEffect.none (s : State) : s.HostEffect s := .record s.irqStatus s.buserrAddr s.replies

theorem State.reach_writable {s : State} {addr size : Nat} {t : Target} (h : s.reach addr size true = some t) :
    t.readOnlyArray = false := by
  simp only [State.reach] at h
  split at h
  · cases h
  · split at h
    · cases h
    · split at h
      · split at h <;> cases h
        rename_i hro
        simpa using hro
      · cases h

theorem hostRead_effect {addr size : Nat} {s t : State} (h : hostRead addr size s = .next t) : s.HostEffect t := by
  unfold hostRead at h
  split at h <;> [split at h; skip] <;> cases h
  · exact .record s.irqStatus s.buserrAddr _
  · exact .record _ _ _

theorem hostWrite_effect {addr size : Nat} {v : Word} {s t : State} (h : hostWrite addr size v s = .next t) :
    s.HostEffect t := by
  unfold hostWrite at h
  split at h <;> [split at h; skip] <;> cases h
  · rename_i target htarget
    cases target with
    | reg r => exact .register r v
    | elem e => exact .element e v (State.reach_writable htarget)
    | unlisted => exact .none s
    | twr j => exact .none s
    | twi j => exact .none s
  · exact .record _ _ s.replies

/-- A step takes the next event, if any, from the schedule; then the engine takes a step, or an event from outside has
its effect. -/
theorem step_cases {s t : State} (h : step s = .next t) :
    ∃ inbox, engineStep { s with inbox := inbox } = .next t ∨ State.HostEffect { s with inbox := inbox } t := by
  unfold step at h
  split at h
  · rename_i hin
    exact ⟨[], .inl (by rwa [← hin])⟩
  · rename_i e rest hin
    refine ⟨rest, ?_⟩
    cases e with
    | engine => exact .inl h
    | read addr size => exact .inr (hostRead_effect h)
    | write addr size v => exact .inr (hostWrite_effect h)
    | hardReset => cases h; exact .inr .reset

/-- `t` is `s` but for registers that a host access other than a reset can write, and the model's own lists. -/
def State.HostFrame (s t : State) : Prop :=
  t =
    { s with
      pending := t.pending, halted := t.halted, ovf := t.ovf, errCode := t.errCode, errCmd := t.errCmd
      irqStatus := t.irqStatus, irqEnable := t.irqEnable, satFlags := t.satFlags, cfgLog2n := t.cfgLog2n
      cfgChannels := t.cfgChannels, cfgSampleRate := t.cfgSampleRate, mode := t.mode, pitchTarget := t.pitchTarget
      smoothShift := t.smoothShift, prngSeed := t.prngSeed, buserrAddr := t.buserrAddr, cmdq := t.cmdq
      inbox := t.inbox, replies := t.replies }

/-- A write of a register is a soft reset, or keeps every register that the host cannot write. -/
theorem Reg.write_frame (r : Reg) (s : State) (v : Word) : r.write s v = s.softReset ∨ s.HostFrame (r.write s v) := by
  cases r
  case ctrl =>
    simp only [Reg.write, State.writeCtrl]
    split_ifs
    · exact .inl rfl
    all_goals exact .inr rfl
  case cmd =>
    simp only [Reg.write, State.writeCmd]
    split_ifs <;> exact .inr rfl
  all_goals exact .inr rfl

/-! ### Every step keeps the invariant -/

theorem State.runningOk_congr {s t : State} (hr : t.running = s.running) (hc : t.configured = s.configured)
    (hl : t.actLog2n = s.actLog2n) (hch : t.actChannels = s.actChannels) (ha : t.inAcc = s.inAcc) (hb : t.build = s.build)
    (h : s.runningOk = true) : t.runningOk = true := by
  refine t.runningOk_iff.mpr fun r hrun => ?_
  obtain ⟨hconf, hok, hword⟩ := s.runningOk_iff.mp h r (hr ▸ hrun)
  exact ⟨hc.trans hconf, (Progress.ok_congr hl hch ha hb _).mpr hok, hword⟩

theorem State.HostFrame.inv {s t : State} (hf : s.HostFrame t) (h : s.Inv) (hreg : t.RegisterInv) : t.Inv := by
  obtain ⟨-, hact, hrun⟩ := h
  refine ⟨hreg, ?_, ?_⟩ <;> rw [show t = _ from hf]
  · exact hact
  · exact State.runningOk_congr rfl rfl rfl rfl rfl rfl hrun

theorem State.softReset_inv {s : State} (h : s.RegisterInv) : s.softReset.Inv := by
  obtain ⟨hbuild, hmem, -⟩ := h
  exact State.resetOf_inv hbuild hmem s.inbox s.replies

theorem State.hardReset_inv {s : State} (h : s.RegisterInv) : s.hardReset.Inv := by
  obtain ⟨hbuild, -⟩ := h
  exact State.resetOf_inv hbuild (Memory.afterPowerOn_wf _) s.inbox s.replies

theorem State.writeCtrl_registerInv {s : State} (h : s.RegisterInv) (v : Word) : (s.writeCtrl v).RegisterInv := by
  have hreset := State.softReset_inv h
  obtain ⟨hbuild, hmem, hcmdq, hovf, hrest⟩ := h
  have hflush : ([] : List Word).length ≤ s.build.cmdqDepth := Nat.zero_le _
  have hresume : false = true → false = true := id
  rw [State.writeCtrl]
  split_ifs
  · exact hreset.1
  all_goals refine ⟨hbuild, hmem, ?_, ?_, hrest⟩
  all_goals assumption

theorem State.writeCmd_registerInv {s : State} (h : s.RegisterInv) (w : Word) : (s.writeCmd w).RegisterInv := by
  obtain ⟨hbuild, hmem, hcmdq, hovf, hrest⟩ := h
  rw [State.writeCmd]
  split_ifs with hroom
  · exact ⟨hbuild, hmem, by simpa using hroom, hovf, hrest⟩
  · exact ⟨hbuild, hmem, hcmdq, fun _ => rfl, hrest⟩

theorem Reg.write_registerInv (r : Reg) {s : State} (h : s.RegisterInv) (v : Word) : (r.write s v).RegisterInv := by
  have ⟨hbuild, hmem, hcmdq, hovf, hseed, hprng, htarget, hrest⟩ := h
  cases r
  case ctrl => exact State.writeCtrl_registerInv h v
  case cmd => exact State.writeCmd_registerInv h v
  case pitchTarget => exact ⟨hbuild, hmem, hcmdq, hovf, hseed, hprng, legalRatio_clampRatio v, hrest⟩
  case prngSeed =>
    have hstored : (if v = 0#32 then s.prngSeed else v) ≠ 0#32 := by
      split_ifs with hv
      · exact hseed
      · exact hv
    exact ⟨hbuild, hmem, hcmdq, hovf, hstored, hprng, htarget, hrest⟩
  all_goals exact h

theorem Reg.write_inv (r : Reg) {s : State} (h : s.Inv) (v : Word) : (r.write s v).Inv := by
  obtain hreset | hframe := r.write_frame s v
  · exact hreset ▸ State.softReset_inv h.1
  · exact hframe.inv h (r.write_registerInv h.1 v)

/-- A host write of an array element changes no register and keeps what the invariant says of the arrays. -/
theorem State.setMem_put_inv {s : State} (h : s.Inv) (e : Elem) (v : Word) : (s.setMem (s.mem.put e v)).Inv := by
  obtain ⟨⟨hbuild, hmem, hrest⟩, hact, hrun⟩ := h
  exact ⟨⟨hbuild, Memory.put_wf e v hmem, hrest⟩, hact, State.runningOk_congr rfl rfl rfl rfl rfl rfl hrun⟩

theorem State.HostEffect.inv {s t : State} (he : s.HostEffect t) (h : s.Inv) : t.Inv := by
  cases he with
  | record irq addr replies =>
    exact State.HostFrame.inv (s := s) rfl h h.1
  | register r v => exact r.write_inv h v
  | element e v => exact State.setMem_put_inv h e v
  | reset => exact State.hardReset_inv h.1

theorem engineStep_inv {s t : State} (h : s.Inv) (hx : engineStep s = .next t) : t.Inv := by
  obtain ⟨r, hr, rfl⟩ | rfl | ⟨w, rest, hq, hstart⟩ := engineStep_cases hx
  · exact continueCommand_inv h hr
  · exact h
  · obtain ⟨⟨hbuild, hmem, hcmdq, hregs⟩, hact, -⟩ := h
    have hrest : rest.length ≤ s.build.cmdqDepth := by
      rw [hq] at hcmdq
      exact (Nat.le_succ _).trans hcmdq
    have hsound : State.Sound { s with cmdq := rest } := ⟨⟨hbuild, hmem, hrest, hregs⟩, hact⟩
    obtain ⟨e, rfl⟩ | ⟨i, hi⟩ := hstart
    · exact State.raiseError_inv hsound e w
    · exact exec_inv hsound hi

/-- Settles O45: an engine step keeps the invariant leaf by leaf, a host access register by register. -/
theorem everyStepKeepsTheInvariant : Obligations.EveryStepKeepsTheInvariant := by
  intro s t h hx
  obtain ⟨inbox, hstep⟩ := step_cases hx
  have hs : State.Inv { s with inbox := inbox } :=
    State.HostFrame.inv (s := s) rfl h h.1
  obtain hengine | hhost := hstep
  · exact engineStep_inv hs hengine
  · exact hhost.inv hs

/-! ### Every step keeps the tables (R55, R56) -/

theorem Build.nmax_le {b : Build} (h : b.legal) : b.nmax ≤ 2 ^ 15 := by
  obtain ⟨-, hlog, -⟩ := h
  exact Nat.pow_le_pow_right (by norm_num) hlog

/-- The tables stay what they are in a state that, if configured, has the same configuration and the same bytes there. -/
theorem State.TablesInv.of_same {s t : State} (h : s.TablesInv) (hb : s.build.legal) (hbuild : t.build = s.build)
    (hconf : t.configured = true → s.configured = true) (hl : t.actLog2n = s.actLog2n)
    (hbytes : ∀ a < 0x04000000, t.mem.readByte a = s.mem.readByte a) : t.TablesInv := by
  intro hc
  obtain ⟨hwin, homega⟩ := h (hconf hc)
  have hN := Build.nmax_le hb
  have hget : ∀ e : Elem, e.offset + 4 ≤ 0x04000000 → t.mem.get e = s.mem.get e := fun e he =>
    Memory.get_congr fun a ha => hbytes a (by obtain ⟨-, ha⟩ := ha; omega)
  rw [hbuild, show t.n = s.n by rw [State.n, State.n, hl]]
  refine ⟨fun i hi => ?_, fun k hk => ?_⟩
  · rw [hget _ (by rw [Elem.offset]; omega), hwin i hi]
  · rw [hget _ (by rw [Elem.offset]; omega), homega k hk]

theorem State.tablesInv_of_unconfigured {s : State} (h : s.configured = false) : s.TablesInv := fun hc => by
  rw [h] at hc
  cases hc

/-- A reconfiguration writes the tables of its own N. -/
theorem State.reconfigured_tablesInv {s : State} (hb : s.build.legal) : s.reconfigured.TablesInv := by
  have hN := Build.nmax_le hb
  intro _
  refine ⟨fun i hi => ?_, fun k hk => ?_⟩
  · exact Memory.get_win_writeTables s.mem (lt_of_lt_of_le hi hN)
  · have hk' : k < s.build.nmax / 2 + 1 := hk
    exact Memory.get_omega_writeTables s.mem s.reconfigureBase.n_le (by omega)

theorem Leaf.run_tablesInv (l : Leaf) {s : State} (hb : s.build.legal) (h : s.TablesInv) : (l.run s).TablesInv :=
  h.of_same hb (l.run_build s) (fun hc => (l.run_configured s).symm.trans hc) (l.run_actLog2n s)
    fun _ ha => l.run_readByte_tables s ha

theorem exec_tablesInv {i : Instr} {s t : State} (hb : s.build.legal) (h : s.TablesInv) (hx : exec i s = .next t) :
    t.TablesInv := by
  obtain ⟨u, hbase, hdone⟩ := exec_cases hx
  obtain ⟨hbu, hu⟩ : u.build.legal ∧ u.TablesInv := by
    obtain rfl | rfl | rfl := hbase
    · exact ⟨hb, h⟩
    · exact ⟨hb, State.reconfigured_tablesInv hb⟩
    · exact ⟨hb, State.tablesInv_of_unconfigured rfl⟩
  obtain ⟨e, rfl⟩ | ⟨v, rfl | ⟨tag, rfl⟩ | ⟨l, rfl⟩, rfl⟩ | ⟨p, rfl, -⟩ := hdone
  · exact hu
  · exact hu
  · exact hu
  · exact l.run_tablesInv hbu hu
  · exact hu

theorem continueCommand_tablesInv {r : Running} {s : State} (hb : s.build.legal) (h : s.TablesInv) :
    (continueCommand r s).TablesInv := by
  have hl := r.progress.leaf.run_tablesInv hb h
  rw [continueCommand]
  split <;> exact hl

theorem engineStep_tablesInv {s t : State} (hb : s.build.legal) (h : s.TablesInv) (hx : engineStep s = .next t) :
    t.TablesInv := by
  obtain ⟨r, -, rfl⟩ | rfl | ⟨w, rest, -, ⟨e, rfl⟩ | ⟨i, hi⟩⟩ := engineStep_cases hx
  · exact continueCommand_tablesInv hb h
  · exact h
  · exact h
  · exact exec_tablesInv (s := { s with cmdq := rest }) hb h hi

/-- An array the host may write lies above WIN and OMEGA (R73, R76). -/
theorem Elem.offset_of_writable {e : Elem} (h : (Target.elem e).readOnlyArray = false) : 0x04000000 ≤ e.offset := by
  cases e
  case win n => cases h
  case omega k => cases h
  all_goals rw [Elem.offset]; omega

theorem State.HostEffect.tablesInv {s t : State} (he : s.HostEffect t) (hb : s.build.legal) (h : s.TablesInv) :
    t.TablesInv := by
  cases he with
  | record irq addr replies => exact h
  | register r v =>
    obtain hreset | hframe := r.write_frame s v
    · exact hreset ▸ State.tablesInv_of_unconfigured rfl
    · rw [show r.write s v = _ from hframe]
      exact h
  | element e v hw =>
    have hoff := Elem.offset_of_writable hw
    exact h.of_same hb rfl id rfl fun a ha => Memory.readByte_put_other _ _ fun hcov => by
      obtain ⟨hlo, -⟩ := hcov
      omega
  | reset => exact State.tablesInv_of_unconfigured rfl

/-- Settles O46: no leaf and no host write reaches below the arrays of region 4, and a reconfiguration writes the tables
of its own N. -/
theorem everyStepKeepsTheTables : Obligations.EveryStepKeepsTheTables := by
  intro s t hinv h hx
  obtain ⟨⟨hb, -⟩, -⟩ := hinv
  obtain ⟨inbox, hengine | hhost⟩ := step_cases hx
  · exact engineStep_tablesInv (s := { s with inbox := inbox }) hb h hengine
  · exact hhost.tablesInv hb h

/-- Settles O44: the reset registers meet the invariant over any arrays in canonical form, and nothing is configured. -/
theorem resetSatisfiesTheInvariant : Obligations.ResetSatisfiesTheInvariant :=
  ⟨State.resetOf_inv (by decide) (Memory.afterPowerOn_wf 0) [] [], State.tablesInv_of_unconfigured rfl⟩

end Sys2Proof.Machine

/-! What a host reads and writes in the register block (10_state.md R32 to R53, R66, R68). -/

namespace Sys2Proof.Machine

/-! ### The register map (R32) -/

/-- The offsets at which the map lists no register. -/
abbrev unlistedOffset (off : Nat) : Prop :=
  (0x04C ≤ off ∧ off < 0x080) ∨ off = 0x0B8 ∨ off = 0x0BC ∨ (0x0D4 ≤ off ∧ off < 0x0E0) ∨ 0x0F8 ≤ off

/-- The map's offsets are word offsets of the register block, and each names one register. -/
theorem regAt_of_mem : ∀ p ∈ regMapControl ++ regMapActive, regAt p.1 = some p.2 ∧ p.1 < 0x400 ∧ p.1 % 4 = 0 := by
  decide

theorem regMap_listed : ∀ p ∈ regMapControl ++ regMapActive, ¬ unlistedOffset p.1 := by decide

theorem regAt_unlisted {off : Nat} (h : unlistedOffset off) : regAt off = none := by
  refine List.lookup_eq_none_iff.mpr fun p hp => ?_
  have hne : off ≠ p.1 := fun he => regMap_listed p hp (he ▸ h)
  simpa using hne

/-- A host write at an offset of the map is the write of its register. -/
theorem hostWrite_reg (s : State) (v : Word) {p : Nat × Reg} (hp : p ∈ regMapControl ++ regMapActive) :
    hostWrite (s.build.base + p.1) 4 v s = .next (p.2.write s v) := by
  obtain ⟨hreg, hlt, h4⟩ := regAt_of_mem p hp
  rw [hostWrite_registerBlock s v hlt h4, registerTarget, hreg]
  rfl

theorem hostRead_reg (s : State) {p : Nat × Reg} (hp : p ∈ regMapControl ++ regMapActive) :
    hostRead (s.build.base + p.1) 4 s = .next (s.reply (p.2.read s)) := by
  obtain ⟨hreg, hlt, h4⟩ := regAt_of_mem p hp
  rw [hostRead_registerBlock s hlt h4, registerTarget, hreg]
  rfl

theorem hostWrite_unlisted (s : State) (v : Word) {off : Nat} (hlt : off < 0x400) (h4 : off % 4 = 0)
    (h : unlistedOffset off) : hostWrite (s.build.base + off) 4 v s = .next s := by
  rw [hostWrite_registerBlock s v hlt h4, registerTarget, regAt_unlisted h]
  rfl

theorem hostRead_unlisted (s : State) {off : Nat} (hlt : off < 0x400) (h4 : off % 4 = 0) (h : unlistedOffset off) :
    hostRead (s.build.base + off) 4 s = .next (s.reply 0#32) := by
  rw [hostRead_registerBlock s hlt h4, registerTarget, regAt_unlisted h]
  rfl

/-! ### What the control registers store (R38, R40 to R45) -/

/-- Settles O53: where CMDQ has room the word is queued, else the overflow procedure of R254 runs. -/
theorem cmdWriteQueuesOrOverflows : Obligations.CmdWriteQueuesOrOverflows := by
  intro s w
  have hover : s.cmdq.length = s.build.cmdqDepth → Reg.cmd.write s w = s.overflow w := fun hfull => if_neg hfull.not_lt
  refine ⟨rfl, hostRead_reg s (p := (0x028, .cmd)) (by decide), hostWrite_reg s w (p := (0x028, .cmd)) (by decide),
    fun hroom => if_pos hroom, fun hfull hrun => ?_, fun hfull hhalt => ?_⟩
  · rw [hover hfull, State.overflow, hrun]
    rfl
  · rw [hover hfull, State.overflow, hhalt]
    rfl

/-- Settles O52: SRST alone, else the three actions one after the other. -/
theorem ctrlWriteActsInOrder : Obligations.CtrlWriteActsInOrder := by
  intro s v
  refine ⟨hostWrite_reg s v (p := (0x010, .ctrl)) (by decide), fun hsrst => if_pos hsrst, fun hsrst => ?_⟩
  rw [Reg.write, State.writeCtrl, if_neg (Bool.eq_false_iff.mp hsrst)]
  split_ifs <;> rfl

theorem toNat_clampRatio (v : Word) : (clampRatio v).toNat = min (max v.toNat 0x08000000) 0x20000000 :=
  toNat_ofNat_word (by omega)

/-- The two low bits of a written word name the mode; 3 names none (R41). -/
theorem Reg.write_mode (s : State) (v : Word) :
    Reg.mode.write s v =
      { s with
        mode :=
          if v.toNat % 4 = 0 then .pitchShift else if v.toNat % 4 = 1 then .robotize
          else if v.toNat % 4 = 2 then .whisperize else s.mode } := by
  simp only [Reg.write, Mode.ofCode, BitVec.toNat_eq, BitVec.toNat_setWidth, BitVec.toNat_ofNat, Nat.reducePow, Nat.reduceMod]
  split_ifs <;> rfl

theorem Reg.write_readOnly (s : State) (v : Word) {r : Reg}
    (h : r ∉ [.ctrl, .irqStatus, .irqEnable, .cmd, .satFlags, .cfgLog2n, .cfgChannels, .cfgSampleRate, .mode,
      .pitchTarget, .smoothShift, .prngSeed]) : r.write s v = s := by
  cases r <;> simp only [List.mem_cons, reduceCtorEq, true_or, or_true, not_true_eq_false] at h <;> rfl

/-- Settles O51, register by register. -/
theorem controlRegisterWrites : Obligations.ControlRegisterWrites := by
  intro s v
  refine ⟨rfl, rfl, rfl, rfl, rfl, rfl, rfl, ⟨_, rfl, toNat_clampRatio v⟩, ?_, fun h => by rw [Reg.write_mode, h]; rfl,
    fun h => by rw [Reg.write_mode, h]; rfl, fun h => by rw [Reg.write_mode, h]; rfl,
    fun h => by rw [Reg.write_mode, h]; rfl,
    fun r hr => Reg.write_readOnly s v hr, fun p hp => hostWrite_reg s v hp,
    fun off hlt h4 h => hostWrite_unlisted s v hlt h4 h⟩
  rw [Reg.write]
  split_ifs <;> rfl

/-! ### What a host reads -/

/-- What a host reads at some offsets of the map. -/
def State.readings (s : State) (regs : List (Nat × Reg)) : List (Nat × Nat) :=
  regs.map fun p => (p.1, (p.2.read s).toNat)

theorem hostRead_readings {s : State} {regs : List (Nat × Reg)} (hregs : regs ⊆ regMapControl ++ regMapActive)
    {p : Nat × Nat} (hp : p ∈ s.readings regs) :
    hostRead (s.build.base + p.1) 4 s = .next { s with replies := s.replies ++ [BitVec.ofNat 32 p.2] } := by
  obtain ⟨q, hq, rfl⟩ := List.mem_map.mp hp
  rw [BitVec.ofNat_toNat, BitVec.setWidth_eq]
  exact hostRead_reg s (hregs hq)

theorem toNat_append_eq_add {m n : Nat} (x : BitVec m) (y : BitVec n) : (x ++ y).toNat = x.toNat * 2 ^ n + y.toNat := by
  rw [BitVec.toNat_append, ← Nat.shiftLeft_add_eq_or_of_lt y.isLt, Nat.shiftLeft_eq]

theorem Build.toNat_param0 {b : Build} (h : b.legal) :
    (Build.param0 b).toNat = b.cmdqDepth * 2 ^ 16 + b.chmax * 2 ^ 8 + b.log2nmax := by
  obtain ⟨-, hlog, -, hch, -, -, -, hdepth⟩ := h
  simp only [Build.param0, toNat_append_eq_add, BitVec.toNat_ofNat]
  omega

theorem Build.toNat_param1 {b : Build} (h : b.legal) : (Build.param1 b).toNat = b.bmax := by
  obtain ⟨-, -, -, -, -, hbmax, -, -⟩ := h
  simp only [Build.param1, toNat_append_eq_add, BitVec.toNat_ofNat]
  omega

theorem State.toNat_rstate (s : State) : s.rstate.toNat = s.pending.toNat := by
  rw [State.rstate]
  cases s.pending <;> rfl

theorem State.toNat_ctrlWord (s : State) : s.ctrlWord.toNat = s.pending.toNat := by
  simp only [State.ctrlWord, toNat_append_eq_add, BitVec.toNat_ofNat, BitVec.toNat_ofBool]
  omega

theorem State.toNat_statusWord {s : State} (h : s.cmdq.length ≤ 256) :
    s.statusWord.toNat =
      s.running.isSome.toNat + 2 * s.halted.toNat + 4 * s.configured.toNat + 8 * s.pending.toNat + 16 * s.pending.toNat +
        64 * s.ovf.toNat + 256 * s.cmdq.length + 2 ^ 17 * (decide (s.cmdq.length = s.build.cmdqDepth)).toNat := by
  have hcount : s.cmdq.length % 2 ^ 9 = s.cmdq.length := Nat.mod_eq_of_lt (by omega)
  have hfull : s.fifoFull = decide (s.cmdq.length = s.build.cmdqDepth) := rfl
  simp only [State.statusWord, hfull, State.fifoCount, State.busy, toNat_append_eq_add, BitVec.toNat_ofNat,
    BitVec.toNat_ofBool, State.toNat_rstate, hcount]
  ring

/-- The codes of R250. -/
theorem ErrCode.toNat_code : ∀ p ∈ [(ErrCode.noError, 0), (.illegalOpcode, 1), (.reservedField, 2), (.notConfigured, 3),
      (.configInvalid, 4), (.badChannel, 5), (.badBin, 6), (.badStage, 7), (.badIndex, 8), (.accUnderflow, 9),
      (.inOverrun, 10), (.fifoOverflow, 11)], p.1.code.toNat = p.2 := by decide

/-- The codes of R41. -/
theorem Mode.toNat_code : ∀ p ∈ [(Mode.pitchShift, 0), (.robotize, 1), (.whisperize, 2)], p.1.code.toNat = p.2 := by
  decide

theorem State.toNat_wssLo (s : State) : (s.wss.extractLsb' 0 32).toNat = s.wss.toNat % 2 ^ 32 := by
  rw [BitVec.extractLsb'_toNat, Nat.shiftRight_zero]

theorem State.toNat_wssHi (s : State) : (s.wss.extractLsb' 32 32).toNat = s.wss.toNat / 2 ^ 32 := by
  have := s.wss.isLt
  rw [BitVec.extractLsb'_toNat, Nat.shiftRight_eq_div_pow]
  omega

/-- The map but for PARAM0 and PARAM1, which show the build in a legal build only. -/
def stateRegisters : List (Nat × Reg) := (regMapControl.take 2 ++ regMapControl.drop 4) ++ regMapActive

theorem stateRegisters_subset : stateRegisters ⊆ regMapControl ++ regMapActive := by
  have : ∀ p ∈ stateRegisters, p ∈ regMapControl ++ regMapActive := by decide
  exact fun p hp => this p hp

/-- Settles O49: each register of the map shows its field, at the field's width. -/
theorem statusShowsItsFields : Obligations.StatusShowsItsFields := by
  intro s errCode mode cycMode herr hmode hcyc
  refine ⟨State.toNat_statusWord, fun hb p hp => ?_, fun p hp => ?_, fun off hlt h4 h => hostRead_unlisted s hlt h4 h⟩
  · refine hostRead_readings (regs := [(0x008, .param0), (0x00C, .param1)]) (by simp [regMapControl]) ?_
    simpa only [State.readings, List.map, Reg.read, Build.toNat_param0 hb, Build.toNat_param1 hb] using hp
  · refine hostRead_readings stateRegisters_subset ?_
    simpa [State.readings, stateRegisters, regMapControl, regMapActive, Reg.read, State.toNat_ctrlWord,
      State.toNat_wssLo, State.toNat_wssHi, ErrCode.toNat_code _ herr, Mode.toNat_code _ hmode, Mode.toNat_code _ hcyc,
      BitVec.toNat_setWidth_of_le, -BitVec.toNat_setWidth, -BitVec.extractLsb'_toNat] using hp

/-- Settles O48: what the map's registers show of the reset state. -/
theorem registersReadTheirResetValues : Obligations.RegistersReadTheirResetValues := by
  intro b hb p hp
  refine hostRead_readings (s := State.resetOf b) (List.Subset.refl _) ?_
  have hstatus : (State.resetOf b).statusWord.toNat = 0 := by
    have hroom : (0 = b.cmdqDepth) = False := by
      obtain ⟨-, -, -, -, -, -, hdepth, -⟩ := hb
      exact eq_false (Nat.ne_of_lt hdepth)
    rw [State.toNat_statusWord (Nat.zero_le _)]
    simp [State.resetOf, hroom]
  have hlog : (State.resetOf b).cfgLog2n.toNat = min 11 b.log2nmax := Nat.mod_eq_of_lt (by omega)
  simp only [State.readings, regMapControl, regMapActive, List.cons_append, List.nil_append, List.map, Reg.read, hstatus,
    State.toNat_ctrlWord, BitVec.toNat_setWidth_of_le (w' := 32) (w := 4) (by norm_num), hlog,
    Build.toNat_param0 (b := (State.resetOf b).build) hb, Build.toNat_param1 (b := (State.resetOf b).build) hb]
  simpa [State.resetOf, ErrCode.code, Mode.code] using hp

end Sys2Proof.Machine

/-! What a host access reaches and does (20_memory.md R71 to R77, R80). -/

namespace Sys2Proof.Machine

/-! ### The order of events (R80) -/

/-- A step with an event to come runs that event on the state without it. -/
theorem step_of_inbox {s : State} {e : HostEvent} {rest : List HostEvent} (h : s.inbox = e :: rest) :
    step s = runEvent e { s with inbox := rest } := by
  rw [step, h]

/-- Settles O9: each kind of event is one arm of `runEvent`. -/
theorem stepsTakeEventsInOrder : Obligations.StepsTakeEventsInOrder := fun _ _ =>
  ⟨fun _ _ h => step_of_inbox h, fun _ _ _ h => step_of_inbox h, step_of_inbox, step_of_inbox⟩

/-! ### The address map (R72, R73) -/

/-- Word `w` of region `r` exists in the build: R73's column "populated when". -/
def populatedWord (b : Build) (r w : Nat) : Prop :=
  (r = 1 ∧ w / 2 < b.nmax / 2) ∨ (r = 2 ∧ w < b.nmax) ∨ (r = 3 ∧ w ≤ b.nmax / 2) ∨
    (4 ≤ r ∧ r ≤ 6 ∧ w / 2 ^ 15 < b.chmax ∧ w % 2 ^ 15 ≤ b.nmax / 2) ∨ (r = 7 ∧ w / 2 < b.nmax) ∨
    (r = 8 ∧ w < 2 * b.nmax) ∨ (9 ≤ r ∧ r ≤ 10 ∧ w / 2 ^ 17 < b.chmax ∧ w % 2 ^ 17 < 4 * b.nmax) ∨
    (r = 11 ∧ w / 2 ^ 16 < b.chmax ∧ w % 2 ^ 16 < b.bmax)

/-- A word of a region exists in the build just if what it maps to does. -/
theorem regionTarget_populated {b : Build} {r w : Nat} {t : Target} (h : regionTarget r w = some t) :
    t.populated b = true ↔ populatedWord b r w := by
  unfold regionTarget at h
  unfold populatedWord
  split at h <;> cases h <;> try split_ifs
  all_goals simp [Target.populated, Elem.populated]

theorem populatedWord_region {b : Build} {r w : Nat} (h : populatedWord b r w) : ∃ t, regionTarget r w = some t := by
  have hr : 1 ≤ r ∧ r ≤ 11 := by
    unfold populatedWord at h
    omega
  obtain ⟨hlo, hhi⟩ := hr
  interval_cases r <;> exact ⟨_, rfl⟩

/-- The twiddle ROM, WIN and OMEGA are regions 1 to 3. -/
theorem regionTarget_readOnlyArray {r w : Nat} {t : Target} (h : regionTarget r w = some t) :
    t.readOnlyArray = true ↔ 1 ≤ r ∧ r ≤ 3 := by
  unfold regionTarget at h
  split at h <;> cases h <;> try split_ifs
  all_goals simp [Target.readOnlyArray]

/-- The offset of an array word in the window (R73); the register block holds none. -/
def Target.arrayOffset : Target → Option Nat
  | .reg _ => none
  | .unlisted => none
  | .twr j => some (0x01000000 + 8 * j)
  | .twi j => some (0x01000000 + 8 * j + 4)
  | .elem e => some e.offset

theorem regionTarget_arrayOffset {r w : Nat} {t : Target} (h : regionTarget r w = some t) :
    t.arrayOffset = some (r * 2 ^ 24 + 4 * w) := by
  unfold regionTarget at h
  split at h <;> cases h <;> try split_ifs
  all_goals simp only [Target.arrayOffset, Elem.offset, Option.some.injEq]
  all_goals omega

theorem registerTarget_readOnlyArray (off : Nat) : (registerTarget off).readOnlyArray = false := by
  unfold registerTarget
  split <;> rfl

theorem registerTarget_arrayOffset (off : Nat) : (registerTarget off).arrayOffset = none := by
  unfold registerTarget
  split <;> rfl

theorem targetAt_of_lt (b : Build) {off : Nat} (h : off < 2 ^ 24) :
    targetAt b off = if off < 0x400 then some (registerTarget off) else none := if_pos h

theorem targetAt_of_le (b : Build) {off : Nat} (h : 2 ^ 24 ≤ off) :
    targetAt b off = (regionTarget (off / 2 ^ 24) (off % 2 ^ 24 / 4)).filter (·.populated b) := by
  rw [targetAt, if_neg (by omega)]
  cases regionTarget (off / 2 ^ 24) (off % 2 ^ 24 / 4) <;> rfl

/-- What a window offset can name: a word of the register block, or a populated word of an array region. -/
theorem targetAt_cases {b : Build} {off : Nat} {t : Target} (h : targetAt b off = some t) :
    (off < 0x400 ∧ t = registerTarget off) ∨
      (2 ^ 24 ≤ off ∧ regionTarget (off / 2 ^ 24) (off % 2 ^ 24 / 4) = some t ∧
        populatedWord b (off / 2 ^ 24) (off % 2 ^ 24 / 4)) := by
  obtain hlow | harr := Nat.lt_or_ge off (2 ^ 24)
  · rw [targetAt_of_lt b hlow, Option.ite_none_right_eq_some, Option.some_inj] at h
    obtain ⟨hblock, rfl⟩ := h
    exact .inl ⟨hblock, rfl⟩
  · rw [targetAt_of_le b harr, Option.filter_eq_some_iff] at h
    obtain ⟨hword, hpop⟩ := h
    exact .inr ⟨harr, hword, (regionTarget_populated hword).mp hpop⟩

/-- Which window offsets name anything (R72, R73). -/
theorem targetAt_eq_none_iff (b : Build) (off : Nat) :
    targetAt b off = none ↔
      ¬ ((off / 2 ^ 24 = 0 ∧ off < 0x400) ∨ populatedWord b (off / 2 ^ 24) (off % 2 ^ 24 / 4)) := by
  constructor
  · rintro hnone (⟨-, hreg⟩ | hpop)
    · rw [targetAt_of_lt b (by omega), if_pos hreg] at hnone
      cases hnone
    · obtain ⟨t, ht⟩ := populatedWord_region hpop
      have harr : 2 ^ 24 ≤ off := by
        unfold populatedWord at hpop
        omega
      rw [targetAt_of_le b harr, ht, Option.filter_some_pos ((regionTarget_populated ht).mpr hpop)] at hnone
      cases hnone
  · intro hout
    refine Option.eq_none_iff_forall_ne_some.mpr fun t ht => hout ?_
    obtain ⟨hreg, -⟩ | ⟨-, -, hpop⟩ := targetAt_cases ht
    · exact .inl ⟨by omega, hreg⟩
    · exact .inr hpop

/-- The host may only read regions 1 to 3. -/
theorem targetAt_readOnlyArray {b : Build} {off : Nat} {t : Target} (h : targetAt b off = some t) :
    t.readOnlyArray = true ↔ 1 ≤ off / 2 ^ 24 ∧ off / 2 ^ 24 ≤ 3 := by
  obtain ⟨hlow, rfl⟩ | ⟨-, hreg, -⟩ := targetAt_cases h
  · rw [registerTarget_readOnlyArray]
    exact iff_of_false Bool.false_ne_true (by omega)
  · exact regionTarget_readOnlyArray hreg

/-- An array word that a word-aligned offset names lies at that offset. -/
theorem targetAt_arrayOffset {b : Build} {off a : Nat} {t : Target} (h : targetAt b off = some t) (h4 : off % 4 = 0)
    (ha : t.arrayOffset = some a) : a = off := by
  obtain ⟨-, rfl⟩ | ⟨-, hreg, -⟩ := targetAt_cases h
  · rw [registerTarget_arrayOffset] at ha
    cases ha
  · rw [regionTarget_arrayOffset hreg, Option.some_inj] at ha
    omega

theorem inArrayRegion_iff (off : Nat) : inArrayRegion off = true ↔ 1 ≤ off / 2 ^ 24 ∧ off / 2 ^ 24 ≤ 11 := by
  rw [inArrayRegion, Bool.and_eq_true, decide_eq_true_eq, decide_eq_true_eq]
  omega

/-! ### What an access reaches (R71, R76) -/

/-- An access reaches the target at its offset unless R76 refuses it. -/
theorem State.reach_eq_some_iff {s : State} {addr size : Nat} {isWrite : Bool} {t : Target} :
    s.reach addr size isWrite = some t ↔
      (size = 4 ∧ addr % 4 = 0) ∧ (inArrayRegion (addr - s.build.base) && s.busy) = false ∧
        targetAt s.build (addr - s.build.base) = some t ∧ (isWrite && t.readOnlyArray) = false := by
  have hfilter : s.reach addr size isWrite =
      if size ≠ 4 ∨ addr % 4 ≠ 0 then none
      else if inArrayRegion (addr - s.build.base) && s.busy then none
      else (targetAt s.build (addr - s.build.base)).filter fun t => !(isWrite && t.readOnlyArray) := by
    rw [State.reach]
    cases targetAt s.build (addr - s.build.base) with
    | none => rfl
    | some u => cases h : isWrite && u.readOnlyArray <;> simp only [h, Option.filter_some] <;> rfl
  rw [hfilter, Option.ite_none_left_eq_some, Option.ite_none_left_eq_some, Option.filter_eq_some_iff, not_or, not_not,
    not_not, Bool.not_eq_true, Bool.not_eq_true']

theorem State.reach_eq_none_iff (s : State) (addr size : Nat) (isWrite : Bool) :
    s.reach addr size isWrite = none ↔
      size ≠ 4 ∨ addr % 4 ≠ 0 ∨ (inArrayRegion (addr - s.build.base) = true ∧ s.busy = true) ∨
        ∀ t, targetAt s.build (addr - s.build.base) = some t → isWrite = true ∧ t.readOnlyArray = true := by
  simp only [Option.eq_none_iff_forall_ne_some, ne_eq, State.reach_eq_some_iff, not_and_or, forall_or_left,
    imp_iff_not_or, Bool.not_eq_false, Bool.and_eq_true, or_assoc]

/-- The last refusals of R76 in terms of the map: a write of a region the host may only read, and an offset that names
nothing. -/
theorem targetAt_refused_iff (b : Build) (off : Nat) (isWrite : Bool) :
    (∀ t, targetAt b off = some t → isWrite = true ∧ t.readOnlyArray = true) ↔
      (isWrite = true ∧ 1 ≤ off / 2 ^ 24 ∧ off / 2 ^ 24 ≤ 3) ∨
        ¬ ((off / 2 ^ 24 = 0 ∧ off < 0x400) ∨ populatedWord b (off / 2 ^ 24) (off % 2 ^ 24 / 4)) := by
  rw [← targetAt_eq_none_iff]
  cases h : targetAt b off with
  | none => simp
  | some t => simp [targetAt_readOnlyArray h]

/-- Settles O54: each refusal of R76 in turn, in terms of the offset's region and word. -/
theorem busErrorsAreTheAccessesOfR76 : Obligations.BusErrorsAreTheAccessesOfR76 := by
  rintro s addr size off r w nmax ch bmax isWrite - - rfl rfl rfl rfl rfl rfl
  rw [State.reach_eq_none_iff, targetAt_refused_iff, inArrayRegion_iff, and_assoc]
  rfl

/-! ### What an access does (R74, R75) -/

theorem hostRead_of_reach {s : State} {addr size : Nat} {t : Target} (hw : s.inWindow addr = true)
    (h : s.reach addr size false = some t) : hostRead addr size s = .next (s.reply (t.read s)) := by
  rw [hostRead, if_pos hw, h]

theorem hostWrite_of_reach {s : State} {addr size : Nat} {t : Target} (v : Word) (hw : s.inWindow addr = true)
    (h : s.reach addr size true = some t) : hostWrite addr size v s = .next (t.write s v) := by
  rw [hostWrite, if_pos hw, h]

/-- What the host may write it may read. -/
theorem State.reach_read_of_write {s : State} {addr size : Nat} {t : Target} (h : s.reach addr size true = some t) :
    s.reach addr size false = some t := by
  obtain ⟨hform, hfree, htarget, -⟩ := State.reach_eq_some_iff.mp h
  exact State.reach_eq_some_iff.mpr ⟨hform, hfree, htarget, rfl⟩

/-- An access reaches an array word at that word's own offset (R73). -/
theorem State.reach_arrayOffset {s : State} {addr size a : Nat} {isWrite : Bool} {t : Target}
    (h : s.reach addr size isWrite = some t) (ha : t.arrayOffset = some a) : a = addr - s.build.base := by
  obtain ⟨⟨-, h4⟩, -, htarget, -⟩ := State.reach_eq_some_iff.mp h
  have hbase : s.build.base % 4 = 0 := by
    rw [Build.base]
    omega
  exact targetAt_arrayOffset htarget (by omega) ha

/-- The bytes of a word lie little-endian from its offset (R77). -/
theorem Memory.readByte_writeWord (m : Memory) (a : Nat) (v : Word) {b : Nat} (hb : b < 4) :
    (m.writeWord a v).readByte (a + b) = v.extractLsb' (8 * b) 8 := by
  rw [Memory.writeWord]
  interval_cases b <;> simp [Memory.readByte_writeByte_other]

/-- Settles O56: an access that reaches an element is that element's read or write, at its own offset. -/
theorem arrayWordsReadBack : Obligations.ArrayWordsReadBack := by
  refine ⟨fun c k => ⟨⟨rfl, rfl⟩, ⟨rfl, rfl, rfl⟩, ⟨rfl, rfl, rfl⟩, rfl, rfl, rfl⟩, ?_⟩
  intro s addr j v e _ hw
  refine ⟨fun h => ?_, fun h => ⟨State.reach_arrayOffset h rfl, hostRead_of_reach hw h⟩,
    fun h => ⟨(State.reach_arrayOffset h rfl).symm, hostRead_of_reach hw h⟩,
    fun h => ⟨(State.reach_arrayOffset h rfl).symm, hostRead_of_reach hw h⟩⟩
  have hoff : e.offset = addr - s.build.base := State.reach_arrayOffset h rfl
  refine ⟨s.mem.put e v, hostWrite_of_reach v hw h, ?_, fun b hb => ?_, fun a ha => ?_⟩
  · have hread := hostRead_of_reach (s := s.setMem (s.mem.put e v)) hw (State.reach_read_of_write h)
    rwa [Target.read, State.setMem_mem, Memory.get_put_same] at hread
  · exact hoff ▸ Memory.readByte_writeWord s.mem e.offset v hb
  · exact Memory.readByte_put_other s.mem v fun hcov => by
      obtain ⟨hlo, hhi⟩ := hcov
      omega

end Sys2Proof.Machine

/-! The command word: which words decode, and to what (30_encoding.md R101 to R106, R109). -/

namespace Sys2Proof

/-! ### What decoding answers (R104) -/

/-- The command of a word's opcode, with the operands its fields hold, before its reserved bits are looked at. -/
def wordInstr (w : Word) : Option Instr := instrOf (fieldOpc w) (fieldDir w) (fieldCh w) (fieldStage w) (fieldLo w)

theorem decode_eq_ok_iff {w : Word} {i : Instr} :
    decode w = .ok i ↔ wordInstr w = some i ∧ w &&& reservedMask i.format = 0#32 := by
  rw [decode, ← wordInstr]
  cases wordInstr w with
  | none => simp
  | some j =>
    by_cases h : w &&& reservedMask j.format = 0#32
    · simp only [if_pos h, Except.ok.injEq, Option.some_inj]
      exact ⟨fun hj => ⟨hj, hj ▸ h⟩, And.left⟩
    · simp only [if_neg h, Option.some_inj]
      exact iff_of_false nofun fun ⟨hj, hi⟩ => h (hj ▸ hi)

theorem decode_eq_illegalOpcode_iff {w : Word} : decode w = .error .illegalOpcode ↔ wordInstr w = none := by
  rw [decode, ← wordInstr]
  cases wordInstr w with
  | none => simp
  | some j => by_cases h : w &&& reservedMask j.format = 0#32 <;> simp [h]

/-! ### The parts of a word (R101) -/

/-- `DIR` of the bits w[23:20]. -/
def Dir.ofBits (ch : BitVec 4) : Dir := if ch.getLsbD 3 then .inverse else .forward

theorem Dir.ofBits_bits (d : Dir) : Dir.ofBits d.bits = d := d.bits_top

theorem Dir.bits_ofBits : ∀ {ch : BitVec 4}, ch &&& 0x7#4 = 0#4 → (Dir.ofBits ch).bits = ch := by decide

theorem wordInstr_wordOf (opc : BitVec 8) (ch st : BitVec 4) (lo : BitVec 16) :
    wordInstr (wordOf opc ch st lo) = instrOf opc (Dir.ofBits ch) ch.toNat st.toNat lo.toNat := by
  rw [wordInstr, wordOf_fieldOpc, fieldDir, fieldCh, fieldStage, fieldLo, wordOf_chBits, wordOf_stageBits,
    wordOf_loBits, Dir.ofBits]

/-- Every word is put together from its four parts. -/
theorem exists_eq_wordOf (w : Word) : ∃ opc ch st lo, w = wordOf opc ch st lo := by
  refine ⟨w.extractLsb' 24 8, w.extractLsb' 20 4, w.extractLsb' 16 4, w.extractLsb' 0 16, ?_⟩
  rw [wordOf, BitVec.extractLsb'_append_extractLsb'_eq_extractLsb' (by decide),
    BitVec.extractLsb'_append_extractLsb'_eq_extractLsb' (by decide),
    BitVec.extractLsb'_append_extractLsb'_eq_extractLsb' (by decide), BitVec.extractLsb'_eq_self]

/-- The parts of a word that a format reserves are 0 (R102). -/
def Format.Clear (ch st : BitVec 4) (lo : BitVec 16) : Format → Prop
  | .n => ch = 0#4 ∧ st = 0#4 ∧ lo = 0#16
  | .l => ch = 0#4 ∧ st = 0#4
  | .c => st = 0#4 ∧ lo = 0#16
  | .ck => st = 0#4
  | .b => ch &&& 0x7#4 = 0#4
  | .s => ch &&& 0x7#4 = 0#4 ∧ lo = 0#16
  | .d => ch &&& 0x7#4 = 0#4 ∧ st = 0#4 ∧ lo = 0#16

/-- A word is 0 just if its parts are. -/
theorem wordOf_eq_zero_iff {opc : BitVec 8} {ch st : BitVec 4} {lo : BitVec 16} :
    wordOf opc ch st lo = 0#32 ↔ opc = 0#8 ∧ ch = 0#4 ∧ st = 0#4 ∧ lo = 0#16 := by
  refine ⟨fun h => ⟨?_, ?_, ?_, ?_⟩, fun ⟨hopc, hch, hst, hlo⟩ => by rw [hopc, hch, hst, hlo, wordOf_zero]⟩
  · rw [← wordOf_fieldOpc opc ch st lo, h]; rfl
  · rw [← wordOf_chBits opc ch st lo, h]; rfl
  · rw [← wordOf_stageBits opc ch st lo, h]; rfl
  · rw [← wordOf_loBits opc ch st lo, h]; rfl

theorem wordOf_and_reservedMask_iff {opc : BitVec 8} {ch st : BitVec 4} {lo : BitVec 16} (f : Format) :
    wordOf opc ch st lo &&& reservedMask f = 0#32 ↔ f.Clear ch st lo := by
  have hch : ch &&& 0xF#4 = ch := BitVec.and_allOnes
  have hst : st &&& 0xF#4 = st := BitVec.and_allOnes
  have hlo : lo &&& 0xFFFF#16 = lo := BitVec.and_allOnes
  cases f <;> simp [reservedMask_parts, wordOf_and, wordOf_eq_zero_iff, Format.Clear, hch, hst, hlo]

/-! ### From an instruction to its word and back (R101 to R103) -/

theorem encode_and_reservedMask (i : Instr) : encode i &&& reservedMask i.format = 0#32 := by
  cases i with
  | nop => exact Laws.ReservedBitsClear.nop
  | mark tag => exact Laws.ReservedBitsClear.mark tag
  | configure => exact Laws.ReservedBitsClear.configure
  | process len => exact Laws.ReservedBitsClear.process len
  | cycle => exact Laws.ReservedBitsClear.cycle
  | cycleBegin => exact Laws.ReservedBitsClear.cycleBegin
  | cycleEnd => exact Laws.ReservedBitsClear.cycleEnd
  | push i => exact Laws.ReservedBitsClear.push i
  | pop i => exact Laws.ReservedBitsClear.pop i
  | loadframe ch => exact Laws.ReservedBitsClear.loadframe ch
  | ola ch => exact Laws.ReservedBitsClear.ola ch
  | pvBin ch k => exact Laws.ReservedBitsClear.pvBin ch k
  | pvAll ch => exact Laws.ReservedBitsClear.pvAll ch
  | bitrev => exact Laws.ReservedBitsClear.bitrev
  | bfly dir st p => exact Laws.ReservedBitsClear.bfly dir st p
  | fftStage dir st => exact Laws.ReservedBitsClear.fftStage dir st
  | fft dir => exact Laws.ReservedBitsClear.fft dir
  | hermit => exact Laws.ReservedBitsClear.hermit
  | window => exact Laws.ReservedBitsClear.window
  | resample => exact Laws.ReservedBitsClear.resample

theorem toNat_ofNat_of_fitsChannel {ch : Nat} (h : fitsChannel ch = true) : (BitVec.ofNat 4 ch).toNat = ch :=
  Nat.mod_eq_of_lt (of_decide_eq_true h)

theorem toNat_ofNat_of_fitsStage {st : Nat} (h : fitsStage st = true) : (BitVec.ofNat 4 st).toNat = st :=
  Nat.mod_eq_of_lt (of_decide_eq_true h)

theorem toNat_ofNat_of_fitsLo {v : Nat} (h : fitsLo v = true) : (BitVec.ofNat 16 v).toNat = v :=
  Nat.mod_eq_of_lt (of_decide_eq_true h)

/-- The fields of a well-formed instruction's word give the instruction back. -/
theorem wordInstr_encode {i : Instr} (h : i.wellFormed = true) : wordInstr (encode i) = some i := by
  refine (wordInstr_wordOf _ _ _ _).trans ?_
  cases i with
  | nop | configure | cycle | cycleBegin | cycleEnd | bitrev | hermit | window | resample => rfl
  | mark v | process v | push v | pop v =>
    simp only [Instr.opcode, instrOf, Instr.loBits, toNat_ofNat_of_fitsLo h]
  | loadframe ch | ola ch | pvAll ch => simp only [Instr.opcode, instrOf, Instr.chBits, toNat_ofNat_of_fitsChannel h]
  | pvBin ch k =>
    obtain ⟨hch, hk⟩ := Bool.and_eq_true_iff.mp h
    simp only [Instr.opcode, instrOf, Instr.chBits, Instr.loBits, toNat_ofNat_of_fitsChannel hch,
      toNat_ofNat_of_fitsLo hk]
  | bfly dir st p =>
    obtain ⟨hst, hp⟩ := Bool.and_eq_true_iff.mp h
    simp only [Instr.opcode, instrOf, Instr.chBits, Instr.stageBits, Instr.loBits, Dir.ofBits_bits,
      toNat_ofNat_of_fitsStage hst, toNat_ofNat_of_fitsLo hp]
  | fftStage dir st =>
    simp only [Instr.opcode, instrOf, Instr.chBits, Instr.stageBits, Dir.ofBits_bits, toNat_ofNat_of_fitsStage h]
  | fft dir => simp only [Instr.opcode, instrOf, Instr.chBits, Dir.ofBits_bits]

/-- Settles O2: each field of the word holds its operand, and no reserved bit of it is set. -/
theorem decodeOfEncode : Obligations.DecodeOfEncode := fun i h =>
  decode_eq_ok_iff.mpr ⟨wordInstr_encode h, encode_and_reservedMask i⟩

/-! ### From a word to its instruction and back (R104) -/

/-- What the opcode map reads from the parts of a word is well-formed, and where the reserved parts are 0, its
word has the same parts. -/
theorem parts_of_instrOf_eq_some {opc : BitVec 8} {ch st : BitVec 4} {lo : BitVec 16} {i : Instr}
    (h : instrOf opc (Dir.ofBits ch) ch.toNat st.toNat lo.toNat = some i) :
    i.wellFormed = true ∧
      (i.format.Clear ch st lo → i.opcode = opc ∧ i.chBits = ch ∧ i.stageBits = st ∧ i.loBits = lo) := by
  have hch : fitsChannel ch.toNat = true := decide_eq_true ch.isLt
  have hst : fitsStage st.toNat = true := decide_eq_true st.isLt
  have hlo : fitsLo lo.toNat = true := decide_eq_true lo.isLt
  unfold instrOf at h
  split at h <;> cases h
  all_goals
    refine ⟨by simp only [Instr.wellFormed, hch, hst, hlo, Bool.and_self], fun hclear => ?_⟩
    simp only [Instr.format, Format.Clear] at hclear
    simp [Instr.opcode, Instr.chBits, Instr.stageBits, Instr.loBits, Dir.bits_ofBits, hclear]

/-- Settles O3: the word's four parts are those of the instruction read from them. -/
theorem encodeOfDecode : Obligations.EncodeOfDecode := by
  intro w i h
  obtain ⟨opc, ch, st, lo, rfl⟩ := exists_eq_wordOf w
  obtain ⟨hinstr, hreserved⟩ := decode_eq_ok_iff.mp h
  obtain ⟨hwf, hparts⟩ := parts_of_instrOf_eq_some (wordInstr_wordOf opc ch st lo ▸ hinstr)
  obtain ⟨hopc, hch, hst, hlo⟩ := hparts ((wordOf_and_reservedMask_iff i.format).mp hreserved)
  exact ⟨hwf, by rw [encode, hopc, hch, hst, hlo]⟩

/-! ### The opcodes that are no command (R106) -/

theorem fieldOpc_toNat (w : Word) : (fieldOpc w).toNat = w.toNat / 2 ^ 24 := by
  have := w.isLt
  rw [fieldOpc, BitVec.extractLsb'_toNat, Nat.shiftRight_eq_div_pow]
  omega

/-- The opcode map has no row exactly in R106's five ranges. -/
theorem instrOf_eq_none_iff (opc : BitVec 8) (dir : Dir) (ch st lo : Nat) :
    instrOf opc dir ch st lo = none ↔
      (0x07 ≤ opc.toNat ∧ opc.toNat ≤ 0x0F) ∨ (0x14 ≤ opc.toNat ∧ opc.toNat ≤ 0x1F) ∨
        (0x22 ≤ opc.toNat ∧ opc.toNat ≤ 0x2F) ∨ (0x35 ≤ opc.toNat ∧ opc.toNat ≤ 0x3F) ∨
          0x42 ≤ opc.toNat := by
  unfold instrOf
  split
  case h_21 =>
    refine iff_of_true rfl ?_
    simp only [imp_false, ← BitVec.toNat_inj, BitVec.toNat_ofNat] at *
    omega
  all_goals exact iff_of_false (Option.some_ne_none _) (by decide)

/-- Settles O4: only the opcode decides whether the opcode map has a row. -/
theorem illegalOpcodesAreTheUnlistedOnes : Obligations.IllegalOpcodesAreTheUnlistedOnes := by
  intro w
  rw [decode_eq_illegalOpcode_iff, wordInstr, instrOf_eq_none_iff, fieldOpc_toNat]

/-- Settles O1: each word is fixed, so decoding computes. -/
theorem encodingExamplesDecode : Obligations.EncodingExamplesDecode := by
  unfold Obligations.EncodingExamplesDecode
  decide

end Sys2Proof

/-! The engine's turn (44_sequencer.md R220, R221). -/

namespace Sys2Proof.Machine

/-- When the engine's turn comes, a step is the engine's, on the state whose schedule has lost that turn. -/
theorem step_of_engineTurn {s : State} (h : s.inbox = [] ∨ ∃ later, s.inbox = .engine :: later) :
    step s = engineStep { s with inbox := s.inbox.tail } := by
  obtain hnone | ⟨later, hlater⟩ := h
  · have hsame : { s with inbox := s.inbox.tail } = s := by rw [hnone, List.tail_nil, ← hnone]
    rw [hsame, step, hnone]
  · rw [step_of_inbox hlater, runEvent, hlater, List.tail_cons]

/-- A free engine starts the command at the head of CMDQ. -/
theorem engineStep_of_head {s : State} {w : Word} {rest : List Word} (hfree : s.running = none)
    (hlive : s.halted = false) (hq : s.cmdq = w :: rest) : engineStep s = startCommand w { s with cmdq := rest } := by
  simp only [engineStep, hfree, hlive, hq, Bool.false_eq_true, if_false]

theorem startCommand_of_error {w : Word} {e : DecodeError} (h : decode w = .error e) (s : State) :
    startCommand w s = .next (s.raiseError (DecodeError.errCode e) w) := by
  rw [startCommand, h]

/-- Settles O6: the turn is the engine's, the free engine starts the head word, and that word does not decode. -/
theorem stepRaisesDecodingErrors : Obligations.StepRaisesDecodingErrors := by
  intro s w rest hturn hfree hlive hq
  have hstart : step s = startCommand w { s with cmdq := rest, inbox := s.inbox.tail } :=
    (step_of_engineTurn hturn).trans (engineStep_of_head hfree hlive hq)
  exact ⟨fun h => hstart.trans (startCommand_of_error h _), fun h => hstart.trans (startCommand_of_error h _)⟩

end Sys2Proof.Machine

/-! The ring buffers and the overlap-add (40_ring_ola.md R142 to R159): what PUSH, POP, LOADFRAME, OLA and CYCLE_END write
and what they leave as it was. -/

namespace Sys2Proof.Machine

theorem State.Inv.cursorInv {s : State} (h : s.Inv) (hc : s.configured = true) : s.CursorInv := (h.2.1 hc).2

/-! ### A command whose checks pass performs its effect (R251) -/

theorem exec_push_of_clear {s : State} {i : Nat} (hc : s.configured = true) (hi : i < s.build.bmax)
    (hroom : s.inAcc.toNat < s.accMax) : exec (.push i) s = .next (pushEffect i s).complete :=
  leafCommand_of_clear (by simp [firstError_eq_none_iff, hc, hi, hroom])

theorem exec_pop_of_clear {s : State} {i : Nat} (hc : s.configured = true) (hi : i < s.build.bmax) :
    exec (.pop i) s = .next (popEffect i s).complete :=
  leafCommand_of_clear (by simp [firstError_eq_none_iff, hc, hi])

theorem exec_loadframe_of_clear {s : State} {ch : Nat} (hc : s.configured = true) (hch : ch < s.ch) :
    exec (.loadframe ch) s = .next (loadframeEffect ch s).complete :=
  leafCommand_of_clear (by simp [firstError_eq_none_iff, hc, hch])

theorem exec_ola_of_clear {s : State} {ch : Nat} (hc : s.configured = true) (hch : ch < s.ch) :
    exec (.ola ch) s = .next (olaEffect ch s).complete :=
  leafCommand_of_clear (by simp [firstError_eq_none_iff, hc, hch])

theorem exec_cycleEnd_of_clear {s : State} (hc : s.configured = true) (hhop : s.hop ≤ s.inAcc.toNat) :
    exec .cycleEnd s = .next (cycleEndEffect s).complete :=
  leafCommand_of_clear (by simp [firstError_eq_none_iff, hc, hhop])

/-! ### The counters and the cursors (R51, R52) -/

theorem add_one_eq_ofNat (w : Word) : w + 1#32 = BitVec.ofNat 32 (w.toNat + 1) :=
  BitVec.eq_of_toNat_eq (by simp)

/-- A counter wraps at 2^32. -/
theorem add_one_eq_ofNat_mod (w : Word) : w + 1#32 = BitVec.ofNat 32 ((w.toNat + 1) % 2 ^ 32) :=
  BitVec.eq_of_toNat_eq (by simp)

/-- Settles O29: the hop is `N / 4` and the ring holds `4 * N` words. -/
theorem cycleEndAdvancesOneHop : Obligations.CycleEndAdvancesOneHop := by
  intro s hc hhop
  rw [exec_cycleEnd_of_clear hc hhop, cycleEndEffect, add_one_eq_ofNat_mod]
  rfl

/-- Settles O47: OUT_RD counts the samples popped, which are those pushed, and IN_ACC of them lie past IN_RD = OUT_WR. -/
theorem cursorDistanceAfterPop : Obligations.CursorDistanceAfterPop := by
  intro s hinv hc hcount
  obtain ⟨hwr, hout, -, how, -, hdist⟩ := hinv.cursorInv hc
  have hpushed : (s.pushCount.toNat : Int) ≡ s.inRd.toNat + s.inAcc.toNat [ZMOD s.cap] := by
    exact_mod_cast hwr.symm.trans hdist
  have hpopped : (s.outRd.toNat : Int) ≡ 2 * s.n + s.pushCount.toNat [ZMOD s.cap] := by
    rw [hout, hcount]
    exact_mod_cast Nat.mod_modEq _ _
  have hcap : (s.cap : Int) = 4 * s.n := by rw [State.cap, Nat.cast_mul, Nat.cast_ofNat]
  calc (s.outWr.toNat : Int) - s.outRd.toNat
      ≡ s.inRd.toNat - (2 * s.n + (s.inRd.toNat + s.inAcc.toNat)) [ZMOD s.cap] := by
        rw [how]
        exact (Int.ModEq.refl _).sub (hpopped.trans (hpushed.add_left _))
    _ = 2 * s.n - s.inAcc.toNat - s.cap := by rw [hcap]; ring
    _ ≡ (2 * s.n : Nat) - s.inAcc.toNat [ZMOD s.cap] := by simp [Int.ModEq]

/-! ### The frame's ring addresses (R150, R155) -/

theorem State.cap_pos (s : State) : 0 < s.cap := Nat.mul_pos (by norm_num) s.n_pos

theorem State.natCast_frameAddr (s : State) (cursor : Word) (i : Nat) :
    (s.frameAddr cursor i : Int) = ((cursor.toNat : Int) - 3 * (s.hop : Int) + i) % (s.cap : Int) :=
  Int.toNat_of_nonneg (Int.emod_nonneg _ (Int.natCast_ne_zero.mpr s.cap_pos.ne'))

theorem State.frameAddr_lt (s : State) (cursor : Word) (i : Nat) : s.frameAddr cursor i < s.cap := by
  rw [← Int.ofNat_lt, s.natCast_frameAddr]
  exact Int.emod_lt_of_pos _ (Int.natCast_pos.mpr s.cap_pos)

/-- Fewer samples than the ring holds are at different addresses. -/
theorem State.frameAddr_injOn (s : State) (cursor : Word) {i j : Nat} (hi : i < s.cap) (hj : j < s.cap)
    (h : s.frameAddr cursor i = s.frameAddr cursor j) : i = j := by
  have hmod : (cursor.toNat : Int) - 3 * (s.hop : Int) + i ≡ cursor.toNat - 3 * (s.hop : Int) + j [ZMOD s.cap] := by
    rw [Int.ModEq, ← s.natCast_frameAddr, ← s.natCast_frameAddr, h]
  exact (Int.natCast_modEq_iff.mp (Int.ModEq.add_left_cancel' _ hmod)).eq_of_lt_of_lt hi hj

/-- Settles O26: a remainder modulo the ring's size, of numbers less than that size apart. -/
theorem frameAddressesAreDistinctRingAddresses : Obligations.FrameAddressesAreDistinctRingAddresses :=
  fun s cursor i _ => ⟨s.natCast_frameAddr cursor i, s.frameAddr_lt cursor i, s.frameAddr_injOn cursor⟩

/-! ### Elements of the map (R73) -/

theorem Memory.get_put_ne (m : Memory) {e e' : Elem} (v : Word) (h : e.inMap = true) (h' : e'.inMap = true)
    (hne : e ≠ e') : (m.put e v).get e' = m.get e' :=
  m.get_put_apart v (Elem.apart_of_ne h h' hne)

theorem Memory.get_put_put_ne (m : Memory) {e₁ e₂ e : Elem} (v₁ v₂ : Word) (h₁ : e₁.inMap = true) (h₂ : e₂.inMap = true)
    (h : e.inMap = true) (hne₁ : e₁ ≠ e) (hne₂ : e₂ ≠ e) : ((m.put e₁ v₁).put e₂ v₂).get e = m.get e :=
  (Memory.get_put_ne _ v₂ h₂ h hne₂).trans (m.get_put_ne v₁ h₁ h hne₁)

/-- Different elements of the map share no byte. -/
theorem Elem.not_covers_of_ne {e e' : Elem} {a : Nat} (h : e.inMap = true) (h' : e'.inMap = true) (hne : e ≠ e')
    (ha : e'.covers a) : ¬ e.covers a := by
  have hapart := Elem.apart_of_ne h h' hne
  unfold Elem.Apart Elem.covers at *
  omega

theorem State.ch_lt (s : State) : s.ch < 2 ^ 5 := s.actChannels.isLt

theorem State.cap_le (s : State) : s.cap ≤ 2 ^ 17 := by
  have := s.n_le
  rw [State.cap]
  omega

theorem State.two_mul_n_le_cap (s : State) : 2 * s.n ≤ s.cap := Nat.mul_le_mul_right _ (by norm_num)

theorem State.inring_inMap {s : State} {c a : Nat} (hc : c < s.ch) (ha : a < s.cap) : (Elem.inring c a).inMap = true := by
  simpa [Elem.inMap] using And.intro (hc.trans s.ch_lt) (ha.trans_le s.cap_le)

theorem State.outring_inMap {s : State} {c a : Nat} (hc : c < s.ch) (ha : a < s.cap) :
    (Elem.outring c a).inMap = true := State.inring_inMap hc ha

theorem State.iobuf_inMap {s : State} {c i : Nat} (hc : c < s.ch) (hb : s.build.legal) (hi : i < s.build.bmax) :
    (Elem.iobuf c i).inMap = true := by
  obtain ⟨-, -, -, -, -, hbmax, -, -⟩ := hb
  have := s.ch_lt
  simp only [Elem.inMap, Bool.and_eq_true, decide_eq_true_eq]
  omega

theorem State.scrRe_inMap {s : State} {k : Nat} (hk : k < s.n) : (Elem.scrRe k).inMap = true :=
  decide_eq_true (by have := s.n_le; omega)

theorem State.scrIm_inMap {s : State} {k : Nat} (hk : k < s.n) : (Elem.scrIm k).inMap = true := State.scrRe_inMap hk

theorem State.win_inMap {s : State} {k : Nat} (hk : k < s.n) : (Elem.win k).inMap = true :=
  decide_eq_true (by have := s.n_le; omega)

/-! ### PUSH (R142) -/

theorem pushEffect_get_inring {s : State} {i c : Nat} (hb : s.build.legal) (hi : i < s.build.bmax)
    (hwr : s.inWr.toNat < s.cap) (hc : c < s.ch) :
    (pushEffect i s).mem.get (.inring c s.inWr.toNat) = s.mem.get (.iobuf c i) := by
  refine forRange_get_written (get := fun m : Memory => m.get (.inring c s.inWr.toNat)) hc ?_ fun c' m hlt hc' => ?_
  · rw [Memory.get_put_same]
    exact forRange_get_apart fun c' m hc' => m.get_put_ne _ (State.inring_inMap (hc'.trans hc) hwr)
      (State.iobuf_inMap hc hb hi) (by simp)
  · exact m.get_put_ne _ (State.inring_inMap hc' hwr) (State.inring_inMap hc hwr) (by simp [hlt.ne'])

theorem pushEffect_readByte {s : State} {i a : Nat} (ha : ∀ c < s.ch, ¬ (Elem.inring c s.inWr.toNat).covers a) :
    (pushEffect i s).mem.readByte a = s.mem.readByte a :=
  forRange_readByte fun c _ hc => Memory.readByte_put_other _ _ (ha c hc)

/-- Settles O24: the loop's reads are of IOBUF, which it does not write, and its turns write different rows. -/
theorem pushAppendsOneSamplePerChannel : Obligations.PushAppendsOneSamplePerChannel := by
  intro s i hinv hc hi hroom
  obtain ⟨hwr, -⟩ := hinv.cursorInv hc
  refine ⟨(pushEffect i s).mem, ?_, fun c => pushEffect_get_inring hinv.1.1 hi (hwr ▸ Nat.mod_lt _ s.cap_pos),
    fun a => pushEffect_readByte⟩
  rw [exec_push_of_clear hc hi hroom, pushEffect, add_one_eq_ofNat s.inAcc, add_one_eq_ofNat_mod s.pushCount]
  rfl

/-! ### POP (R145, R146) -/

theorem popEffect_get {s : State} {i c : Nat} (hb : s.build.legal) (hi : i < s.build.bmax) (hrd : s.outRd.toNat < s.cap)
    (hc : c < s.ch) :
    (popEffect i s).mem.get (.iobuf c i) = s.mem.get (.outring c s.outRd.toNat) ∧
      (popEffect i s).mem.get (.outring c s.outRd.toNat) = 0#32 := by
  have hio : ∀ {c}, c < s.ch → (Elem.iobuf c i).inMap = true := fun hc => State.iobuf_inMap hc hb hi
  have hout : ∀ {c}, c < s.ch → (Elem.outring c s.outRd.toNat).inMap = true := fun hc => State.outring_inMap hc hrd
  constructor
  · refine forRange_get_written (get := fun m : Memory => m.get (.iobuf c i)) hc ?_ fun c' m hlt hc' => ?_
    · rw [Memory.get_put_ne _ _ (hout hc) (hio hc) (by simp), Memory.get_put_same]
      exact forRange_get_apart fun c' m hc' => m.get_put_put_ne _ _ (hio (hc'.trans hc)) (hout (hc'.trans hc)) (hout hc)
        (by simp) (by simp [hc'.ne])
    · exact m.get_put_put_ne _ _ (hio hc') (hout hc') (hio hc) (by simp [hlt.ne']) (by simp)
  · refine forRange_get_written (get := fun m : Memory => m.get (.outring c s.outRd.toNat)) hc
      (Memory.get_put_same _ _ _) fun c' m hlt hc' => ?_
    exact m.get_put_put_ne _ _ (hio hc') (hout hc') (hout hc) (by simp) (by simp [hlt.ne'])

theorem popEffect_readByte {s : State} {i a : Nat}
    (ha : ∀ c < s.ch, ¬ (Elem.iobuf c i).covers a ∧ ¬ (Elem.outring c s.outRd.toNat).covers a) :
    (popEffect i s).mem.readByte a = s.mem.readByte a :=
  forRange_readByte fun c _ hc =>
    (Memory.readByte_put_other _ _ (ha c hc).2).trans (Memory.readByte_put_other _ _ (ha c hc).1)

/-- Settles O25: each turn reads its own slot before it clears it, and no other turn touches its channel's rows. -/
theorem popDeliversAndClearsOneSlot : Obligations.PopDeliversAndClearsOneSlot := by
  intro s i hinv hc hi
  obtain ⟨-, hrd, -⟩ := hinv.cursorInv hc
  refine ⟨(popEffect i s).mem, ?_, fun c => popEffect_get hinv.1.1 hi (hrd ▸ Nat.mod_lt _ s.cap_pos),
    fun a => popEffect_readByte⟩
  rw [exec_pop_of_clear hc hi, popEffect, add_one_eq_ofNat_mod s.popCount]
  rfl

/-! ### LOADFRAME (R152) -/

/-- A frame sample is determined by its ring word and its window coefficient. -/
theorem frameSample_congr {s : State} {ch n : Nat} {m m' : Memory}
    (hring : m'.get (.inring ch (s.frameAddr s.inRd n)) = m.get (.inring ch (s.frameAddr s.inRd n)))
    (hwin : m'.get (.win n) = m.get (.win n)) : frameSample s ch n m' = frameSample s ch n m := by
  rw [frameSample, frameSample, Memory.getInt, Memory.getInt, hring, hwin]

theorem loadframeEffect_get {s : State} {ch k : Nat} (hch : ch < s.ch) (hk : k < s.n) :
    (loadframeEffect ch s).mem.get (.scrRe k) = BitVec.ofInt 32 (frameSample s ch k s.mem) ∧
      (loadframeEffect ch s).mem.get (.scrIm k) = 0#32 := by
  constructor
  · refine forRange_get_written (get := fun m : Memory => m.get (.scrRe k)) hk ?_ fun j m hlt hj => ?_
    · have keeps : ∀ e : Elem, e.inMap = true → (∀ j, Elem.scrRe j ≠ e) → (∀ j, Elem.scrIm j ≠ e) →
          (forRange k (fun n m => (m.putInt (.scrRe n) (frameSample s ch n m)).putInt (.scrIm n) 0) s.mem).get e =
            s.mem.get e := fun e he hre him => forRange_get_apart fun j m hj =>
          m.get_put_put_ne _ _ (State.scrRe_inMap (hj.trans hk)) (State.scrIm_inMap (hj.trans hk)) he (hre j) (him j)
      rw [Memory.putInt, Memory.get_put_ne _ _ (State.scrIm_inMap hk) (State.scrRe_inMap hk) (by simp),
        Memory.get_putInt_same, frameSample_congr (keeps _ (State.inring_inMap hch (s.frameAddr_lt _ _)) (by simp) (by simp))
          (keeps _ (State.win_inMap hk) (by simp) (by simp))]
    · exact m.get_put_put_ne _ _ (State.scrRe_inMap hj) (State.scrIm_inMap hj) (State.scrRe_inMap hk)
        (by simp [hlt.ne']) (by simp)
  · refine forRange_get_written (get := fun m : Memory => m.get (.scrIm k)) hk (Memory.get_putInt_same _ _ _)
      fun j m hlt hj => ?_
    exact m.get_put_put_ne _ _ (State.scrRe_inMap hj) (State.scrIm_inMap hj) (State.scrIm_inMap hk) (by simp)
      (by simp [hlt.ne'])

theorem loadframeEffect_readByte {s : State} {ch a : Nat}
    (ha : ∀ k < s.n, ¬ (Elem.scrRe k).covers a ∧ ¬ (Elem.scrIm k).covers a) :
    (loadframeEffect ch s).mem.readByte a = s.mem.readByte a :=
  forRange_readByte fun k _ hk =>
    (Memory.readByte_putInt_other _ _ (ha k hk).2).trans (Memory.readByte_putInt_other _ _ (ha k hk).1)

/-- Settles O27: the loop reads the ring and the window, which it does not write. -/
theorem loadframeWindowsTheFrame : Obligations.LoadframeWindowsTheFrame := fun s ch hc hch =>
  ⟨(loadframeEffect ch s).mem, exec_loadframe_of_clear hc hch, fun _ => loadframeEffect_get hch,
    fun _ => loadframeEffect_readByte⟩

/-! ### OLA (R156) -/

theorem sat32_eq_clamp (x : Int) : sat32 x = max (-2 ^ 31) (min x (2 ^ 31 - 1)) := by
  rw [sat32, satMax, satMin]
  split_ifs <;> omega

/-- A saturated value fits the word it is stored in. -/
theorem Memory.getInt_putInt_sat32 (m : Memory) (e : Elem) (x : Int) : (m.putInt e (sat32 x)).getInt e = sat32 x := by
  rw [Memory.getInt, Memory.get_putInt_same, BitVec.toInt_ofInt]
  exact wrap32_eq (by rw [sat32_eq_clamp]; omega) (by rw [sat32_eq_clamp]; omega) (by simp)

theorem olaLength_eq (s : State) : olaLength s = if s.cycMode = .pitchShift then s.rlen.toNat else s.n := by
  rw [olaLength]
  cases s.cycMode <;> rfl

theorem olaSource_eq (s : State) (i : Nat) : olaSource s i = if s.cycMode = .pitchShift then .rs i else .scrRe i := by
  rw [olaSource]
  cases s.cycMode <;> rfl

/-- A ratio of at least 1/2 makes the resampled frame at most twice as long (R227). -/
theorem resampledLength_le {n ratio : Nat} (h : 2 ^ 27 ≤ ratio) : resampledLength n ratio ≤ 2 * n := by
  refine Nat.div_le_of_le_mul ?_
  calc n * 2 ^ 28 = 2 ^ 27 * (2 * n) := by ring
    _ ≤ ratio * (2 * n) := Nat.mul_le_mul_right _ h

theorem State.Inv.olaLength_le {s : State} (h : s.Inv) (hc : s.configured = true) : olaLength s ≤ 2 * s.n := by
  obtain ⟨⟨-, -, -, -, -, -, -, -, hratio⟩, hact, -⟩ := h
  obtain ⟨-, hrlen, -⟩ := (s.configInv_iff.mp (hact hc).1).2
  rw [olaLength_eq, hrlen]
  split_ifs
  · exact resampledLength_le hratio.1
  · omega

/-- What the first `k` turns of the loop of R156 have done: the slots of the samples before `k` hold their clipped sums,
the flag says whether any of them clipped, and every other byte is as before. The sums are over the arrays before the
loop. -/
structure OlaDone (s : State) (ch k : Nat) (r : Memory × Bool) : Prop where
  added : ∀ i < k, r.1.getInt (olaTarget s ch i) = sat32 (olaSum s ch i s.mem)
  clipped : r.2 = true ↔ ∃ i < k, clips (olaSum s ch i s.mem) = true
  frame : ∀ a, (∀ i < k, ¬ (olaTarget s ch i).covers a) → r.1.readByte a = s.mem.readByte a

theorem olaTarget_inMap {s : State} {ch : Nat} (hch : ch < s.ch) (i : Nat) : (olaTarget s ch i).inMap = true :=
  State.outring_inMap hch (s.frameAddr_lt _ _)

theorem olaTarget_ne {s : State} (ch : Nat) {i j : Nat} (hi : i < s.cap) (hj : j < s.cap) (hne : i ≠ j) :
    olaTarget s ch i ≠ olaTarget s ch j := fun h =>
  hne (s.frameAddr_injOn s.outWr hi hj (Elem.outring.inj h).2)

theorem olaSource_inMap {s : State} {i : Nat} (hi : i < 2 * s.n) : (olaSource s i).inMap = true := by
  have := s.n_le
  rw [olaSource_eq]
  split_ifs <;> exact decide_eq_true (by omega)

theorem olaTarget_ne_olaSource (s : State) (ch i j : Nat) : olaTarget s ch i ≠ olaSource s j := by
  rw [olaTarget, olaSource_eq]
  split_ifs <;> simp

/-- The turns so far have written neither the slot nor the source of sample `k`. -/
theorem OlaDone.olaSum_eq {s : State} {ch k : Nat} {r : Memory × Bool} (h : OlaDone s ch k r) (hch : ch < s.ch)
    (hk : k < 2 * s.n) : olaSum s ch k r.1 = olaSum s ch k s.mem := by
  have hkeep : ∀ e : Elem, e.inMap = true → (∀ i < k, olaTarget s ch i ≠ e) → r.1.get e = s.mem.get e :=
    fun e he hne => Memory.get_congr fun a ha => h.frame a fun i hi =>
      Elem.not_covers_of_ne (olaTarget_inMap hch i) he (hne i hi) ha
  have hcap := s.two_mul_n_le_cap
  have htarget := hkeep _ (olaTarget_inMap hch k) fun i hi => olaTarget_ne ch (by omega) (by omega) hi.ne
  have hsource := hkeep _ (olaSource_inMap hk) fun i _ => olaTarget_ne_olaSource s ch i k
  simp only [olaSum, Memory.getInt, htarget, hsource]

theorem OlaDone.next {s : State} {ch k : Nat} {r : Memory × Bool} (h : OlaDone s ch k r) (hch : ch < s.ch)
    (hk : k < 2 * s.n) :
    OlaDone s ch (k + 1)
      (r.1.putInt (olaTarget s ch k) (sat32 (olaSum s ch k r.1)), r.2 || clips (olaSum s ch k r.1)) := by
  rw [h.olaSum_eq hch hk]
  have hcap := s.two_mul_n_le_cap
  refine ⟨fun i hi => ?_, ?_, fun a ha => ?_⟩
  · obtain hlt | rfl := Nat.lt_succ_iff_lt_or_eq.mp hi
    · rw [Memory.getInt_putInt_apart _ _ (Elem.apart_of_ne (olaTarget_inMap hch k) (olaTarget_inMap hch i)
        (olaTarget_ne ch (by omega) (by omega) hlt.ne'))]
      exact h.added i hlt
    · exact Memory.getInt_putInt_sat32 _ _ _
  · rw [Bool.or_eq_true, h.clipped, Nat.exists_lt_succ_right]
  · rw [Memory.readByte_putInt_other _ _ (ha k (Nat.lt_succ_self k))]
    exact h.frame a fun i hi => ha i (Nat.lt_succ_of_lt hi)

theorem olaLoop_done {s : State} {ch : Nat} (hch : ch < s.ch) (hlen : olaLength s ≤ 2 * s.n) :
    OlaDone s ch (olaLength s) (olaLoop s ch) :=
  forRange_invariant (P := OlaDone s ch) ⟨by simp, by simp, fun _ _ => rfl⟩
    fun _ _ hk h => h.next hch (hk.trans_le hlen)

/-- Settles O28: the loop's invariant, the frame of R156 being no longer than half the ring. -/
theorem olaAccumulatesTheFrame : Obligations.OlaAccumulatesTheFrame := by
  intro s ch len src sum hinv hc hch hpitch hother hsum
  obtain ⟨rfl, hsrc⟩ : len = olaLength s ∧ ∀ i, src i = olaSource s i := by
    simp only [olaLength_eq, olaSource_eq]
    split_ifs with hmode
    · exact hpitch hmode
    · exact hother hmode
  obtain rfl : sum = fun i => olaSum s ch i s.mem := funext fun i => by rw [hsum, hsrc]; rfl
  obtain ⟨hadded, hclipped, hframe⟩ := olaLoop_done hch (hinv.olaLength_le hc)
  simp only [clips_eq_true_iff] at hclipped
  refine ⟨(olaLoop s ch).1, if (olaLoop s ch).2 then s.satFlags ||| satOla else s.satFlags, exec_ola_of_clear hc hch,
    fun i hi => (hadded i hi).trans (sat32_eq_clamp _), fun h => if_pos (hclipped.mpr h), fun h => if_neg ?_, hframe⟩
  rw [hclipped]
  exact fun ⟨i, hi, hclip⟩ => h i hi hclip

end Sys2Proof.Machine

/-! The phase unit (41_phase.md R161 to R170): what PV_BIN writes and what it leaves as it was, where the generator
counts, and PV_ALL as the engine runs it. -/

namespace Sys2Proof.Machine

/-! ### The generator (R168) -/

/-- Settles O31: xorshift32 takes only 0 to 0. -/
theorem xorshiftNeverYieldsZero : Obligations.XorshiftNeverYieldsZero := fun _ => xorshift32_ne_zero

theorem binDraw_eq (s : State) :
    binDraw s = if s.cycMode = .whisperize then xorshift32 s.prngState else s.prngState := by
  rw [binDraw]
  cases s.cycMode <;> rfl

/-! ### The synthesis phase by the latched mode (R166, R169) -/

theorem binSynthesis_pitchShift {s : State} (h : s.cycMode = .pitchShift) (ch k : Nat) :
    binSynthesis ch k s =
      wrap32 (s.mem.getInt (.synph ch k) + rshr (binIncrement ch k s.mem * (s.cycRatio.toNat : Int)) 28) := by
  rw [binSynthesis, h]

theorem binSynthesis_robotize {s : State} (h : s.cycMode = .robotize) (ch k : Nat) : binSynthesis ch k s = 0 := by
  rw [binSynthesis, h]

theorem binSynthesis_whisperize {s : State} (h : s.cycMode = .whisperize) (ch k : Nat) :
    binSynthesis ch k s = (xorshift32 s.prngState).toInt := by
  rw [binSynthesis, h]

/-- In every mode the synthesis phase is a binary angle, and fits the word it is stored in. -/
theorem binSynthesis_bounds (ch k : Nat) (s : State) :
    -2 ^ 31 ≤ binSynthesis ch k s ∧ binSynthesis ch k s < 2 ^ 31 := by
  cases h : s.cycMode with
  | pitchShift =>
    rw [binSynthesis_pitchShift h]
    exact ⟨le_wrap32 _, wrap32_lt _⟩
  | robotize =>
    rw [binSynthesis_robotize h]
    norm_num
  | whisperize =>
    rw [binSynthesis_whisperize h]
    exact ⟨BitVec.le_toInt _, BitVec.toInt_lt⟩

/-- Outside Whisperize the synthesis phase does not depend on PRNG_STATE. -/
theorem binSynthesis_setPrngState {s : State} (h : s.cycMode ≠ .whisperize) (x : Word) (ch k : Nat) :
    binSynthesis ch k { s with prngState := x } = binSynthesis ch k s := by
  simp only [binSynthesis]
  cases hm : s.cycMode with
  | pitchShift => rfl
  | robotize => rfl
  | whisperize => exact absurd hm h

theorem pvBinEffect_setPrngState {s : State} (h : s.cycMode ≠ .whisperize) (x : Word) (ch k : Nat) :
    pvBinEffect ch k { s with prngState := x } = { pvBinEffect ch k s with prngState := x } := by
  simp only [pvBinEffect, binRe, binIm, binSynthesis_setPrngState h, binDraw_eq, if_neg h]
  rfl

/-- Settles O32: PV_BIN is the only leaf that uses the generator, and outside Whisperize neither its draw nor its
synthesis phase does. -/
theorem onlyWhisperizeDependsOnTheGenerator : Obligations.OnlyWhisperizeDependsOnTheGenerator := by
  intro l s x h
  cases l
  case pvBin ch k => exact ⟨pvBinEffect_setPrngState h x ch k, (binDraw_eq s).trans (if_neg h)⟩
  all_goals exact ⟨rfl, rfl⟩

/-! ### PV_BIN (R161 to R167) -/

theorem exec_pvBin_of_clear {s : State} {ch k : Nat} (hc : s.configured = true) (hch : ch < s.ch) (hk : k ≤ s.n / 2) :
    exec (.pvBin ch k) s = .next (pvBinEffect ch k s).complete :=
  leafCommand_of_clear (by simp [firstError_eq_none_iff, hc, hch, hk])

/-- A value of the word's range is read back as it was stored. -/
theorem Memory.getInt_putInt_same (m : Memory) (e : Elem) {x : Int} (hlo : -2 ^ 31 ≤ x) (hhi : x < 2 ^ 31) :
    (m.putInt e x).getInt e = x := by
  rw [Memory.getInt, Memory.get_putInt_same, BitVec.toInt_ofInt]
  exact wrap32_eq hlo hhi (by simp)

theorem Memory.getInt_putInt_ne (m : Memory) {e e' : Elem} (x : Int) (h : e.inMap = true) (h' : e'.inMap = true)
    (hne : e ≠ e') : (m.putInt e x).getInt e' = m.getInt e' :=
  m.getInt_putInt_apart x (Elem.apart_of_ne h h' hne)

theorem Memory.getInt_put_ne (m : Memory) {e e' : Elem} (v : Word) (h : e.inMap = true) (h' : e'.inMap = true)
    (hne : e ≠ e') : (m.put e v).getInt e' = m.getInt e' :=
  m.getInt_put_apart v (Elem.apart_of_ne h h' hne)

/-- A bin's row elements lie in the map (R57, R58, R73). -/
theorem State.synph_inMap {s : State} {ch k : Nat} (hch : ch < s.ch) (hk : k < s.n) :
    (Elem.synph ch k).inMap = true := by
  have := s.ch_lt
  have := s.n_le
  simp only [Elem.inMap, Bool.and_eq_true, decide_eq_true_eq]
  omega

theorem State.phprev_inMap {s : State} {ch k : Nat} (hch : ch < s.ch) (hk : k < s.n) :
    (Elem.phprev ch k).inMap = true := State.synph_inMap hch hk

theorem State.mag_inMap {s : State} {ch k : Nat} (hch : ch < s.ch) (hk : k < s.n) :
    (Elem.mag ch k).inMap = true := State.synph_inMap hch hk

theorem State.lt_n_of_le_half {s : State} {k : Nat} (hk : k ≤ s.n / 2) : k < s.n := by
  have := s.n_pos
  omega

/-- PV_BIN's five words are different elements, so that each is read back as it was stored. -/
theorem pvBinEffect_get {s : State} {ch k : Nat} (hch : ch < s.ch) (hk : k < s.n) :
    (pvBinEffect ch k s).mem.getInt (.synph ch k) = binSynthesis ch k s ∧
      (pvBinEffect ch k s).mem.get (.phprev ch k) = BitVec.ofInt 32 (binPhase k s.mem) ∧
      (pvBinEffect ch k s).mem.get (.mag ch k) = BitVec.ofNat 32 (binMagnitude k s.mem) ∧
      (pvBinEffect ch k s).mem.getInt (.scrRe k) = sat32 (binRe ch k s) ∧
      (pvBinEffect ch k s).mem.getInt (.scrIm k) = if k = 0 ∨ k = s.n / 2 then 0 else sat32 (binIm ch k s) := by
  have hsyn := State.synph_inMap hch hk
  have hprev := State.phprev_inMap hch hk
  have hmag := State.mag_inMap hch hk
  have hre := State.scrRe_inMap hk
  have him := State.scrIm_inMap hk
  obtain ⟨hlo, hhi⟩ := binSynthesis_bounds ch k s
  refine ⟨?_, ?_, Memory.get_put_same _ _ _, ?_, ?_⟩ <;> rw [pvBinEffect]
  · simp [Memory.getInt_put_ne, Memory.getInt_putInt_ne, hsyn, hprev, hmag, hre, him,
      Memory.getInt_putInt_same _ _ hlo hhi]
  · rw [Memory.get_put_ne _ _ hmag hprev (by simp), Memory.get_putInt_same]
  · simp [Memory.getInt_put_ne, Memory.getInt_putInt_ne, hprev, hmag, hre, him, Memory.getInt_putInt_sat32]
  · rw [Memory.getInt_put_ne _ _ hmag him (by simp), Memory.getInt_putInt_ne _ _ hprev him (by simp)]
    split_ifs
    · exact Memory.getInt_putInt_same _ _ (by norm_num) (by norm_num)
    · exact Memory.getInt_putInt_sat32 _ _ _

theorem pvBinEffect_readByte {s : State} {ch k a : Nat} (hsyn : ¬ (Elem.synph ch k).covers a)
    (hprev : ¬ (Elem.phprev ch k).covers a) (hmag : ¬ (Elem.mag ch k).covers a) (hre : ¬ (Elem.scrRe k).covers a)
    (him : ¬ (Elem.scrIm k).covers a) : (pvBinEffect ch k s).mem.readByte a = s.mem.readByte a := by
  rw [pvBinEffect, Memory.readByte_put_other _ _ hmag, Memory.readByte_putInt_other _ _ hprev,
    Memory.readByte_putInt_other _ _ him, Memory.readByte_putInt_other _ _ hre, Memory.readByte_putInt_other _ _ hsyn]

theorem pvBinEffect_satFlags (ch k : Nat) (s : State) :
    (pvBinEffect ch k s).satFlags =
      if clips (binRe ch k s) = true ∨ clips (binIm ch k s) = true then s.satFlags ||| satPv else s.satFlags := by
  simp only [pvBinEffect, State.flagSat_satFlags, Bool.or_eq_true]

/-- Settles O30: the statement's variables are the model's steps 1 to 5 on the state before the bin, `theta` by a case
split on the latched mode. -/
theorem pvBinRunsTheRecurrence : Obligations.PvBinRunsTheRecurrence := by
  rintro s ch k _ _ _ _ _ _ theta - hc hch hk rfl rfl rfl rfl rfl rfl hpitch hrobot hwhisper
  obtain rfl : theta = binSynthesis ch k s := by
    cases hm : s.cycMode with
    | pitchShift => exact (hpitch hm).trans (binSynthesis_pitchShift hm ch k).symm
    | robotize => exact (hrobot hm).trans (binSynthesis_robotize hm ch k).symm
    | whisperize => exact (hwhisper hm).trans (binSynthesis_whisperize hm ch k).symm
  obtain ⟨hsyn, hprev, hmag, hre, him⟩ := pvBinEffect_get hch (State.lt_n_of_le_half hk)
  refine ⟨(pvBinEffect ch k s).mem, (pvBinEffect ch k s).satFlags, ?_, hsyn, hprev, hmag, hre, him,
    pvBinEffect_satFlags ch k s, fun _ => pvBinEffect_readByte⟩
  rw [exec_pvBin_of_clear hc hch hk, ← binDraw_eq]
  rfl

/-! ### The engine with no outside event to come (R80, R220) -/

/-- Steps to a next state, and then the steps from it. -/
theorem run_add_of_next {M : Host.Core} {a : Nat} {s t : M.State} (h : M.run a s = .next t) (b : Nat) :
    M.run (a + b) s = M.run b t := by
  induction a generalizing s with
  | zero =>
    cases h
    rw [Nat.zero_add]
  | succ a ih =>
    rw [Nat.succ_add, Host.Core.run]
    rw [Host.Core.run] at h
    cases hs : M.step s with
    | next u =>
      rw [hs] at h
      exact ih h
    | fault r => rw [hs] at h; cases h
    | refused r => rw [hs] at h; cases h

theorem run_one_of_step {s t : State} (h : step s = .next t) : Host.Core.run Sys2Proof.core 1 s = .next t := by
  simp only [Host.Core.run]
  rw [show Sys2Proof.core.step s = .next t from h]

/-- One more step after those to a next state. -/
theorem run_succ_of_step {s t u : State} {a : Nat} (h : Host.Core.run Sys2Proof.core a s = .next t)
    (hs : step t = .next u) : Host.Core.run Sys2Proof.core (a + 1) s = .next u :=
  (run_add_of_next h 1).trans (run_one_of_step hs)

theorem step_of_no_event {s : State} (h : s.inbox = []) : step s = engineStep s := by
  rw [step, h]

theorem startCommand_of_ok {w : Word} {i : Instr} (h : decode w = .ok i) (s : State) : startCommand w s = exec i s := by
  rw [startCommand, h]

/-- A free engine with no outside event to come starts the well-formed command at the head of CMDQ. -/
theorem step_of_queued {s : State} {i : Instr} {rest : List Word} (hin : s.inbox = []) (hfree : s.running = none)
    (hlive : s.halted = false) (hq : s.cmdq = encode i :: rest) (hi : i.wellFormed = true) :
    step s = exec i { s with cmdq := rest } :=
  (step_of_no_event hin).trans
    ((engineStep_of_head hfree hlive hq).trans (startCommand_of_ok (decodeOfEncode i hi) _))

/-- No leaf reads or writes which command executes. -/
theorem Leaf.run_start (l : Leaf) (s : State) (w : Word) (p : Progress) :
    l.run (s.start w p) = (l.run s).start w p := by
  cases l <;> rfl

/-- Where a command goes next does not depend on what the state says executes. -/
theorem Progress.next_start (p : Progress) (s : State) (w : Word) (q : Progress) :
    p.next (s.start w q) = p.next s := rfl

theorem continueCommand_start (r : Running) (s : State) (w : Word) (q : Progress) :
    continueCommand r (s.start w q) = continueCommand r s := by
  simp only [continueCommand, Leaf.run_start, Progress.next_start]
  rfl

/-- With no outside event to come an executing command takes its next leaf. -/
theorem step_start {s : State} (h : s.inbox = []) (w : Word) (p : Progress) :
    step (s.start w p) = .next (continueCommand { word := w, progress := p } s) := by
  rw [step_of_no_event ((s.start_inbox w p).trans h), ← continueCommand_start _ s w p]
  rfl

/-! ### PV_ALL (R170) -/

theorem exec_pvAll_of_clear {s : State} {ch : Nat} (hc : s.configured = true) (hch : ch < s.ch) :
    exec (.pvAll ch) s = .next (s.start (encode (.pvAll ch)) (.pvAll ch 0)) :=
  compositeCommand_of_clear (by simp [firstError_eq_none_iff, hc, hch])

theorem continueCommand_pvAll (w : Word) (ch k : Nat) (s : State) :
    continueCommand { word := w, progress := .pvAll ch k } s =
      if k < s.n / 2 then (pvBinEffect ch k s).start w (.pvAll ch (k + 1)) else (pvBinEffect ch k s).complete := by
  have hn : (pvBinEffect ch k s).n = s.n := rfl
  simp only [continueCommand, Progress.leaf, Leaf.run, Progress.next, hn]
  split_ifs <;> rfl

/-- From PV_ALL's first leaf on state `s`, `k` steps bring the engine to the leaf of bin `k` on state `t`, with no
outside event to come and the same N. -/
structure PvAllReaches (s : State) (w : Word) (ch k : Nat) (t : State) : Prop where
  run : Host.Core.run Sys2Proof.core k (s.start w (.pvAll ch 0)) = .next (t.start w (.pvAll ch k))
  inbox : t.inbox = []
  n : t.n = s.n

theorem PvAllReaches.next {s t : State} {w : Word} {ch k : Nat} (h : PvAllReaches s w ch k t) (hk : k < s.n / 2) :
    PvAllReaches s w ch (k + 1) (pvBinEffect ch k t) := by
  refine ⟨run_succ_of_step h.run ?_, h.inbox, h.n⟩
  rw [step_start h.inbox, continueCommand_pvAll, h.n, if_pos hk]

theorem pvAllReaches_nyquist {s : State} (hin : s.inbox = []) (w : Word) (ch : Nat) :
    PvAllReaches s w ch (s.n / 2) (forRange (s.n / 2) (pvBinEffect ch) s) :=
  forRange_invariant (P := PvAllReaches s w ch) ⟨rfl, hin, rfl⟩ fun _ _ hk h => h.next hk

/-- From its first leaf PV_ALL takes N/2 + 1 steps: the last bin's leaf completes it. -/
theorem run_pvAll {s : State} (hin : s.inbox = []) (w : Word) (ch : Nat) :
    Host.Core.run Sys2Proof.core (s.n / 2 + 1) (s.start w (.pvAll ch 0)) = .next (pvAllEffect ch s).complete := by
  have h := pvAllReaches_nyquist hin w ch
  refine run_succ_of_step h.run ?_
  rw [step_start h.inbox, continueCommand_pvAll, h.n, if_neg (lt_irrefl _)]
  rfl

/-- Settles O41: the first step leaves PV_ALL at bin 0, and each further one is PV_BIN's effect on the next bin. -/
theorem pvAllRunsEveryBin : Obligations.PvAllRunsEveryBin := by
  intro s ch rest hinv hc hin hfree hlive hch hq
  obtain ⟨⟨⟨-, -, -, hchmax, -⟩, -⟩, hact, -⟩ := hinv
  obtain ⟨⟨-, -, -, hactive, -⟩, -⟩ := hact hc
  have hfits : (Instr.pvAll ch).wellFormed = true := decide_eq_true (hch.trans_le (hactive.trans hchmax))
  have hstart := (step_of_queued hin hfree hlive hq hfits).trans
    (exec_pvAll_of_clear (s := { s with cmdq := rest }) hc hch)
  have hbins := run_pvAll (s := { s with cmdq := rest }) hin (encode (.pvAll ch)) ch
  rw [show s.n / 2 + 2 = 1 + (s.n / 2 + 1) by omega]
  exact (run_add_of_next (run_one_of_step hstart) _).trans hbins

end Sys2Proof.Machine

/-! The transform (42_fft.md R180 to R188): what BITREV, BFLY and HERMIT write and what they leave as it was. -/

namespace Sys2Proof.Machine

/-! ### The bit reversal (R181) -/

theorem reverseBits_lt (width k : Nat) : reverseBits width k < 2 ^ width := by
  induction width generalizing k with
  | zero => exact Nat.one_pos
  | succ width ih =>
    have := ih (k / 2)
    rw [reverseBits, Nat.pow_succ]
    obtain h | h := Nat.mod_two_eq_zero_or_one k <;> rw [h] <;> omega

theorem testBit_reverseBits {width i : Nat} (k : Nat) (hi : i < width) :
    (reverseBits width k).testBit i = k.testBit (width - 1 - i) := by
  induction width generalizing k with
  | zero => omega
  | succ width ih =>
    rw [reverseBits, Nat.mul_comm, Nat.testBit_two_pow_mul_add _ (reverseBits_lt width (k / 2))]
    split_ifs with hlt
    · rw [ih _ hlt, ← Nat.testBit_succ]
      congr 1
      omega
    · obtain rfl : i = width := by omega
      simp [Nat.testBit_zero]

theorem reverseBits_reverseBits {width k : Nat} (hk : k < 2 ^ width) : reverseBits width (reverseBits width k) = k := by
  refine Nat.eq_of_testBit_eq fun i => ?_
  by_cases hi : i < width
  · rw [testBit_reverseBits _ hi, testBit_reverseBits _ (by omega)]
    congr 1
    omega
  · have hpow : 2 ^ width ≤ 2 ^ i := Nat.pow_le_pow_right Nat.two_pos (not_lt.mp hi)
    rw [Nat.testBit_lt_two_pow ((reverseBits_lt _ _).trans_le hpow), Nat.testBit_lt_two_pow (hk.trans_le hpow)]

/-- Settles O35: the lowest bit becomes the highest, and the others follow by induction on the width; a number below
`2^width` is determined by those bits. -/
theorem reverseBitsReversesAndIsAnInvolution : Obligations.ReverseBitsReversesAndIsAnInvolution := fun width k hk =>
  ⟨reverseBits_lt width k, reverseBits_reverseBits hk, fun _ => testBit_reverseBits k⟩

/-! ### BITREV (R181) -/

theorem exec_bitrev_of_clear {s : State} (hc : s.configured = true) :
    exec .bitrev s = .next (bitrevEffect s).complete :=
  leafCommand_of_clear (by simp [firstError_eq_none_iff, hc])

/-- A read after a write of an element of the map. -/
theorem Memory.get_put_eq_ite (m : Memory) {e e' : Elem} (v : Word) (h : e.inMap = true) (h' : e'.inMap = true) :
    (m.put e v).get e' = if e' = e then v else m.get e' := by
  split_ifs with heq
  · rw [heq, Memory.get_put_same]
  · exact m.get_put_ne v h h' (Ne.symm heq)

theorem Memory.swapScr_get (m : Memory) {j k i : Nat} (hj : (Elem.scrRe j).inMap = true)
    (hk : (Elem.scrRe k).inMap = true) (hi : (Elem.scrRe i).inMap = true) :
    (m.swapScr j k).get (.scrRe i) = m.get (.scrRe (Equiv.swap j k i)) ∧
      (m.swapScr j k).get (.scrIm i) = m.get (.scrIm (Equiv.swap j k i)) := by
  have hj' : (Elem.scrIm j).inMap = true := hj
  have hk' : (Elem.scrIm k).inMap = true := hk
  have hi' : (Elem.scrIm i).inMap = true := hi
  simp only [Memory.swapScr, Memory.get_put_eq_ite, hj, hk, hi, hj', hk', hi', Elem.scrRe.injEq, Elem.scrIm.injEq,
    reduceCtorEq, if_false, Equiv.swap_apply_def]
  constructor <;> split_ifs <;> simp_all

theorem Memory.swapScr_readByte (m : Memory) {j k a : Nat} (hj : ¬ (Elem.scrRe j).covers a ∧ ¬ (Elem.scrIm j).covers a)
    (hk : ¬ (Elem.scrRe k).covers a ∧ ¬ (Elem.scrIm k).covers a) : (m.swapScr j k).readByte a = m.readByte a := by
  rw [Memory.swapScr, Memory.readByte_put_other _ _ hk.2, Memory.readByte_put_other _ _ hk.1,
    Memory.readByte_put_other _ _ hj.2, Memory.readByte_put_other _ _ hj.1]

theorem State.reverseBits_lt_n (s : State) (k : Nat) : reverseBits s.actLog2n.toNat k < s.n := reverseBits_lt _ k

/-- Whose old contents element `i` holds after `k` turns of BITREV's loop: a pair has been exchanged in the turn of its
smaller index. -/
def bitrevSource (width k i : Nat) : Nat := if i < k ∨ reverseBits width i < k then reverseBits width i else i

theorem bitrevSource_zero (width i : Nat) : bitrevSource width 0 i = i := by simp [bitrevSource]

theorem bitrevSource_of_lt {width k i : Nat} (h : i < k) : bitrevSource width k i = reverseBits width i := by
  simp [bitrevSource, h]

/-- A turn that exchanges index `k` with a larger one: neither was exchanged before. -/
theorem bitrevSource_succ_of_lt {width k i : Nat} (hk : k < 2 ^ width) (hi : i < 2 ^ width)
    (hlt : k < reverseBits width k) :
    bitrevSource width (k + 1) i = bitrevSource width k (Equiv.swap k (reverseBits width k) i) := by
  have hkk := reverseBits_reverseBits hk
  rw [Equiv.swap_apply_def]
  split_ifs with hik hir
  · rw [hik, bitrevSource_of_lt (Nat.lt_succ_self k), bitrevSource, hkk, if_neg (by omega)]
  · rw [hir, bitrevSource, hkk, if_pos (.inr (Nat.lt_succ_self k)), bitrevSource, if_neg (by omega)]
  · have hne : reverseBits width i ≠ k := fun h => hir (by rw [← h, reverseBits_reverseBits hi])
    rw [bitrevSource, bitrevSource]
    congr 1
    exact propext (by omega)

/-- A turn that finds index `k` exchanged already, or its own reverse. -/
theorem bitrevSource_succ_of_ge {width k i : Nat} (hi : i < 2 ^ width) (hge : reverseBits width k ≤ k) :
    bitrevSource width (k + 1) i = bitrevSource width k i := by
  obtain rfl | hik := eq_or_ne i k
  · rw [bitrevSource_of_lt (Nat.lt_succ_self i), bitrevSource]
    split_ifs <;> omega
  · have hne : reverseBits width i = k → i < k := fun h => by
      rw [← h, reverseBits_reverseBits hi] at hge
      omega
    rw [bitrevSource, bitrevSource]
    congr 1
    exact propext (by omega)

/-- What the first `k` turns of the loop of R181 have done. -/
structure BitrevDone (s : State) (k : Nat) (m : Memory) : Prop where
  re : ∀ i < s.n, m.get (.scrRe i) = s.mem.get (.scrRe (bitrevSource s.actLog2n.toNat k i))
  im : ∀ i < s.n, m.get (.scrIm i) = s.mem.get (.scrIm (bitrevSource s.actLog2n.toNat k i))
  frame : ∀ a, (∀ i < s.n, ¬ (Elem.scrRe i).covers a ∧ ¬ (Elem.scrIm i).covers a) → m.readByte a = s.mem.readByte a

theorem BitrevDone.zero (s : State) : BitrevDone s 0 s.mem :=
  ⟨fun _ _ => by rw [bitrevSource_zero], fun _ _ => by rw [bitrevSource_zero], fun _ _ => rfl⟩

theorem State.swap_lt_n (s : State) {k i : Nat} (hk : k < s.n) (hi : i < s.n) :
    Equiv.swap k (reverseBits s.actLog2n.toNat k) i < s.n := by
  have := s.reverseBits_lt_n k
  rw [Equiv.swap_apply_def]
  split_ifs <;> assumption

theorem BitrevDone.next {s : State} {k : Nat} {m : Memory} (h : BitrevDone s k m) (hk : k < s.n) :
    BitrevDone s (k + 1)
      (if k < reverseBits s.actLog2n.toNat k then m.swapScr k (reverseBits s.actLog2n.toNat k) else m) := by
  obtain ⟨hre, him, hframe⟩ := h
  have hrev := s.reverseBits_lt_n k
  split_ifs with hlt
  · have hswap := fun i (hi : i < s.n) =>
      m.swapScr_get (State.scrRe_inMap hk) (State.scrRe_inMap hrev) (State.scrRe_inMap hi)
    refine ⟨fun i hi => ?_, fun i hi => ?_, fun a ha => ?_⟩
    · rw [(hswap i hi).1, hre _ (s.swap_lt_n hk hi), bitrevSource_succ_of_lt hk hi hlt]
    · rw [(hswap i hi).2, him _ (s.swap_lt_n hk hi), bitrevSource_succ_of_lt hk hi hlt]
    · exact (m.swapScr_readByte (ha k hk) (ha _ hrev)).trans (hframe a ha)
  · have hsame := fun i hi => bitrevSource_succ_of_ge (width := s.actLog2n.toNat) (i := i) hi (not_lt.mp hlt)
    exact ⟨fun i hi => by rw [hre i hi, hsame i hi], fun i hi => by rw [him i hi, hsame i hi], hframe⟩

theorem bitrevEffect_done (s : State) : BitrevDone s s.n (bitrevEffect s).mem :=
  forRange_invariant (P := BitrevDone s) (.zero s) fun _ _ hk h => h.next hk

/-- Settles O34: after the loop every element holds the old contents of its reverse, and reversal is an involution. -/
theorem bitrevPermutesTheScratch : Obligations.BitrevPermutesTheScratch := by
  intro s hc
  obtain ⟨hre, him, hframe⟩ := bitrevEffect_done s
  refine ⟨(bitrevEffect s).mem, exec_bitrev_of_clear hc, fun k hk => ?_, hframe⟩
  have hrev := s.reverseBits_lt_n k
  rw [hre _ hrev, him _ hrev, bitrevSource_of_lt hrev, reverseBits_reverseBits hk]
  exact ⟨rfl, rfl⟩

/-! ### BFLY (R182, R183) -/

theorem exec_bfly_of_clear {s : State} {dir : Dir} {st p : Nat} (hc : s.configured = true) (h1 : 1 ≤ st)
    (hl : st ≤ s.actLog2n.toNat) (hp : p < s.n) (hbit : p.testBit (st - 1) = false) :
    exec (.bfly dir st p) s = .next (bflyEffect dir st p s).complete :=
  leafCommand_of_clear (by simp [firstError_eq_none_iff, hc, h1, hl, hp, hbit])

/-- Setting a clear bit keeps a number within its width. -/
theorem add_two_pow_lt {b l p : Nat} (hb : b < l) (hp : p < 2 ^ l) (hbit : p.testBit b = false) :
    p + 2 ^ b < 2 ^ l := by
  obtain ⟨d, rfl⟩ := Nat.exists_eq_add_of_lt hb
  have hpow : 2 ^ (b + d + 1) = 2 * 2 ^ d * 2 ^ b := by ring
  rw [hpow] at hp ⊢
  rw [← Nat.div_lt_iff_lt_mul (Nat.two_pow_pos b)] at hp ⊢
  rw [Nat.testBit_eq_decide_div_mod_eq, decide_eq_false_iff_not] at hbit
  rw [Nat.add_div_right _ (Nat.two_pow_pos b)]
  omega

/-- The lower index of a butterfly is one of the transform's. -/
theorem State.add_halfSpan_lt_n {s : State} {st p : Nat} (h1 : 1 ≤ st) (hl : st ≤ s.actLog2n.toNat) (hp : p < s.n)
    (hbit : p.testBit (st - 1) = false) : p + halfSpan st < s.n :=
  add_two_pow_lt (by omega) hp hbit

/-- The four results of a butterfly before saturation, in the order of its stores. -/
def bflyOutput (b : Build) (dir : Dir) (st p : Nat) (m : Memory) : Fin 4 → Int :=
  ![(bflyOutputs b dir st p m).1, (bflyOutputs b dir st p m).2.1, (bflyOutputs b dir st p m).2.2.1,
    (bflyOutputs b dir st p m).2.2.2]

/-- The four words of a butterfly are different elements, so that each is read back as it was stored. -/
theorem bflyEffect_get {dir : Dir} {st p : Nat} {s : State} (hp : p < s.n) (hq : p + halfSpan st < s.n) :
    (bflyEffect dir st p s).mem.getInt (.scrRe p) = sat32 (bflyOutput s.build dir st p s.mem 0) ∧
      (bflyEffect dir st p s).mem.getInt (.scrIm p) = sat32 (bflyOutput s.build dir st p s.mem 1) ∧
      (bflyEffect dir st p s).mem.getInt (.scrRe (p + halfSpan st)) = sat32 (bflyOutput s.build dir st p s.mem 2) ∧
      (bflyEffect dir st p s).mem.getInt (.scrIm (p + halfSpan st)) = sat32 (bflyOutput s.build dir st p s.mem 3) := by
  have hspan : halfSpan st ≠ 0 := (Nat.two_pow_pos _).ne'
  have hpre := State.scrRe_inMap hp
  have hpim := State.scrIm_inMap hp
  have hqre := State.scrRe_inMap hq
  have hqim := State.scrIm_inMap hq
  simp [bflyEffect, bflyOutput, Memory.getInt_putInt_ne, Memory.getInt_putInt_sat32, hpre, hpim, hqre, hqim, hspan]

theorem bflyEffect_readByte {dir : Dir} {st p a : Nat} {s : State} (hpre : ¬ (Elem.scrRe p).covers a)
    (hpim : ¬ (Elem.scrIm p).covers a) (hqre : ¬ (Elem.scrRe (p + halfSpan st)).covers a)
    (hqim : ¬ (Elem.scrIm (p + halfSpan st)).covers a) : (bflyEffect dir st p s).mem.readByte a = s.mem.readByte a := by
  rw [bflyEffect, State.flagSat_mem, State.setMem_mem, Memory.readByte_putInt_other _ _ hqim,
    Memory.readByte_putInt_other _ _ hqre, Memory.readByte_putInt_other _ _ hpim, Memory.readByte_putInt_other _ _ hpre]

theorem bflyEffect_satFlags (dir : Dir) (st p : Nat) (s : State) :
    (bflyEffect dir st p s).satFlags =
      if ∃ j, clips (bflyOutput s.build dir st p s.mem j) = true then s.satFlags ||| satFft else s.satFlags := by
  simp [bflyEffect, bflyOutput, Fin.exists_fin_succ, or_assoc]

/-- Settles O36: the statement's variables are the model's on the state before the butterfly, the four results by a case
split on the direction. -/
theorem bflyComputesOneButterfly : Obligations.BflyComputesOneButterfly := by
  rintro s dir st p _ _ _ _ wi _ _ _ _ _ _ o hc h1 hl hp hbit rfl rfl rfl rfl hwi rfl rfl rfl rfl rfl rfl hforward
    hinverse
  obtain rfl : wi = bflyWi s.build dir st p := by cases dir <;> exact hwi
  obtain rfl : o = bflyOutput s.build dir st p s.mem := by
    funext j
    cases dir with
    | forward =>
      obtain ⟨ho0, ho1, ho2, ho3⟩ := hforward rfl
      fin_cases j <;> assumption
    | inverse =>
      obtain ⟨ho0, ho1, ho2, ho3⟩ := hinverse rfl
      fin_cases j <;> assumption
  have hq := State.add_halfSpan_lt_n h1 hl hp hbit
  obtain ⟨hpre, hpim, hqre, hqim⟩ := bflyEffect_get (dir := dir) hp hq
  refine ⟨(bflyEffect dir st p s).mem, (bflyEffect dir st p s).satFlags, exec_bfly_of_clear hc h1 hl hp hbit, hq, hpre,
    hpim, hqre, hqim, fun hclip => ?_, fun hfit => ?_, fun a => bflyEffect_readByte⟩
  · rw [bflyEffect_satFlags, if_pos hclip, satFft]
  · rw [bflyEffect_satFlags, if_neg (by simp [hfit])]

/-! ### HERMIT (R188) -/

theorem exec_hermit_of_clear {s : State} (hc : s.configured = true) :
    exec .hermit s = .next (hermitEffect s).complete :=
  leafCommand_of_clear (by simp [firstError_eq_none_iff, hc])

theorem Memory.getInt_bounds (m : Memory) (e : Elem) : -2 ^ 31 ≤ m.getInt e ∧ m.getInt e < 2 ^ 31 :=
  ⟨BitVec.le_toInt _, BitVec.toInt_lt⟩

/-- The negation of a word clips only above, and only that of `-2^31`. -/
theorem sat32_neg_getInt (m : Memory) (e : Elem) : sat32 (-m.getInt e) = min (-m.getInt e) (2 ^ 31 - 1) := by
  have := m.getInt_bounds e
  rw [sat32_eq_clamp]
  omega

theorem clips_neg_getInt_iff (m : Memory) (e : Elem) : clips (-m.getInt e) = true ↔ m.getInt e = -2 ^ 31 := by
  have := m.getInt_bounds e
  rw [clips_eq_true_iff]
  omega

/-- What the first `j` turns of the loop of R188 have done: bin `N - (i + 1)` holds the conjugate of the old bin `i + 1`
for `i < j`, the flag says whether any of those negations clipped, and every other byte is as before. -/
structure HermitDone (s : State) (j : Nat) (r : Memory × Bool) : Prop where
  re : ∀ i < j, r.1.get (.scrRe (s.n - (i + 1))) = s.mem.get (.scrRe (i + 1))
  im : ∀ i < j, r.1.getInt (.scrIm (s.n - (i + 1))) = sat32 (-s.mem.getInt (.scrIm (i + 1)))
  clipped : r.2 = true ↔ ∃ i < j, clips (-s.mem.getInt (.scrIm (i + 1))) = true
  frame : ∀ a, (∀ i < j, ¬ (Elem.scrRe (s.n - (i + 1))).covers a ∧ ¬ (Elem.scrIm (s.n - (i + 1))).covers a) →
    r.1.readByte a = s.mem.readByte a

theorem State.mirrorRe_inMap (s : State) (i : Nat) : (Elem.scrRe (s.n - (i + 1))).inMap = true :=
  State.scrRe_inMap (Nat.sub_lt s.n_pos i.succ_pos)

theorem State.mirrorIm_inMap (s : State) (i : Nat) : (Elem.scrIm (s.n - (i + 1))).inMap = true := s.mirrorRe_inMap i

/-- The turns so far have written no bin below N/2. -/
theorem HermitDone.get_lower {s : State} {j k : Nat} {r : Memory × Bool} (h : HermitDone s j r) (hj : j < s.n / 2)
    (hk : k < s.n / 2) :
    r.1.get (.scrRe k) = s.mem.get (.scrRe k) ∧ r.1.getInt (.scrIm k) = s.mem.getInt (.scrIm k) := by
  have hkn : k < s.n := State.lt_n_of_le_half hk.le
  have hkeep : ∀ e : Elem, e.inMap = true → (∀ i ≠ k, Elem.scrRe i ≠ e ∧ Elem.scrIm i ≠ e) →
      r.1.get e = s.mem.get e := fun e he hne =>
    Memory.get_congr fun a ha => h.frame a fun i hi =>
      have hik := hne (s.n - (i + 1)) (by omega)
      ⟨Elem.not_covers_of_ne (s.mirrorRe_inMap i) he hik.1 ha, Elem.not_covers_of_ne (s.mirrorIm_inMap i) he hik.2 ha⟩
  exact ⟨hkeep _ (State.scrRe_inMap hkn) (by simp), congrArg BitVec.toInt (hkeep _ (State.scrIm_inMap hkn) (by simp))⟩

theorem HermitDone.next {s : State} {j : Nat} {r : Memory × Bool} (h : HermitDone s j r) (hj : j < s.n / 2 - 1) :
    HermitDone s (j + 1)
      ((r.1.put (.scrRe (s.n - (j + 1))) (r.1.get (.scrRe (j + 1)))).putInt (.scrIm (s.n - (j + 1)))
        (sat32 (-r.1.getInt (.scrIm (j + 1)))), r.2 || clips (-r.1.getInt (.scrIm (j + 1)))) := by
  obtain ⟨hlowre, hlowim⟩ := h.get_lower (k := j + 1) (by omega) (by omega)
  rw [hlowre, hlowim]
  have hne : ∀ i < j, s.n - (j + 1) ≠ s.n - (i + 1) := fun i hi => by omega
  refine ⟨fun i hi => ?_, fun i hi => ?_, ?_, fun a ha => ?_⟩
  · rw [Memory.get_putInt_apart _ _ (Elem.apart_of_ne (s.mirrorIm_inMap j) (s.mirrorRe_inMap i) (by simp))]
    obtain hlt | rfl := Nat.lt_succ_iff_lt_or_eq.mp hi
    · rw [Memory.get_put_ne _ _ (s.mirrorRe_inMap j) (s.mirrorRe_inMap i) (mt Elem.scrRe.inj (hne i hlt))]
      exact h.re i hlt
    · exact Memory.get_put_same _ _ _
  · obtain hlt | rfl := Nat.lt_succ_iff_lt_or_eq.mp hi
    · rw [Memory.getInt_putInt_ne _ _ (s.mirrorIm_inMap j) (s.mirrorIm_inMap i) (mt Elem.scrIm.inj (hne i hlt)),
        Memory.getInt_put_ne _ _ (s.mirrorRe_inMap j) (s.mirrorIm_inMap i) (by simp)]
      exact h.im i hlt
    · exact Memory.getInt_putInt_sat32 _ _ _
  · rw [Bool.or_eq_true, h.clipped, Nat.exists_lt_succ_right]
  · obtain ⟨hre, him⟩ := ha j (Nat.lt_succ_self j)
    rw [Memory.readByte_putInt_other _ _ him, Memory.readByte_put_other _ _ hre]
    exact h.frame a fun i hi => ha i (Nat.lt_succ_of_lt hi)

theorem hermitLoop_done (s : State) : HermitDone s (s.n / 2 - 1) (hermitLoop s) :=
  forRange_invariant (P := HermitDone s) ⟨by simp, by simp, by simp, fun _ _ => rfl⟩ fun _ _ hj h => h.next hj

/-- The bins from 1 to N/2 - 1 are those the turns `i` of the loop read. -/
theorem State.forall_bin_iff (s : State) {P : Nat → Prop} :
    (∀ k, 1 ≤ k → k < s.n / 2 → P k) ↔ ∀ i < s.n / 2 - 1, P (i + 1) := by
  refine ⟨fun h i hi => h (i + 1) i.succ_pos (by omega), fun h k h1 hk => ?_⟩
  obtain ⟨i, rfl⟩ := Nat.exists_eq_add_of_le' h1
  exact h i (by omega)

theorem hermitLoop_clipped_iff (s : State) :
    (hermitLoop s).2 = true ↔ ∃ k, 1 ≤ k ∧ k < s.n / 2 ∧ s.mem.getInt (.scrIm k) = -2 ^ 31 := by
  rw [(hermitLoop_done s).clipped, ← not_iff_not]
  simp only [clips_neg_getInt_iff]
  push Not
  exact (s.forall_bin_iff (P := fun k => s.mem.getInt (.scrIm k) ≠ -2 ^ 31)).symm

/-- Settles O37: the loop reads the bins below N/2 and writes those above. -/
theorem hermitCompletesTheSpectrum : Obligations.HermitCompletesTheSpectrum := by
  intro s hc
  obtain ⟨hre, him, -, hframe⟩ := hermitLoop_done s
  refine ⟨(hermitLoop s).1, if (hermitLoop s).2 then s.satFlags ||| satFft else s.satFlags, exec_hermit_of_clear hc,
    s.forall_bin_iff.mpr fun i hi => ⟨hre i hi, (him i hi).trans (sat32_neg_getInt _ _)⟩,
    fun h => if_pos ((hermitLoop_clipped_iff s).mpr h), fun h => if_neg ?_,
    fun a ha => hframe a (s.forall_bin_iff.mp ha)⟩
  rw [hermitLoop_clipped_iff]
  exact fun ⟨k, h1, hk, hmin⟩ => h k h1 hk hmin

end Sys2Proof.Machine

/-! The transform as the engine runs it (42_fft.md R185, R186, 44_sequencer.md R220): the order of a stage's
butterflies, a stage as the engine's steps through it, and the stages of a transform one after the other. -/

namespace Sys2Proof.Machine

/-! ### Runs of the engine (R220) -/

/-- Some number of steps brings the machine from `s` to `t`. -/
def State.Reaches (s t : State) : Prop := ∃ steps, Host.Core.run Sys2Proof.core steps s = .next t

theorem State.Reaches.refl (s : State) : s.Reaches s := ⟨0, rfl⟩

theorem State.Reaches.trans {s t u : State} (h : s.Reaches t) (h' : t.Reaches u) : s.Reaches u := by
  obtain ⟨a, ha⟩ := h
  obtain ⟨b, hb⟩ := h'
  exact ⟨a + b, (run_add_of_next ha b).trans hb⟩

theorem State.Reaches.of_step {s t : State} (h : step s = .next t) : s.Reaches t := ⟨1, run_one_of_step h⟩

/-- The engine takes the head of CMDQ to the first leaf of its composite command. -/
theorem State.Reaches.of_queued {s : State} {i : Instr} {rest : List Word} {t : State} (hin : s.inbox = [])
    (hfree : s.running = none) (hlive : s.halted = false) (hq : s.cmdq = encode i :: rest) (hi : i.wellFormed = true)
    (hexec : exec i { s with cmdq := rest } = .next t) : s.Reaches t :=
  .of_step ((step_of_queued hin hfree hlive hq hi).trans hexec)

/-- Where an executing command goes from state `t`: to its next leaf, or past its leaves. -/
def State.goOn (t : State) (w : Word) (past : State → State) : Option Progress → State
  | some p => t.start w p
  | none => past t

/-- A command's leaf, then the command's next one or its completion. -/
theorem continueCommand_eq_goOn (w : Word) (p : Progress) (t : State) :
    continueCommand { word := w, progress := p } t =
      (p.leaf.run t).goOn w State.complete (p.next (p.leaf.run t)) := by
  rw [continueCommand]
  cases p.next (p.leaf.run t) <;> rfl

/-! ### The butterflies of a stage, in order (R185) -/

/-- The index of the butterfly after `p` in stage `st`, whether or not it is below N. -/
def upperAfter (st p : Nat) : Nat := if (p + 1).testBit (st - 1) then p + 1 + halfSpan st else p + 1

/-- Index `u`, if it is below N. -/
def State.indexBelowN (s : State) (u : Nat) : Option Nat := if u < s.n then some u else none

theorem State.nextUpper_eq_indexBelowN (s : State) (st p : Nat) :
    s.nextUpper st p = s.indexBelowN (upperAfter st p) := rfl

/-- `u` is the first index from `k` on whose bit `st - 1` is 0. -/
structure FirstUpper (st k u : Nat) : Prop where
  le : k ≤ u
  upper : u.testBit (st - 1) = false
  lower : ∀ j, k ≤ j → j < u → j.testBit (st - 1) = true

theorem FirstUpper.zero (st : Nat) : FirstUpper st 0 0 :=
  ⟨le_rfl, Nat.zero_testBit _, fun _ _ h => absurd h (Nat.not_lt_zero _)⟩

/-- From an index whose bit is 1 the first upper index lies further on. -/
theorem FirstUpper.skip {st k u : Nat} (h : FirstUpper st k u) (hk : k.testBit (st - 1) = true) :
    FirstUpper st (k + 1) u := by
  have hne : k ≠ u := fun hku => by simp [hku, h.upper] at hk
  exact ⟨h.le.lt_of_ne hne, h.upper, fun j hj => h.lower j (Nat.le_of_succ_le hj)⟩

theorem FirstUpper.eq_self {st k u : Nat} (h : FirstUpper st k u) (hk : k.testBit (st - 1) = false) : u = k := by
  by_contra hne
  simpa [hk] using h.lower k le_rfl (h.le.lt_of_ne (Ne.symm hne))

/-- Where counting up sets bit `b`, the bits below it are 0, and it stays set for the `2^b` numbers from there on. -/
theorem testBit_of_succ_of_lt {b k j : Nat} (hk : k.testBit b = false) (hsucc : (k + 1).testBit b = true)
    (hle : k + 1 ≤ j) (hlt : j < k + 1 + 2 ^ b) : j.testBit b = true := by
  have hdvd : 2 ^ b ∣ k + 1 := by
    by_contra hndvd
    rw [Nat.testBit_eq_decide_div_mod_eq, Nat.succ_div_of_not_dvd hndvd, ← Nat.testBit_eq_decide_div_mod_eq,
      hk] at hsucc
    cases hsucc
  obtain ⟨c, hc⟩ := hdvd
  obtain ⟨d, rfl⟩ := Nat.exists_eq_add_of_le hle
  have hd : d < 2 ^ b := by omega
  rw [hc, Nat.testBit_two_pow_mul_add _ hd, if_neg (lt_irrefl b), ← hsucc, hc, Nat.testBit_two_pow_mul]
  simp

/-- After an upper index the indices with bit 1, if any, are the `halfSpan` next ones. -/
theorem FirstUpper.upperAfter {st k : Nat} (hk : k.testBit (st - 1) = false) :
    FirstUpper st (k + 1) (upperAfter st k) := by
  rw [Machine.upperAfter]
  split_ifs with hbit
  · refine ⟨Nat.le_add_right _ _, ?_, fun j hj hlt => ?_⟩
    · rw [halfSpan, Nat.add_comm, Nat.testBit_two_pow_add_eq, hbit]
      rfl
    · exact testBit_of_succ_of_lt hk hbit hj hlt
  · exact ⟨le_rfl, Bool.eq_false_iff.mpr hbit, fun j hj hlt => absurd hlt (by omega)⟩

/-! ### The engine through one stage (R185) -/

/-- One turn of R185's loop. -/
def stageTurn (dir : Dir) (st p : Nat) (t : State) : State := if p.testBit (st - 1) then t else bflyEffect dir st p t

theorem stageEffect_eq_forRange (dir : Dir) (st : Nat) (s : State) :
    stageEffect dir st s = forRange s.n (stageTurn dir st) s := rfl

/-- A stage changes neither the schedule nor the active configuration. -/
theorem stageEffect_frame (dir : Dir) (st : Nat) (s : State) :
    (stageEffect dir st s).inbox = s.inbox ∧ (stageEffect dir st s).actLog2n = s.actLog2n :=
  forRange_keeps (P := fun t : State => t.inbox = s.inbox ∧ t.actLog2n = s.actLog2n) ⟨rfl, rfl⟩ fun p t _ h => by
    split_ifs <;> exact h

/-- The stage's leaf at index `p` is `leafAt p`. From its first leaf on state `s`, the engine comes to the first
butterfly from index `k` on, or past the stage, on state `t`, with no outside event to come and the same N. -/
structure StageReaches (s : State) (w : Word) (leafAt : Nat → Progress) (past : State → State) (st k : Nat)
    (t : State) : Prop where
  inbox : t.inbox = []
  n : t.n = s.n
  run : ∃ u, FirstUpper st k u ∧ (s.start w (leafAt 0)).Reaches (t.goOn w past ((t.indexBelowN u).map leafAt))

section
variable {s : State} {w : Word} {leafAt : Nat → Progress} {past : State → State} {dir : Dir} {st : Nat}
  (hleaf : ∀ p t, continueCommand { word := w, progress := leafAt p } t =
    (bflyEffect dir st p t).goOn w past (((bflyEffect dir st p t).nextUpper st p).map leafAt))
include hleaf

/-- A turn at an upper index is one step; any other leaves the engine where it stands. -/
theorem StageReaches.next {t : State} {k : Nat} (h : StageReaches s w leafAt past st k t) (hk : k < s.n) :
    StageReaches s w leafAt past st (k + 1) (stageTurn dir st k t) := by
  obtain ⟨hin, hn, u, hu, hrun⟩ := h
  rw [stageTurn]
  split_ifs with hbit
  · exact ⟨hin, hn, u, hu.skip hbit, hrun⟩
  · have hupper : k.testBit (st - 1) = false := Bool.eq_false_iff.mpr hbit
    obtain rfl := hu.eq_self hupper
    rw [State.indexBelowN, hn, if_pos hk] at hrun
    refine ⟨hin, hn, _, .upperAfter hupper, hrun.trans (.of_step ((step_start hin w _).trans ?_))⟩
    rw [hleaf, State.nextUpper_eq_indexBelowN]

/-- Past the last index there is no further butterfly. -/
theorem reaches_past_stage (hin : s.inbox = []) : (s.start w (leafAt 0)).Reaches (past (stageEffect dir st s)) := by
  have hstart : StageReaches s w leafAt past st 0 s :=
    ⟨hin, rfl, 0, .zero st, by rw [State.indexBelowN, if_pos s.n_pos]; exact .refl _⟩
  obtain ⟨-, hn, u, hu, hrun⟩ := forRange_invariant (P := StageReaches s w leafAt past st) hstart
    fun _ _ hk h => h.next hleaf hk
  rw [← stageEffect_eq_forRange] at hn hrun
  rwa [State.indexBelowN, hn, if_neg hu.le.not_gt] at hrun

end

/-! ### The engine through a transform (R186) -/

/-- The leaf that opens the stage after stage `st`, if there is one. -/
def State.nextStage (s : State) (st : Nat) : Option FftAt :=
  if st < s.actLog2n.toNat then some (.bfly (st + 1) 0) else none

theorem FftAt.next_bitrev (s : State) : FftAt.bitrev.next s = s.nextStage 0 := rfl

/-- Where the engine stands after stage `st` of a transform, or after its BITREV if `st` is 0. -/
def State.pastStage (t : State) (w : Word) (leafAt : FftAt → Progress) (past : State → State) (st : Nat) : State :=
  t.goOn w past ((t.nextStage st).map leafAt)

/-- A butterfly is followed by its stage's next, or else by what follows the stage. -/
theorem State.goOn_next_bfly (t : State) (w : Word) (leafAt : FftAt → Progress) (past : State → State) (st p : Nat) :
    t.goOn w past (((FftAt.bfly st p).next t).map leafAt) =
      t.goOn w (fun t => t.pastStage w leafAt past st) ((t.nextUpper st p).map fun p => leafAt (.bfly st p)) := by
  rw [FftAt.next]
  cases t.nextUpper st p <;> rfl

/-- From a transform's first leaf on state `s`, the engine comes past BITREV and `j` stages, on state `t`, with no
outside event to come and the same active configuration. -/
structure FftReaches (s : State) (w : Word) (leafAt : FftAt → Progress) (past : State → State) (j : Nat) (t : State) :
    Prop where
  inbox : t.inbox = []
  actLog2n : t.actLog2n = s.actLog2n
  run : (s.start w (leafAt .bitrev)).Reaches (t.pastStage w leafAt past j)

section
variable {s : State} {w : Word} {leafAt : FftAt → Progress} {past : State → State} {dir : Dir}
  (hleaf : ∀ f t, continueCommand { word := w, progress := leafAt f } t =
    ((f.leaf dir).run t).goOn w past ((f.next ((f.leaf dir).run t)).map leafAt))
include hleaf

theorem FftReaches.bitrev (hin : s.inbox = []) : FftReaches s w leafAt past 0 (bitrevEffect s) := by
  refine ⟨hin, rfl, .of_step ((step_start hin w _).trans ?_)⟩
  rw [hleaf, FftAt.next_bitrev]
  rfl

theorem FftReaches.next {t : State} {j : Nat} (h : FftReaches s w leafAt past j t) (hj : j < s.actLog2n.toNat) :
    FftReaches s w leafAt past (j + 1) (stageEffect dir (j + 1) t) := by
  obtain ⟨hin, hl, hrun⟩ := h
  obtain ⟨hin', hl'⟩ := stageEffect_frame dir (j + 1) t
  rw [State.pastStage, State.nextStage, hl, if_pos hj] at hrun
  refine ⟨hin'.trans hin, hl'.trans hl, hrun.trans (reaches_past_stage (leafAt := fun p => leafAt (.bfly (j + 1) p))
    (past := fun t => t.pastStage w leafAt past (j + 1)) (fun p t => ?_) hin)⟩
  rw [hleaf, State.goOn_next_bfly]
  rfl

/-- After the last stage there is no further leaf. -/
theorem reaches_past_fft (hin : s.inbox = []) : (s.start w (leafAt .bitrev)).Reaches (past (fftEffect dir s)) := by
  have h : FftReaches s w leafAt past s.actLog2n.toNat (fftEffect dir s) :=
    forRange_invariant (P := FftReaches s w leafAt past) (.bitrev hleaf hin) fun _ _ hj h => h.next hleaf hj
  obtain ⟨-, hl, hrun⟩ := h
  rwa [State.pastStage, State.nextStage, hl, if_neg (lt_irrefl _)] at hrun

end

/-! ### FFT_STAGE and FFT (R185, R186) -/

theorem exec_fftStage_of_clear {s : State} {dir : Dir} {st : Nat} (hc : s.configured = true) (h1 : 1 ≤ st)
    (hl : st ≤ s.actLog2n.toNat) :
    exec (.fftStage dir st) s = .next (s.start (encode (.fftStage dir st)) (.stage dir st 0)) :=
  compositeCommand_of_clear (by simp [firstError_eq_none_iff, hc, h1, hl])

theorem exec_fft_of_clear {s : State} {dir : Dir} (hc : s.configured = true) :
    exec (.fft dir) s = .next (s.start (encode (.fft dir)) (.fft dir .bitrev)) :=
  compositeCommand_of_clear (by simp [firstError_eq_none_iff, hc])

/-- Settles O40: the first step leaves the command at its first leaf; then a stage is run by its loop's invariant, and a
transform stage by stage. -/
theorem transformsRunTheirLoops : Obligations.TransformsRunTheirLoops := by
  intro s dir rest _ hc hin hfree hlive
  refine ⟨fun st h1 hl hq => ?_, fun hq => ?_⟩
  · have hfits : (Instr.fftStage dir st).wellFormed = true := decide_eq_true (hl.trans_lt s.actLog2n.isLt)
    exact (State.Reaches.of_queued hin hfree hlive hq hfits (exec_fftStage_of_clear hc h1 hl)).trans
      (reaches_past_stage (fun _ _ => continueCommand_eq_goOn _ _ _) hin)
  · exact (State.Reaches.of_queued hin hfree hlive hq rfl (exec_fft_of_clear hc)).trans
      (reaches_past_fft (fun _ _ => continueCommand_eq_goOn _ _ _) hin)

end Sys2Proof.Machine

/-! The resampler (43_resample.md R201 to R203): what WINDOW and RESAMPLE write and what they leave as it was. -/

namespace Sys2Proof.Machine

/-! ### WINDOW (R201) -/

theorem exec_window_of_clear {s : State} (hc : s.configured = true) :
    exec .window s = .next (windowEffect s).complete :=
  leafCommand_of_clear (by simp [firstError_eq_none_iff, hc])

/-- The windowed real part of sample `k`. -/
def windowedSample (k : Nat) (m : Memory) : Int := rshr (m.getInt (.scrRe k) * ((m.get (.win k)).toNat : Int)) 24

/-- One turn of R201's loop. -/
def windowTurn (k : Nat) (m : Memory) : Memory := (m.putInt (.scrRe k) (windowedSample k m)).putInt (.scrIm k) 0

theorem windowEffect_mem (s : State) : (windowEffect s).mem = forRange s.n windowTurn s.mem := rfl

theorem windowTurn_get_scrRe (s : State) {k : Nat} (hk : k < s.n) (m : Memory) :
    (windowTurn k m).get (.scrRe k) = BitVec.ofInt 32 (windowedSample k m) :=
  (Memory.get_put_ne _ _ (State.scrIm_inMap hk) (State.scrRe_inMap hk) (by simp)).trans (Memory.get_putInt_same _ _ _)

theorem windowTurn_get_scrIm (k : Nat) (m : Memory) : (windowTurn k m).get (.scrIm k) = 0#32 :=
  Memory.get_putInt_same _ _ _

theorem windowTurn_get_ne (s : State) {k : Nat} (hk : k < s.n) (m : Memory) {e : Elem} (he : e.inMap = true)
    (hre : .scrRe k ≠ e) (him : .scrIm k ≠ e) : (windowTurn k m).get e = m.get e :=
  m.get_put_put_ne _ _ (State.scrRe_inMap hk) (State.scrIm_inMap hk) he hre him

theorem windowTurn_readByte {k a : Nat} (m : Memory) (hre : ¬ (Elem.scrRe k).covers a)
    (him : ¬ (Elem.scrIm k).covers a) : (windowTurn k m).readByte a = m.readByte a :=
  (Memory.readByte_putInt_other _ _ him).trans (Memory.readByte_putInt_other _ _ hre)

/-- The turns before `k` have written neither sample `k` nor the window. -/
theorem windowedSample_forRange (s : State) {k : Nat} (hk : k < s.n) :
    windowedSample k (forRange k windowTurn s.mem) = windowedSample k s.mem := by
  have hsample : (forRange k windowTurn s.mem).get (.scrRe k) = s.mem.get (.scrRe k) :=
    forRange_get_apart fun j m hj =>
      windowTurn_get_ne s (hj.trans hk) m (State.scrRe_inMap hk) (by simp [hj.ne]) (by simp)
  have hwin : (forRange k windowTurn s.mem).get (.win k) = s.mem.get (.win k) :=
    forRange_get_apart fun j m hj =>
      windowTurn_get_ne s (hj.trans hk) m (State.win_inMap hk) (by simp) (by simp)
  rw [windowedSample, windowedSample, Memory.getInt, Memory.getInt, hsample, hwin]

theorem windowEffect_get {s : State} {k : Nat} (hk : k < s.n) :
    (windowEffect s).mem.get (.scrRe k) = BitVec.ofInt 32 (windowedSample k s.mem) ∧
      (windowEffect s).mem.get (.scrIm k) = 0#32 := by
  rw [windowEffect_mem]
  constructor
  · refine forRange_get_written (get := fun m : Memory => m.get (.scrRe k)) hk ?_ fun j m hlt hj =>
      windowTurn_get_ne s hj m (State.scrRe_inMap hk) (by simp [hlt.ne']) (by simp)
    rw [windowTurn_get_scrRe s hk, windowedSample_forRange s hk]
  · exact forRange_get_written (get := fun m : Memory => m.get (.scrIm k)) hk (windowTurn_get_scrIm k _)
      fun j m hlt hj => windowTurn_get_ne s hj m (State.scrIm_inMap hk) (by simp) (by simp [hlt.ne'])

theorem windowEffect_readByte {s : State} {a : Nat}
    (ha : ∀ k < s.n, ¬ (Elem.scrRe k).covers a ∧ ¬ (Elem.scrIm k).covers a) :
    (windowEffect s).mem.readByte a = s.mem.readByte a :=
  forRange_readByte fun k m hk => windowTurn_readByte m (ha k hk).1 (ha k hk).2

/-- Settles O38: each turn reads its own sample before it writes it, and no turn writes the window. -/
theorem windowScalesTheFrame : Obligations.WindowScalesTheFrame := fun s hc =>
  ⟨(windowEffect s).mem, exec_window_of_clear hc, fun _ => windowEffect_get, fun _ => windowEffect_readByte⟩

/-! ### The resampled frame's length and positions (R202, R227) -/

theorem State.Inv.legalRatio_cycRatio {s : State} (h : s.Inv) : legalRatio s.cycRatio := by
  obtain ⟨⟨-, -, -, -, -, -, -, -, hratio⟩, -⟩ := h
  exact hratio

theorem State.Inv.rlen_eq {s : State} (h : s.Inv) (hc : s.configured = true) :
    s.rlen.toNat = resampledLength s.n s.cycRatio.toNat := by
  obtain ⟨-, hactive, -⟩ := h
  obtain ⟨-, hrlen, -⟩ := (s.configInv_iff.mp (hactive hc).1).2
  exact hrlen

/-- The samples of the resampled frame lie in the map (R60, R73). -/
theorem State.Inv.rs_inMap {s : State} (h : s.Inv) (hc : s.configured = true) {i : Nat} (hi : i < s.rlen.toNat) :
    (Elem.rs i).inMap = true := by
  have hn := s.n_le
  have hlen : s.rlen.toNat ≤ 2 * s.n := h.rlen_eq hc ▸ resampledLength_le h.legalRatio_cycRatio.1
  exact decide_eq_true (by omega)

/-- The input position of an output sample lies before the end of the frame. -/
theorem State.Inv.resamplePos_div_lt {s : State} (h : s.Inv) (hc : s.configured = true) {i : Nat}
    (hi : i < s.rlen.toNat) : resamplePos s i / 2 ^ 28 < s.n := by
  have hratio : 0 < s.cycRatio.toNat := Nat.lt_of_lt_of_le (by norm_num) h.legalRatio_cycRatio.1
  refine Nat.div_lt_of_lt_mul ?_
  calc resamplePos s i < s.rlen.toNat * s.cycRatio.toNat := Nat.mul_lt_mul_of_pos_right hi hratio
    _ ≤ s.n * 2 ^ 28 := by rw [h.rlen_eq hc]; exact Nat.div_mul_le_self _ _
    _ = 2 ^ 28 * s.n := Nat.mul_comm _ _

/-! ### The interpolated value (R203) -/

/-- A value between two words, rounded, fits a word. -/
theorem rshr_interpolation_bounds {x y fr : Int} (hx : -2 ^ 31 ≤ x ∧ x < 2 ^ 31) (hy : -2 ^ 31 ≤ y ∧ y < 2 ^ 31)
    (hfr : 0 ≤ fr ∧ fr ≤ 2 ^ 28) :
    -2 ^ 31 ≤ rshr (x * (2 ^ 28 - fr) + y * fr) 28 ∧ rshr (x * (2 ^ 28 - fr) + y * fr) 28 < 2 ^ 31 := by
  have hfr' : 0 ≤ 2 ^ 28 - fr := by omega
  have hlo : -2 ^ 31 * (2 ^ 28 - fr) + -2 ^ 31 * fr ≤ x * (2 ^ 28 - fr) + y * fr :=
    add_le_add (mul_le_mul_of_nonneg_right hx.1 hfr') (mul_le_mul_of_nonneg_right hy.1 hfr.1)
  have hhi : x * (2 ^ 28 - fr) + y * fr ≤ (2 ^ 31 - 1) * (2 ^ 28 - fr) + (2 ^ 31 - 1) * fr :=
    add_le_add (mul_le_mul_of_nonneg_right (Int.le_sub_one_of_lt hx.2) hfr')
      (mul_le_mul_of_nonneg_right (Int.le_sub_one_of_lt hy.2) hfr.1)
  exact ⟨le_rshr (by omega), Int.lt_of_le_sub_one (rshr_le (by omega))⟩

theorem resampleValue_bounds (s : State) (i : Nat) (m : Memory) :
    -2 ^ 31 ≤ resampleValue s i m ∧ resampleValue s i m < 2 ^ 31 :=
  rshr_interpolation_bounds (m.getInt_bounds _) (m.getInt_bounds _) (by omega)

/-- An interpolated value is determined by the two words it lies between. -/
theorem resampleValue_congr {s : State} {i : Nat} {m m' : Memory} (hidx : resamplePos s i / 2 ^ 28 < s.n)
    (h : ∀ k < s.n, m'.get (.scrRe k) = m.get (.scrRe k)) : resampleValue s i m' = resampleValue s i m := by
  simp only [resampleValue, Memory.getInt, h _ hidx, h _ (Nat.mod_lt _ s.n_pos)]

/-! ### RESAMPLE (R203) -/

theorem exec_resample_of_clear {s : State} (hc : s.configured = true) :
    exec .resample s = .next (resampleEffect s).complete :=
  leafCommand_of_clear (by simp [firstError_eq_none_iff, hc])

theorem resampleEffect_get {s : State} (h : s.Inv) (hc : s.configured = true) {i : Nat} (hi : i < s.rlen.toNat) :
    (resampleEffect s).mem.get (.rs i) = BitVec.ofInt 32 (resampleValue s i s.mem) := by
  refine forRange_get_written (get := fun m : Memory => m.get (.rs i)) hi ?_ fun j m hlt hj =>
    m.get_put_ne _ (h.rs_inMap hc hj) (h.rs_inMap hc hi) (by simp [hlt.ne'])
  rw [Memory.get_putInt_same, resampleValue_congr (h.resamplePos_div_lt hc hi)]
  exact fun k hk => forRange_get_apart fun j m hj =>
    m.get_put_ne _ (h.rs_inMap hc (hj.trans hi)) (State.scrRe_inMap hk) (by simp)

theorem resampleEffect_getInt {s : State} (h : s.Inv) (hc : s.configured = true) {i : Nat} (hi : i < s.rlen.toNat) :
    (resampleEffect s).mem.getInt (.rs i) = resampleValue s i s.mem := by
  obtain ⟨hlo, hhi⟩ := resampleValue_bounds s i s.mem
  rw [Memory.getInt, resampleEffect_get h hc hi, BitVec.toInt_ofInt]
  exact wrap32_eq hlo hhi (by simp)

theorem resampleEffect_readByte {s : State} {a : Nat} (ha : ∀ i < s.rlen.toNat, ¬ (Elem.rs i).covers a) :
    (resampleEffect s).mem.readByte a = s.mem.readByte a :=
  forRange_readByte fun i _ hi => Memory.readByte_putInt_other _ _ (ha i hi)

/-- Settles O39: the loop reads the scratch, which it does not write, below the N that RLEN is derived from, and an
interpolated value fits its word. -/
theorem resampleInterpolatesLinearly : Obligations.ResampleInterpolatesLinearly := by
  intro s hinv hc
  refine ⟨(resampleEffect s).mem, exec_resample_of_clear hc, ?_, fun _ => resampleEffect_readByte⟩
  rintro i _ _ _ hi rfl rfl rfl
  exact ⟨hinv.resamplePos_div_lt hc hi, resampleEffect_getInt hinv hc hi⟩

end Sys2Proof.Machine

/-! The sequencer's commands (44_sequencer.md R220 to R234): the start and the completion of a command, the
reconfiguration, the smoother and the latched cycle parameters, and the first step of each composite command. -/

namespace Sys2Proof.Machine

/-! ### The start of a command, and its completion (R221) -/

/-- Settles O5: the turn is the engine's, and the free engine starts the head word. -/
theorem stepRunsDecodedCommand : Obligations.StepRunsDecodedCommand := by
  intro s w rest i hturn hfree hlive hq hdec
  have hstart : step s = startCommand w { s with cmdq := rest, inbox := s.inbox.tail } :=
    (step_of_engineTurn hturn).trans (engineStep_of_head hfree hlive hq)
  exact hstart.trans (startCommand_of_ok hdec _)

/-- An engine with nothing executing that is halted, or has no command waiting, does nothing. -/
theorem engineStep_of_stopped {s : State} (hfree : s.running = none) (hstop : s.halted = true ∨ s.cmdq = []) :
    engineStep s = .next s := by
  rw [engineStep, hfree]
  obtain hhalt | hq := hstop
  · exact if_pos hhalt
  · rw [hq]
    exact ite_self _

/-- Settles O7: the turn is the engine's, and the engine is stopped. -/
theorem stoppedEngineStartsNothing : Obligations.StoppedEngineStartsNothing := fun _ hturn hfree hstop =>
  (step_of_engineTurn hturn).trans (engineStep_of_stopped hfree hstop)

/-- Settles O11: CMDQ is empty or has a head, and the counter's sum wraps. -/
theorem completionCountsAndRaisesDone : Obligations.CompletionCountsAndRaisesDone := by
  intro s
  rw [State.complete, add_one_eq_ofNat_mod]
  cases hq : s.cmdq with
  | nil => exact ⟨fun _ => rfl, fun h => absurd rfl h⟩
  | cons w rest => exact ⟨fun h => (List.cons_ne_nil w rest h).elim, fun _ => rfl⟩

/-! ### Every first step answers a next state (R221, R252) -/

theorem leafCommand_answers (i : Instr) (checks : List Check) (effect : State → State) (s : State) :
    ∃ t, leafCommand i checks effect s = .next t := by
  rw [leafCommand]
  cases firstError checks <;> exact ⟨_, rfl⟩

theorem compositeCommand_answers (i : Instr) (checks : List Check) (p : Progress) (s : State) :
    ∃ t, compositeCommand i checks p s = .next t := by
  rw [compositeCommand]
  cases firstError checks <;> exact ⟨_, rfl⟩

theorem execConfigure_answers (s : State) : ∃ t, execConfigure s = .next t := by
  rw [execConfigure]
  split_ifs <;> exact ⟨_, rfl⟩

theorem processStart_answers (len : Nat) (s : State) : ∃ t, processStart len s = .next t := by
  rw [processStart]
  split_ifs
  · exact leafCommand_answers _ _ _ s
  · exact compositeCommand_answers _ _ _ s

theorem execProcess_answers (len : Nat) (s : State) : ∃ t, execProcess len s = .next t := by
  rw [execProcess]
  split_ifs
  · exact ⟨_, rfl⟩
  · exact processStart_answers len _
  · exact ⟨_, rfl⟩
  · exact processStart_answers len s

/-- Settles O12: a command is made of one leaf, or composite, or else one that may reconfigure. -/
theorem everyCommandAnswersANextState : Obligations.EveryCommandAnswersANextState := by
  intro i s
  cases i with
  | configure => exact execConfigure_answers s
  | process len => exact execProcess_answers len s
  | cycle | pvAll | fftStage | fft => exact compositeCommand_answers _ _ _ s
  | nop => exact leafCommand_answers .nop [] id s
  | mark tag => exact leafCommand_answers (.mark tag) [] (markEffect tag) s
  | cycleBegin | cycleEnd | push | pop | loadframe | ola | pvBin | bitrev | bfly | hermit | window | resample =>
    exact leafCommand_answers _ _ _ s

/-! ### NOP and MARK (R222, R223) -/

/-- Settles O16: NOP checks nothing, and its effect is the identity. -/
theorem nopOnlyCompletes : Obligations.NopOnlyCompletes := fun _ =>
  leafCommand_of_clear (i := .nop) firstError_nil

/-- Settles O17: MARK checks nothing, and its tag fits the register. -/
theorem markRecordsItsTag : Obligations.MarkRecordsItsTag := fun s tag htag =>
  ⟨(markEffect tag s).complete, leafCommand_of_clear (i := .mark tag) firstError_nil, Nat.mod_eq_of_lt htag, rfl⟩

/-! ### CONFIGURE (R224, R225) -/

theorem State.configValid_iff (s : State) :
    s.configValid = true ↔ 2 ≤ s.cfgLog2n.toNat ∧ s.cfgLog2n.toNat ≤ s.build.log2nmax ∧ 1 ≤ s.cfgChannels.toNat ∧
      s.cfgChannels.toNat ≤ s.build.chmax := by
  simp only [State.configValid, Bool.and_eq_true, decide_eq_true_eq, and_assoc]

theorem exec_configure_of_valid {s : State} (hv : s.configValid = true) :
    exec .configure s = .next s.reconfigured.complete := if_pos hv

/-- A reconfiguration zeroes regions 4 to 10 (R224). -/
theorem Memory.readByte_reconfigured_zero (m : Memory) {n a : Nat} (hn : n ≤ 2 ^ 15) (hlo : 0x04000000 ≤ a)
    (hhi : a < 0x0B000000) : (m.clear.writeTables n).readByte a = 0#8 := by
  rw [Memory.readByte_writeTables _ hn hlo, Memory.readByte_clear, if_pos]
  simp [inReconfigured]
  omega

/-- A reconfiguration keeps IOBUF and what lies above it (R224). -/
theorem Memory.readByte_reconfigured_kept (m : Memory) {n a : Nat} (hn : n ≤ 2 ^ 15) (ha : 0x0B000000 ≤ a) :
    (m.clear.writeTables n).readByte a = m.readByte a := by
  rw [Memory.readByte_writeTables _ hn (by omega), Memory.readByte_clear, if_neg]
  simp [inReconfigured]
  omega

/-- Settles O18: the registers are those of `State.reconfigured`, and the arrays the cleared ones with the tables. -/
theorem configureInstallsTheConfiguration : Obligations.ConfigureInstallsTheConfiguration := by
  rintro s _ hbuild hl2 hlmax hc1 hcmax rfl
  have hn : 2 ^ s.cfgLog2n.toNat ≤ 2 ^ 15 := Nat.pow_le_pow_right (by norm_num) (Nat.le_of_lt_succ s.cfgLog2n.isLt)
  have hmax := Build.nmax_le hbuild
  exact ⟨s.mem.clear.writeTables (2 ^ s.cfgLog2n.toNat),
    exec_configure_of_valid (s.configValid_iff.mpr ⟨hl2, hlmax, hc1, hcmax⟩),
    fun i hi => Memory.get_win_writeTables _ (hi.trans_le hmax),
    fun k hk => Memory.get_omega_writeTables _ hn (by omega),
    fun a => Memory.readByte_reconfigured_zero _ hn, fun a => Memory.readByte_reconfigured_kept _ hn⟩

/-! ### The smoother (R226) -/

/-- The smoother's step is 0 only where the target is reached. -/
theorem smoothRatio_eq_current_iff (target current shift : Nat) :
    smoothRatio target current shift = current ↔ current = target := by
  have hpow : (0 : Int) < 2 ^ shift := by positivity
  simp only [smoothRatio]
  obtain hlt | rfl | hgt := lt_trichotomy target current
  · have hneg : ((target : Int) - current) / 2 ^ shift < 0 := Int.ediv_neg_of_neg_of_pos (by omega) hpow
    rw [if_neg (by omega)]
    omega
  · simp
  · have hnonneg : 0 ≤ ((target : Int) - current) / 2 ^ shift := Int.ediv_nonneg (by omega) hpow.le
    split_ifs <;> omega

/-- Settles O20: the interval from the current value to the target holds both, and so the new value. -/
theorem smootherMovesTowardTheTarget : Obligations.SmootherMovesTowardTheTarget := fun target current shift =>
  ⟨fun h => smoothRatio_bounds shift ⟨h, le_rfl⟩ ⟨le_rfl, h⟩, fun h => smoothRatio_bounds shift ⟨le_rfl, h⟩ ⟨h, le_rfl⟩,
    smoothRatio_eq_current_iff target current shift⟩

/-! ### CYCLE_BEGIN and the latched parameters (R227, R228) -/

theorem exec_cycleBegin_of_clear {s : State} (hc : s.configured = true) :
    exec .cycleBegin s = .next (cycleBeginEffect s).complete :=
  leafCommand_of_clear (by simp [firstError_eq_none_iff, hc])

/-- Settles O19: the smoother's new ratio stays legal, so PITCH_CURRENT holds it uncut. -/
theorem cycleBeginSmoothsAndLatches : Obligations.CycleBeginSmoothsAndLatches := by
  rintro s _ _ ratio hinv hc rfl rfl hratio
  obtain ⟨⟨-, -, -, -, -, -, htarget, hcurrent, -⟩, -⟩ := hinv
  obtain ⟨-, hhi⟩ := smoothRatio_bounds s.smoothShift.toNat htarget hcurrent
  have hnew : smoothRatio s.pitchTarget.toNat s.pitchCurrent.toNat s.smoothShift.toNat = ratio := hratio.symm
  rw [hnew] at hhi
  have hfits : (BitVec.ofNat 32 ratio).toNat = ratio := toNat_ofNat_word (by omega)
  rw [exec_cycleBegin_of_clear hc, cycleBeginEffect, hnew, BitVec.ofInt_natCast, State.latch]
  simp only [hfits]
  rfl

/-- With a legal ratio the synthesis hop is at least 1 and at most twice the analysis hop. -/
theorem synthesisHop_bounds {hop ratio : Nat} (hhop : 1 ≤ hop) (hlo : 2 ^ 27 ≤ ratio) (hhi : ratio ≤ 2 ^ 29) :
    1 ≤ synthesisHop hop ratio ∧ synthesisHop hop ratio ≤ 2 * hop := by
  have hmin : 1 * 2 ^ 27 ≤ hop * ratio := Nat.mul_le_mul hhop hlo
  have hmax : hop * ratio ≤ hop * 2 ^ 29 := Nat.mul_le_mul_left hop hhi
  rw [synthesisHop]
  omega

/-- With a ratio of at most 2 the resampled frame is at least half as long. -/
theorem half_le_resampledLength {n ratio : Nat} (hpos : 0 < ratio) (hhi : ratio ≤ 2 ^ 29) :
    n / 2 ≤ resampledLength n ratio := by
  rw [resampledLength, Nat.le_div_iff_mul_le hpos]
  calc n / 2 * ratio ≤ n / 2 * 2 ^ 29 := Nat.mul_le_mul_left _ hhi
    _ ≤ n * 2 ^ 28 := by omega

theorem State.hop_pos {s : State} (h : 2 ≤ s.actLog2n.toNat) : 0 < s.hop :=
  Nat.div_pos (Nat.pow_le_pow_right (n := 2) (by norm_num) h) (by norm_num)

theorem State.Inv.hop_pos {s : State} (h : s.Inv) (hc : s.configured = true) : 0 < s.hop := by
  obtain ⟨-, hactive, -⟩ := h
  obtain ⟨⟨hl, -⟩, -⟩ := hactive hc
  exact State.hop_pos hl

theorem State.Inv.hs_eq {s : State} (h : s.Inv) (hc : s.configured = true) :
    s.hs.toNat = synthesisHop s.hop s.cycRatio.toNat := by
  obtain ⟨-, hactive, -⟩ := h
  obtain ⟨hhs, -⟩ := (s.configInv_iff.mp (hactive hc).1).2
  exact hhs

/-- Settles O21: HS and RLEN are R227's functions of a legal ratio. -/
theorem latchedParametersAreBounded : Obligations.LatchedParametersAreBounded := by
  intro s hinv hc
  obtain ⟨hlo, hhi⟩ := hinv.legalRatio_cycRatio
  rw [hinv.hs_eq hc, hinv.rlen_eq hc]
  obtain ⟨hmin, hmax⟩ := synthesisHop_bounds (hinv.hop_pos hc) hlo hhi
  exact ⟨hmin, hmax, half_le_resampledLength (by omega) hhi, resampledLength_le hlo⟩

/-! ### The first step of a composite command (R220, R231 to R234) -/

theorem exec_cycle_of_clear {s : State} (hc : s.configured = true) (hhop : s.hop ≤ s.inAcc.toNat) :
    exec .cycle s = .next (s.start (encode .cycle) (.cycle .start)) :=
  compositeCommand_of_clear (by simp [firstError_eq_none_iff, hc, hhop])

theorem exec_process_of_settled {s : State} {len : Nat} (hlen : len ≤ s.build.bmax) (hp : s.pending = false) :
    exec (.process len) s = processStart len s := by
  have hfits : ¬ (s.needBlockLength len).1 = true := by simpa [State.needBlockLength] using hlen
  have hnone : ¬ s.pending = true := by simp [hp]
  exact (if_neg hfits).trans (if_neg hnone)

/-- A PROCESS that finds a valid pending configuration goes on from the reconfigured state. -/
theorem exec_process_of_pending {s : State} {len : Nat} (hlen : len ≤ s.build.bmax) (hp : s.pending = true)
    (hv : s.configValid = true) : exec (.process len) s = processStart len s.reconfigured := by
  have hfits : ¬ (s.needBlockLength len).1 = true := by simpa [State.needBlockLength] using hlen
  exact (if_neg hfits).trans ((if_pos hp).trans (if_pos hv))

theorem processStart_of_pos {s : State} {len : Nat} (hlen : 1 ≤ len) (hc : s.configured = true)
    (hroom : s.inAcc.toNat < s.accMax) :
    processStart len s = .next (s.start (encode (.process len)) (.process len 0 .push)) := by
  rw [processStart, if_neg (by omega)]
  exact compositeCommand_of_clear (by simp [firstError_eq_none_iff, hc, hroom])

theorem processStart_zero {s : State} (hc : s.configured = true) (hroom : s.inAcc.toNat < s.accMax) :
    processStart 0 s = .next s.complete :=
  leafCommand_of_clear (by simp [firstError_eq_none_iff, hc, hroom])

/-- Settles O22: each composite command's checks pass, and starting writes the executing command alone. -/
theorem compositeCommandsStartAtTheirFirstLeaf : Obligations.CompositeCommandsStartAtTheirFirstLeaf :=
  fun _ _ _ _ _ hc =>
    ⟨fun hch => exec_pvAll_of_clear hc hch, fun h1 hl => exec_fftStage_of_clear hc h1 hl, exec_fft_of_clear hc,
      fun hhop => exec_cycle_of_clear hc hhop,
      fun h1 hlen hp hroom => (exec_process_of_settled hlen hp).trans (processStart_of_pos h1 hc hroom),
      fun hp hroom => (exec_process_of_settled (Nat.zero_le _) hp).trans (processStart_zero hc hroom)⟩

/-- A reconfiguration leaves room in the input ring: ACC is 0 (R224). -/
theorem State.reconfigured_room (s : State) : s.reconfigured.inAcc.toNat < s.reconfigured.accMax := by
  have hn := s.reconfigured.n_pos
  show 0 < s.reconfigured.accMax
  rw [State.accMax]
  omega

/-- Settles O23: PROCESS and CONFIGURE run the same reconfiguration, which leaves a configured engine with room. -/
theorem pendingReconfigurationRunsInProcess : Obligations.PendingReconfigurationRunsInProcess := by
  intro s len hp hlen hl2 hlmax hc1 hcmax
  have hv : s.configValid = true := s.configValid_iff.mpr ⟨hl2, hlmax, hc1, hcmax⟩
  have hrun := exec_process_of_pending hlen hp hv
  refine ⟨s.reconfigured, exec_configure_of_valid hv, rfl, rfl, rfl, rfl,
    hrun.trans (exec_process_of_settled (s := s.reconfigured) hlen rfl).symm, fun hpos => ?_, fun hzero => ?_⟩
  · exact hrun.trans (processStart_of_pos (Nat.one_le_iff_ne_zero.mpr hpos) rfl s.reconfigured_room)
  · subst hzero
    exact hrun.trans (processStart_zero rfl s.reconfigured_room)

end Sys2Proof.Machine

/-! A cycle and a block as the engine runs them (44_sequencer.md R220, R230 to R236): the leaves of a channel one after
the other, the channels of a cycle, the cycles that a pushed sample triggers, and the samples of a block. -/

namespace Sys2Proof.Machine

/-! ### What steers a cycle and a block -/

/-- What decides where an executing cycle or block goes next, the latched mode apart: the schedule, the active
configuration and ACC; and the counts of the samples a block moves. -/
structure Course where
  inbox : List HostEvent
  actLog2n : BitVec 4
  actChannels : BitVec 5
  inAcc : Word
  pushCount : Word
  popCount : Word

/-- The course of a state. -/
def State.course (s : State) : Course :=
  { inbox := s.inbox, actLog2n := s.actLog2n, actChannels := s.actChannels, inAcc := s.inAcc
    pushCount := s.pushCount, popCount := s.popCount }

theorem State.inbox_of_course {s t : State} (h : t.course = s.course) (hin : s.inbox = []) : t.inbox = [] :=
  (congrArg Course.inbox h).trans hin

theorem State.n_of_course {s t : State} (h : t.course = s.course) : t.n = s.n :=
  congrArg (fun c => 2 ^ c.actLog2n.toNat) h

theorem State.ch_of_course {s t : State} (h : t.course = s.course) : t.ch = s.ch :=
  congrArg (fun c => c.actChannels.toNat) h

theorem forRange_course {n : Nat} {f : Nat → State → State} (s : State) (h : ∀ i t, (f i t).course = t.course) :
    (forRange n f s).course = s.course :=
  forRange_keeps (P := fun t : State => t.course = s.course) rfl fun i t _ ht => (h i t).trans ht

@[simp] theorem stageEffect_course (dir : Dir) (st : Nat) (s : State) : (stageEffect dir st s).course = s.course :=
  forRange_course s fun p t => by split_ifs <;> rfl

@[simp] theorem fftEffect_course (dir : Dir) (s : State) : (fftEffect dir s).course = s.course :=
  forRange_course (bitrevEffect s) fun j t => stageEffect_course dir (j + 1) t

@[simp] theorem pvAllEffect_course (c : Nat) (s : State) : (pvAllEffect c s).course = s.course :=
  forRange_course s fun _ _ => rfl

@[simp] theorem resampleIfPitchShift_course (s : State) : (resampleIfPitchShift s).course = s.course := by
  rw [resampleIfPitchShift]
  cases s.cycMode <;> rfl

@[simp] theorem loadframeEffect_course (c : Nat) (s : State) : (loadframeEffect c s).course = s.course := rfl
@[simp] theorem hermitEffect_course (s : State) : (hermitEffect s).course = s.course := rfl
@[simp] theorem windowEffect_course (s : State) : (windowEffect s).course = s.course := rfl
@[simp] theorem olaEffect_course (c : Nat) (s : State) : (olaEffect c s).course = s.course := rfl
@[simp] theorem cycleBeginEffect_course (s : State) : (cycleBeginEffect s).course = s.course := rfl

@[simp] theorem channelEffect_course (c : Nat) (s : State) : (channelEffect c s).course = s.course := by
  simp only [channelEffect, olaEffect_course, resampleIfPitchShift_course, windowEffect_course, fftEffect_course,
    hermitEffect_course, pvAllEffect_course, loadframeEffect_course]

/-- Of the course of a state a cycle's end writes ACC alone. -/
theorem cycleEndEffect_course (s : State) :
    (cycleEndEffect s).course = { s.course with inAcc := BitVec.ofNat 32 (s.inAcc.toNat - s.hop) } := rfl

theorem cycleEndEffect_course_congr {s t : State} (h : t.course = s.course) :
    (cycleEndEffect t).course = (cycleEndEffect s).course :=
  congrArg (fun c : Course =>
    { c with inAcc := BitVec.ofNat 32 (c.inAcc.toNat - 2 ^ c.actLog2n.toNat / 4) }) h

/-- A cycle takes a hop from ACC (R158, R230). -/
theorem cycleEffect_course (s : State) :
    (cycleEffect s).course = { s.course with inAcc := BitVec.ofNat 32 (s.inAcc.toNat - s.hop) } :=
  cycleEndEffect_course_congr (forRange_course (cycleBeginEffect s) channelEffect_course)

/-! ### The engine through one cycle (R230) -/

theorem CycleAt.channel_of_course {s t : State} (h : t.course = s.course) (c : Nat) :
    CycleAt.channel t c = CycleAt.channel s c := by
  rw [CycleAt.channel, CycleAt.channel, State.ch_of_course h]

/-- From bin 0 of channel `c` on state `s` the engine comes to bin `k`, on state `t` of the same course. -/
structure BinsReach (s : State) (w : Word) (leafAt : CycleAt → Progress) (c k : Nat) (t : State) : Prop where
  course : t.course = s.course
  run : (s.start w (leafAt (.bin c 0))).Reaches (t.start w (leafAt (.bin c k)))

/-- From a cycle's first leaf on state `s` the engine comes past CYCLE_BEGIN and `c` channels, on state `t` of the same
course. -/
structure ChannelsReach (s : State) (w : Word) (leafAt : CycleAt → Progress) (c : Nat) (t : State) : Prop where
  course : t.course = s.course
  run : (s.start w (leafAt .start)).Reaches (t.start w (leafAt (CycleAt.channel s c)))

theorem CycleAt.next_forward (c : Nat) (f : FftAt) (s : State) :
    (CycleAt.forward c f).next s = some ((f.next s).elim (.bin c 0) (.forward c)) := by
  rw [CycleAt.next]
  cases f.next s <;> rfl

theorem CycleAt.next_inverse (c : Nat) (f : FftAt) (s : State) :
    (CycleAt.inverse c f).next s = some ((f.next s).elim (.window c) (.inverse c)) := by
  rw [CycleAt.next]
  cases f.next s <;> rfl

/-! The command that holds the cycle, CYCLE or a PROCESS, stands at `leafAt a` where the cycle stands at `a`, and goes to
`past t` when the cycle ends on state `t`. -/

section
variable {s : State} {w : Word} {leafAt : CycleAt → Progress} {past : State → State}
  (hleaf : ∀ a t, continueCommand { word := w, progress := leafAt a } t =
    (a.leaf.run t).goOn w past ((a.next (a.leaf.run t)).map leafAt))
include hleaf

/-- One leaf of a cycle, and then the next. -/
theorem reaches_next_leaf (hin : s.inbox = []) {a a' : CycleAt} (hnext : a.next (a.leaf.run s) = some a') :
    (s.start w (leafAt a)).Reaches ((a.leaf.run s).start w (leafAt a')) := by
  refine .of_step ((step_start hin w _).trans ?_)
  rw [hleaf, hnext]
  rfl

/-- A transform of a channel, and then the leaf after it. -/
theorem reaches_past_transform (hin : s.inbox = []) {dir : Dir} {transform : FftAt → CycleAt} {after : CycleAt}
    (hdir : ∀ f, (transform f).leaf = f.leaf dir)
    (hnext : ∀ f t, (transform f).next t = some ((f.next t).elim after transform)) :
    (s.start w (leafAt (transform .bitrev))).Reaches ((fftEffect dir s).start w (leafAt after)) := by
  refine reaches_past_fft (leafAt := fun f => leafAt (transform f)) (past := fun t => t.start w (leafAt after))
    (fun f t => ?_) hin
  rw [hleaf, hdir, hnext]
  cases f.next ((f.leaf dir).run t) <;> rfl

/-- The bins from 0 to N/2, and then HERMIT. -/
theorem reaches_past_bins (hin : s.inbox = []) (c : Nat) :
    (s.start w (leafAt (.bin c 0))).Reaches ((pvAllEffect c s).start w (leafAt (.hermit c))) := by
  have next : ∀ {t : State} (k : Nat), t.course = s.course →
      CycleAt.next ((CycleAt.bin c k).leaf.run t) (.bin c k) =
        if k < s.n / 2 then some (.bin c (k + 1)) else some (.hermit c) := fun k ht => by
    rw [CycleAt.next, Leaf.run_n, State.n_of_course ht]
  have hbins : BinsReach s w leafAt c (s.n / 2) (forRange (s.n / 2) (pvBinEffect c) s) :=
    forRange_invariant (P := BinsReach s w leafAt c) ⟨rfl, .refl _⟩ fun k t hk ⟨ht, hrun⟩ =>
      ⟨ht, hrun.trans (reaches_next_leaf hleaf (State.inbox_of_course ht hin) ((next k ht).trans (if_pos hk)))⟩
  obtain ⟨hcourse, hrun⟩ := hbins
  exact hrun.trans (reaches_next_leaf hleaf (State.inbox_of_course hcourse hin)
    ((next _ hcourse).trans (if_neg (lt_irrefl _))))

/-- WINDOW, and RESAMPLE in PitchShift only, and then OLA. -/
theorem reaches_past_window (hin : s.inbox = []) (c : Nat) :
    (s.start w (leafAt (.window c))).Reaches
      ((resampleIfPitchShift (windowEffect s)).start w (leafAt (.ola c))) := by
  have hwindow : ∀ a, CycleAt.next (windowEffect s) (.window c) = some a →
      (s.start w (leafAt (.window c))).Reaches ((windowEffect s).start w (leafAt a)) :=
    fun a hnext => reaches_next_leaf hleaf hin hnext
  rw [CycleAt.next] at hwindow
  rw [resampleIfPitchShift]
  cases hmode : (windowEffect s).cycMode <;> rw [hmode] at hwindow
  · exact (hwindow _ rfl).trans (reaches_next_leaf hleaf (s := windowEffect s) hin rfl)
  · exact hwindow _ rfl
  · exact hwindow _ rfl

/-- The analysis of a channel: its frame, the forward transform and every bin, and then HERMIT. -/
theorem reaches_past_analysis (hin : s.inbox = []) (c : Nat) :
    (s.start w (leafAt (.load c))).Reaches
      ((pvAllEffect c (fftEffect .forward (loadframeEffect c s))).start w (leafAt (.hermit c))) := by
  have hload := reaches_next_leaf hleaf hin (a := .load c) rfl
  have hforward := reaches_past_transform hleaf (s := loadframeEffect c s) hin (dir := .forward) (fun _ => rfl)
    (CycleAt.next_forward c)
  have hbins := reaches_past_bins hleaf (State.inbox_of_course (fftEffect_course .forward (loadframeEffect c s)) hin) c
  exact (hload.trans hforward).trans hbins

/-- The synthesis of a channel: from HERMIT to OLA, and then the next channel or the cycle's end. -/
theorem reaches_past_synthesis (hin : s.inbox = []) (c : Nat) :
    (s.start w (leafAt (.hermit c))).Reaches
      ((olaEffect c (resampleIfPitchShift (windowEffect (fftEffect .inverse (hermitEffect s))))).start w
        (leafAt (CycleAt.channel s (c + 1)))) := by
  have hcourse : (resampleIfPitchShift (windowEffect (fftEffect .inverse (hermitEffect s)))).course = s.course := by
    simp
  have hhermit := reaches_next_leaf hleaf hin (a := .hermit c) rfl
  have hinverse := reaches_past_transform hleaf (s := hermitEffect s) hin (dir := .inverse) (fun _ => rfl)
    (CycleAt.next_inverse c)
  have hwindow := reaches_past_window hleaf (State.inbox_of_course (fftEffect_course .inverse (hermitEffect s)) hin) c
  have hola := reaches_next_leaf hleaf (State.inbox_of_course hcourse hin) (a := .ola c) rfl
  rw [← CycleAt.channel_of_course ((olaEffect_course c _).trans hcourse)]
  exact ((hhermit.trans hinverse).trans hwindow).trans hola

/-- The body of the channel loop, and then the next channel or the cycle's end. -/
theorem reaches_past_channel (hin : s.inbox = []) (c : Nat) :
    (s.start w (leafAt (.load c))).Reaches ((channelEffect c s).start w (leafAt (CycleAt.channel s (c + 1)))) := by
  have hcourse : (pvAllEffect c (fftEffect .forward (loadframeEffect c s))).course = s.course := by simp
  rw [← CycleAt.channel_of_course hcourse]
  exact (reaches_past_analysis hleaf hin c).trans (reaches_past_synthesis hleaf (State.inbox_of_course hcourse hin) c)

/-- A cycle, leaf by leaf from CYCLE_BEGIN to CYCLE_END, and then what follows it. -/
theorem reaches_past_cycle (hin : s.inbox = []) : (s.start w (leafAt .start)).Reaches (past (cycleEffect s)) := by
  have hbegin : ChannelsReach s w leafAt 0 (cycleBeginEffect s) :=
    ⟨rfl, reaches_next_leaf hleaf hin (a := .start) rfl⟩
  have hchannels : ChannelsReach s w leafAt s.ch (forRange s.ch channelEffect (cycleBeginEffect s)) :=
    forRange_invariant (P := ChannelsReach s w leafAt) hbegin fun c t hc ⟨ht, hrun⟩ => by
      have hnext := reaches_past_channel hleaf (State.inbox_of_course ht hin) c
      rw [CycleAt.channel_of_course ht] at hnext
      rw [CycleAt.channel, if_pos hc] at hrun
      exact ⟨(channelEffect_course c t).trans ht, hrun.trans hnext⟩
  obtain ⟨ht, hrun⟩ := hchannels
  rw [CycleAt.channel, if_neg (lt_irrefl _)] at hrun
  refine hrun.trans (.of_step ((step_start (State.inbox_of_course ht hin) w _).trans ?_))
  rw [hleaf]
  rfl

end

/-! ### CYCLE (R231) -/

/-- Settles O42: CYCLE's first step leaves the engine at CYCLE_BEGIN, and a cycle's last leaf completes it. -/
theorem cycleRunsTheCycleBody : Obligations.CycleRunsTheCycleBody := by
  intro s rest _ hc hin hfree hlive hhop hq
  have hstart : s.Reaches _ := .of_queued hin hfree hlive hq rfl (exec_cycle_of_clear hc hhop)
  exact hstart.trans (reaches_past_cycle (leafAt := .cycle) (fun _ _ => continueCommand_eq_goOn _ _ _) hin)

/-! ### The cycles that a pushed sample triggers (R234) -/

/-- From state `s`, after the PUSH of sample `i`, the engine comes past `j` cycles, on state `t`: each has taken a hop
from ACC. -/
structure CyclesReach (s : State) (w : Word) (len i j : Nat) (t : State) : Prop where
  course : t.course = { s.course with inAcc := BitVec.ofNat 32 (s.inAcc.toNat - j * s.hop) }
  run : (s.start w (.process len i (SampleAt.afterPush s))).Reaches (t.start w (.process len i (SampleAt.afterPush t)))

/-- The place of a PROCESS inside a cycle, and after it the test of the inner loop. -/
theorem continueCommand_inSample (w : Word) (len i : Nat) (a : CycleAt) (t : State) :
    continueCommand { word := w, progress := .process len i (.inCycle a) } t =
      (a.leaf.run t).goOn w (fun t => t.start w (.process len i (SampleAt.afterPush t)))
        ((a.next (a.leaf.run t)).map fun a => .process len i (.inCycle a)) := by
  rw [continueCommand_eq_goOn, Progress.leaf, Progress.next]
  cases a.next (a.leaf.run t) <;> rfl

theorem CyclesReach.inAcc {s t : State} {w : Word} {len i j : Nat} (h : CyclesReach s w len i j t) :
    t.inAcc.toNat = s.inAcc.toNat - j * s.hop :=
  (congrArg (fun c => c.inAcc.toNat) h.course).trans (toNat_ofNat_word ((Nat.sub_le _ _).trans_lt s.inAcc.isLt))

theorem CyclesReach.hop {s t : State} {w : Word} {len i j : Nat} (h : CyclesReach s w len i j t) : t.hop = s.hop :=
  congrArg (fun c => 2 ^ c.actLog2n.toNat / 4) h.course

theorem CyclesReach.next {s t : State} {w : Word} {len i j : Nat} (h : CyclesReach s w len i j t) (hin : s.inbox = [])
    (hj : j < s.inAcc.toNat / s.hop) : CyclesReach s w len i (j + 1) (cycleEffect t) := by
  have hmore : (j + 1) * s.hop ≤ s.inAcc.toNat := (Nat.mul_le_mul_right _ hj).trans (Nat.div_mul_le_self _ _)
  have hleft : t.inAcc.toNat - t.hop = s.inAcc.toNat - (j + 1) * s.hop := by
    rw [h.inAcc, h.hop, Nat.succ_mul, Nat.sub_sub]
  have htest : SampleAt.afterPush t = .inCycle .start := by
    refine if_pos ?_
    rw [h.inAcc, h.hop]
    rw [Nat.succ_mul] at hmore
    omega
  obtain ⟨hcourse, hrun⟩ := h
  rw [htest] at hrun
  have hin' : t.inbox = [] := (congrArg Course.inbox hcourse).trans hin
  refine ⟨?_, hrun.trans (reaches_past_cycle (leafAt := fun a => .process len i (.inCycle a))
    (continueCommand_inSample w len i) hin')⟩
  rw [cycleEffect_course, hleft, hcourse]

/-- All the cycles of the inner loop. -/
theorem cyclesReach_drainEffect {s : State} (hin : s.inbox = []) (w : Word) (len i : Nat) :
    CyclesReach s w len i (s.inAcc.toNat / s.hop) (drainEffect s) :=
  forRange_invariant (P := CyclesReach s w len i) ⟨by simp [State.course], .refl _⟩ fun _ _ hj h => h.next hin hj

/-- Fewer samples than a hop are left: the cycles are over, and POP comes next. -/
theorem reaches_past_drain {s : State} (hin : s.inbox = []) (hhop : 0 < s.hop) (w : Word) (len i : Nat) :
    (s.start w (.process len i (SampleAt.afterPush s))).Reaches ((drainEffect s).start w (.process len i .pop)) := by
  have hcycles := cyclesReach_drainEffect hin w len i
  have hdone : SampleAt.afterPush (drainEffect s) = .pop := by
    have hrem := Nat.mod_lt s.inAcc.toNat hhop
    have hdiv := Nat.div_add_mod' s.inAcc.toNat s.hop
    refine if_neg ?_
    rw [hcycles.inAcc, hcycles.hop]
    omega
  rw [← hdone]
  exact hcycles.run

/-! ### PROCESS (R234) -/

/-- One turn of the block loop: PUSH, every triggered cycle, POP. -/
def sampleEffect (i : Nat) (s : State) : State := popEffect i (drainEffect (pushEffect i s))

theorem processEffect_eq_forRange (len : Nat) (s : State) : processEffect len s = forRange len sampleEffect s := rfl

/-- The place of a PROCESS before sample `i`, or none past the block's end. -/
def beforeSample (len i : Nat) : Option Progress := if i < len then some (.process len i .push) else none

/-- From the first sample of a block on state `s`, the engine comes past `k` samples, on state `t`: it has pushed and
popped `k` samples. -/
structure SamplesReach (s : State) (w : Word) (len k : Nat) (t : State) : Prop where
  inbox : t.inbox = []
  hop : t.hop = s.hop
  pushCount : t.pushCount = s.pushCount + BitVec.ofNat 32 k
  popCount : t.popCount = s.popCount + BitVec.ofNat 32 k
  run : (s.goOn w State.complete (beforeSample len 0)).Reaches (t.goOn w State.complete (beforeSample len k))

/-- One sample, from its PUSH past its POP. -/
theorem reaches_past_sample {s : State} (hin : s.inbox = []) (hhop : 0 < s.hop) (w : Word) (len i : Nat) :
    (s.start w (.process len i .push)).Reaches
      ((sampleEffect i s).goOn w State.complete (beforeSample len (i + 1))) := by
  have hpush : (s.start w (.process len i .push)).Reaches
      ((pushEffect i s).start w (.process len i (SampleAt.afterPush (pushEffect i s)))) := .of_step (step_start hin w _)
  have hdrain := reaches_past_drain (s := pushEffect i s) hin hhop w len i
  have hin' : (drainEffect (pushEffect i s)).inbox = [] :=
    (congrArg Course.inbox (cyclesReach_drainEffect (s := pushEffect i s) hin w len i).course).trans hin
  refine (hpush.trans hdrain).trans (.of_step ((step_start hin' w _).trans ?_))
  rw [continueCommand_eq_goOn]
  rfl

theorem SamplesReach.next {s t : State} {w : Word} {len k : Nat} (h : SamplesReach s w len k t) (hhop : 0 < s.hop)
    (hk : k < len) : SamplesReach s w len (k + 1) (sampleEffect k t) := by
  obtain ⟨hin, hhop', hpush, hpop, hrun⟩ := h
  have hcourse := (cyclesReach_drainEffect (s := pushEffect k t) hin w len k).course
  have count : ∀ c : Word, c + BitVec.ofNat 32 (k + 1) = c + BitVec.ofNat 32 k + 1#32 := fun c => by
    rw [BitVec.ofNat_add, BitVec.add_assoc]
  refine ⟨(congrArg Course.inbox hcourse).trans hin, ?_, ?_, ?_, hrun.trans ?_⟩
  · exact (congrArg (fun c => 2 ^ c.actLog2n.toNat / 4) hcourse).trans hhop'
  · rw [count, ← hpush]
    exact congrArg Course.pushCount hcourse
  · rw [count, ← hpop]
    exact congrArg (fun c => c.popCount + 1#32) hcourse
  · rw [beforeSample, if_pos hk]
    exact reaches_past_sample hin (hhop' ▸ hhop) w len k

/-- The block loop, from its first sample past its last. -/
theorem samplesReach_processEffect {s : State} (hin : s.inbox = []) (hhop : 0 < s.hop) (w : Word) (len : Nat) :
    SamplesReach s w len len (processEffect len s) := by
  rw [processEffect_eq_forRange]
  exact forRange_invariant (P := SamplesReach s w len) ⟨hin, rfl, by simp, by simp, .refl _⟩ fun _ _ hk h =>
    h.next hhop hk

/-- With its checks passed PROCESS starts before its first sample, or completes if it has none. -/
theorem exec_process_of_clear {s : State} {len : Nat} (hlen : len ≤ s.build.bmax) (hp : s.pending = false)
    (hc : s.configured = true) (hroom : s.inAcc.toNat < s.accMax) :
    exec (.process len) s = .next (s.goOn (encode (.process len)) State.complete (beforeSample len 0)) := by
  rw [exec_process_of_settled hlen hp]
  cases len with
  | zero => exact processStart_zero hc hroom
  | succ len => exact processStart_of_pos (Nat.succ_pos len) hc hroom

/-- Settles O43: PROCESS's first step leaves the engine before its first sample; the block loop's invariant runs the
samples and counts them. -/
theorem processRunsTheBlockLoop : Obligations.ProcessRunsTheBlockLoop := by
  intro s len rest hinv hc hin hfree hlive hp hlen hfits hroom hq
  have hstart : s.Reaches _ :=
    .of_queued hin hfree hlive hq (decide_eq_true hfits) (exec_process_of_clear hlen hp hc hroom)
  obtain ⟨-, -, hpush, hpop, hrun⟩ :=
    samplesReach_processEffect (s := { s with cmdq := rest }) hin (hinv.hop_pos hc) (encode (.process len)) len
  rw [show beforeSample len len = none from if_neg (lt_irrefl _)] at hrun
  obtain ⟨steps, hsteps⟩ := hstart.trans hrun
  exact ⟨steps, _, hsteps, rfl, hpush, hpop⟩

end Sys2Proof.Machine

/-! Errors, interrupts and bus errors (60_exceptions.md R251 to R255, R261): the first error of each command's checks, what
the error procedure and a bus error write, and the executing command that a halt leaves alone. -/

namespace Sys2Proof.Machine

/-! ### A halt does not disturb the executing command (R253) -/

/-- The state with HALTED = 1, and nothing else changed. -/
def State.halt (s : State) : State := { s with halted := true }

/-- No leaf reads or writes HALTED. -/
theorem Leaf.run_halt (l : Leaf) (s : State) : l.run s.halt = (l.run s).halt := by
  cases l <;> rfl

/-- Where a command goes next does not depend on HALTED. -/
theorem Progress.next_halt (p : Progress) (s : State) : p.next s.halt = p.next s := rfl

theorem continueCommand_halt (r : Running) (s : State) : continueCommand r s.halt = (continueCommand r s).halt := by
  rw [continueCommand, continueCommand, Leaf.run_halt, Progress.next_halt]
  cases r.progress.next (r.progress.leaf.run s) <;> rfl

theorem engineStep_of_running {s : State} {r : Running} (h : s.running = some r) :
    engineStep s = .next (continueCommand r s) := by
  rw [engineStep, h]

/-- Settles O8: the turn is the executing command's, with HALTED = 0 and with HALTED = 1, and its step carries HALTED
along. -/
theorem haltDoesNotDisturbExecutingCommand : Obligations.HaltDoesNotDisturbExecutingCommand := by
  intro s t r hturn hr _ hstep
  have hlive := (step_of_engineTurn hturn).trans (engineStep_of_running (s := { s with inbox := s.inbox.tail }) hr)
  have hhalt := (step_of_engineTurn (s := s.halt) hturn).trans
    (engineStep_of_running (s := State.halt { s with inbox := s.inbox.tail }) hr)
  obtain rfl := Host.Outcome.next.inj (hlive.symm.trans hstep)
  exact hhalt.trans (congrArg _ (continueCommand_halt r _))

/-! ### The error that a sequence of checks reports (R251) -/

theorem firstError_of_fails {c : Check} {rest : List Check} (h : c.1 = true) : firstError (c :: rest) = some c.2 :=
  (firstError_cons c.1 c.2 rest).trans (if_pos h)

theorem firstError_of_passes {c : Check} {rest : List Check} (h : c.1 = false) :
    firstError (c :: rest) = firstError rest :=
  (firstError_cons c.1 c.2 rest).trans (if_neg (ne_true_of_eq_false h))

theorem firstError_of_unconfigured {s : State} {rest : List Check} (hc : s.configured = false) :
    firstError (s.needConfigured :: rest) = some .notConfigured :=
  firstError_of_fails (by simp [State.needConfigured, hc])

/-- A configured engine reports the next check, where that fails. -/
theorem firstError_of_second_fails {s : State} {c : Check} {rest : List Check} (hc : s.configured = true)
    (h : c.1 = true) : firstError (s.needConfigured :: c :: rest) = some c.2 :=
  (firstError_of_passes (s.needConfigured_clear.mpr hc)).trans (firstError_of_fails h)

/-- A configured engine reports the check after the next, where only the next passes. -/
theorem firstError_of_third_fails {s : State} {c d : Check} {rest : List Check} (hc : s.configured = true)
    (hpass : c.1 = false) (h : d.1 = true) : firstError (s.needConfigured :: c :: d :: rest) = some d.2 :=
  (firstError_of_passes (s.needConfigured_clear.mpr hc)).trans
    ((firstError_of_passes hpass).trans (firstError_of_fails h))

/-! ### When a check fails (R105, R251) -/

theorem State.needChannel_fails {s : State} {ch : Nat} (h : s.ch ≤ ch) : (s.needChannel ch).1 = true :=
  decide_eq_true h

theorem State.needBin_fails {s : State} {k : Nat} (h : s.n / 2 < k) : (s.needBin k).1 = true := decide_eq_true h

theorem State.needStage_fails {s : State} {st : Nat} (h : st = 0 ∨ s.actLog2n.toNat < st) :
    (s.needStage st).1 = true := by
  simpa [State.needStage] using h

theorem State.needUpperIndex_fails {s : State} {st p : Nat} (h : s.n ≤ p ∨ p.testBit (st - 1) = true) :
    (s.needUpperIndex st p).1 = true := by
  simpa [State.needUpperIndex] using h

theorem State.needIoIndex_fails {s : State} {i : Nat} (h : s.build.bmax ≤ i) : (s.needIoIndex i).1 = true :=
  decide_eq_true h

theorem State.needBlockLength_fails {s : State} {len : Nat} (h : s.build.bmax < len) :
    (s.needBlockLength len).1 = true := decide_eq_true h

theorem State.needHop_fails {s : State} (h : s.inAcc.toNat < s.hop) : s.needHop.1 = true := decide_eq_true h

theorem State.needRoom_fails {s : State} (h : s.accMax ≤ s.inAcc.toNat) : s.needRoom.1 = true := decide_eq_true h

/-! ### The ring-buffer commands (R142, R145, R152, R156, R158) -/

/-- Settles O13: each command's checks, up to the first that fails. -/
theorem ringCommandErrors : Obligations.RingCommandErrors := by
  intro s i ch
  refine ⟨fun hc => ?_, fun hc => ⟨fun hi => ?_, fun hi hacc => ?_, fun hch => ?_, fun hacc => ?_⟩⟩
  · have hfirst (rest : List Check) := firstError_of_unconfigured (rest := rest) hc
    exact ⟨leafCommand_of_error (hfirst _), leafCommand_of_error (hfirst _), leafCommand_of_error (hfirst _),
      leafCommand_of_error (hfirst _), leafCommand_of_error (hfirst _)⟩
  · have hindex (rest : List Check) := firstError_of_second_fails (rest := rest) hc (State.needIoIndex_fails hi)
    exact ⟨leafCommand_of_error (hindex _), leafCommand_of_error (hindex _)⟩
  · exact leafCommand_of_error
      (firstError_of_third_fails hc ((s.needIoIndex_clear i).mpr hi) (State.needRoom_fails hacc))
  · have hchannel := firstError_of_second_fails (rest := []) hc (State.needChannel_fails hch)
    exact ⟨leafCommand_of_error hchannel, leafCommand_of_error hchannel⟩
  · exact leafCommand_of_error (firstError_of_second_fails hc (State.needHop_fails hacc))

/-! ### The phase, transform and resampler commands (R166, R170, R183, R185) -/

/-- Settles O14: each command's checks, up to the first that fails. -/
theorem spectralCommandErrors : Obligations.SpectralCommandErrors := by
  intro s dir ch k st p
  refine ⟨fun hc => ?_, fun hc => ⟨fun hch => ?_, fun hch hk => ?_, fun hst => ?_, fun h1 hl hp => ?_⟩⟩
  · have hfirst (rest : List Check) := firstError_of_unconfigured (rest := rest) hc
    exact ⟨leafCommand_of_error (hfirst _), compositeCommand_of_error (hfirst _), leafCommand_of_error (hfirst _),
      leafCommand_of_error (hfirst _), compositeCommand_of_error (hfirst _), compositeCommand_of_error (hfirst _),
      leafCommand_of_error (hfirst _), leafCommand_of_error (hfirst _), leafCommand_of_error (hfirst _)⟩
  · have hchannel (rest : List Check) := firstError_of_second_fails (rest := rest) hc (State.needChannel_fails hch)
    exact ⟨leafCommand_of_error (hchannel _), compositeCommand_of_error (hchannel _)⟩
  · exact leafCommand_of_error
      (firstError_of_third_fails hc ((s.needChannel_clear ch).mpr hch) (State.needBin_fails hk))
  · have hstage (rest : List Check) := firstError_of_second_fails (rest := rest) hc (State.needStage_fails hst)
    exact ⟨leafCommand_of_error (hstage _), compositeCommand_of_error (hstage _)⟩
  · exact leafCommand_of_error
      (firstError_of_third_fails hc ((s.needStage_clear st).mpr ⟨h1, hl⟩) (State.needUpperIndex_fails hp))

/-! ### The sequencer's commands (R224, R225, R231, R234) -/

/-- CONFIGURE on an invalid configuration performs the failed reconfiguration and raises its error. -/
theorem exec_configure_of_invalid {s : State} (hv : ¬ s.configValid = true) :
    exec .configure s = .next (s.reconfigureFailed.raiseError .configInvalid (encode .configure)) := if_neg hv

theorem exec_process_of_overlong {s : State} {len : Nat} (hlen : s.build.bmax < len) :
    exec (.process len) s = .next (s.raiseError .badIndex (encode (.process len))) :=
  if_pos (State.needBlockLength_fails hlen)

/-- A PROCESS that finds an invalid pending configuration ends as CONFIGURE does. -/
theorem exec_process_of_pending_invalid {s : State} {len : Nat} (hlen : len ≤ s.build.bmax) (hp : s.pending = true)
    (hv : ¬ s.configValid = true) :
    exec (.process len) s = .next (s.reconfigureFailed.raiseError .configInvalid (encode (.process len))) :=
  (if_neg (ne_true_of_eq_false ((s.needBlockLength_clear len).mpr hlen))).trans ((if_pos hp).trans (if_neg hv))

/-- The checks of a PROCESS are the same for an empty block and for one with samples. -/
theorem processStart_of_error {s : State} {len : Nat} {e : ErrCode}
    (h : firstError [s.needConfigured, s.needRoom] = some e) :
    processStart len s = .next (s.raiseError e (encode (.process len))) := by
  rw [processStart]
  split_ifs
  · exact leafCommand_of_error h
  · exact compositeCommand_of_error h

/-- Settles O15: each command's checks, up to the first that fails; the reconfiguration comes after PROCESS's first. -/
theorem sequencerCommandErrors : Obligations.SequencerCommandErrors := by
  intro s len
  refine ⟨fun hc => ?_, fun hc hacc => ?_, exec_process_of_overlong, fun hc hlen hp hacc => ?_, fun hinvalid => ?_⟩
  · have hfirst (rest : List Check) := firstError_of_unconfigured (rest := rest) hc
    exact ⟨compositeCommand_of_error (hfirst _), leafCommand_of_error (hfirst _),
      fun hlen hp => (exec_process_of_settled hlen hp).trans (processStart_of_error (hfirst _))⟩
  · exact compositeCommand_of_error (firstError_of_second_fails hc (State.needHop_fails hacc))
  · exact (exec_process_of_settled hlen hp).trans
      (processStart_of_error (firstError_of_second_fails hc (State.needRoom_fails hacc)))
  · have hv : ¬ s.configValid = true := mt s.configValid_iff.mp hinvalid
    exact ⟨exec_configure_of_invalid hv, fun hlen hp => exec_process_of_pending_invalid hlen hp hv⟩

/-! ### The error procedure (R252) -/

/-- Settles O10: only the record depends on HALTED. -/
theorem errorProcedureRecordsTheFirstError : Obligations.ErrorProcedureRecordsTheFirstError := by
  intro s e w
  constructor <;> intro hhalted
  · rw [State.raiseError, hhalted]
    rfl
  · rw [State.raiseError, hhalted]
    rfl

/-! ### The interrupt output (R261) -/

theorem State.irq_iff (s : State) :
    s.irq = true ↔ ∃ i, s.irqStatus.getLsbD i = true ∧ s.irqEnable.getLsbD i = true := by
  simp only [State.irq, decide_eq_true_eq, ne_eq, BitVec.zero_iff_eq_false, not_forall, Bool.not_eq_false,
    BitVec.getLsbD_and, Bool.and_eq_true]

/-- Settles O50: a set bit is one of the five. -/
theorem interruptOutputIsPendingAndEnabled : Obligations.InterruptOutputIsPendingAndEnabled := fun s =>
  s.irq_iff.trans (exists_congr fun _ =>
    ⟨fun ⟨hset, henabled⟩ => ⟨BitVec.lt_of_getLsbD hset, hset, henabled⟩, And.right⟩)

/-! ### Bus errors (R255) -/

theorem State.offset_lt_of_inWindow {s : State} {addr : Nat} (hw : s.inWindow addr = true) :
    addr - s.build.base < 2 ^ 28 := by
  rw [State.inWindow, Bool.and_eq_true, decide_eq_true_eq, decide_eq_true_eq] at hw
  omega

theorem hostRead_of_busError {s : State} {addr size : Nat} (hw : s.inWindow addr = true)
    (h : s.reach addr size false = none) : hostRead addr size s = .next ((s.busError addr).reply 0#32) := by
  rw [hostRead, if_pos hw, h]

theorem hostWrite_of_busError {s : State} {addr size : Nat} (v : Word) (hw : s.inWindow addr = true)
    (h : s.reach addr size true = none) : hostWrite addr size v s = .next (s.busError addr) := by
  rw [hostWrite, if_pos hw, h]

/-- Settles O55: the access reaches nothing, and the offset of one inside the window fits BUSERR_ADDR. -/
theorem busErrorEffects : Obligations.BusErrorEffects := by
  intro s addr size v hw
  rw [Nat.mod_eq_of_lt (State.offset_lt_of_inWindow hw)]
  exact ⟨hostWrite_of_busError v hw, hostRead_of_busError hw⟩

end Sys2Proof.Machine

/-! Resets (70_reset_and_hazards.md R301, R302): soft reset keeps the arrays, and hardware reset draws new ones. -/

namespace Sys2Proof.Machine

theorem State.softReset_eq_resetOf (s : State) :
    s.softReset = { State.resetOf s.build with mem := s.mem, inbox := s.inbox, replies := s.replies } := rfl

theorem State.hardReset_mem (s : State) : s.hardReset.mem = Memory.afterPowerOn (s.mem.powerOn + 1) :=
  congrArg State.mem s.hardReset_eq_justReset

/-- The two resets differ in the arrays alone (R302's last sentence). -/
theorem State.hardReset_eq_softReset (s : State) : s.hardReset = { s.softReset with mem := s.hardReset.mem } := by
  rw [s.hardReset_mem, s.hardReset_eq_justReset, s.softReset_eq_resetOf, State.justReset]

/-- Settles O57: the arrays after hardware reset are those after power-on, none of them written or cleared. -/
theorem resetsRestoreTheRegisters : Obligations.ResetsRestoreTheRegisters := by
  intro s
  refine ⟨s.softReset_eq_resetOf, ?_, ?_, s.hardReset_eq_softReset⟩
  · rw [s.hardReset_mem, Memory.afterPowerOn]
  · rw [s.hardReset_mem, Memory.afterPowerOn]

end Sys2Proof.Machine
